-- ==== Sys2Proof/Word.lean ====
section
/-! DEFINITION. The machine's words: 32-bit words, bytes and register indices (spec/00_scope.md R10, R11, R15, R24). -/

namespace Sys2Proof

/-- A register value, an immediate operand, the program counter or a data address: 32 bits (R11, R15). -/
abbrev Word := BitVec 32

/-- One byte of `code`, `mask` or data memory. -/
abbrev Byte := BitVec 8

/-- A register index, 0 to 12: the file has `NREG = 13` slots (R10, R30), and no operation uses an index outside it (R33). -/
abbrev Reg := Fin 13

end Sys2Proof
end

