-- ==== Sys2Proof/Config.lean ====
section
/-! DEFINITION. What is fixed while the core runs: the parameters of spec/00_scope.md section 3, the program (`code`, `mask`),
and the one parameter that stays opaque, `PROGRAM_FORMAT`. The parameters are plain data that State carries and no step writes
(log entry 10), so a statement about every state is a statement about every configuration. -/

namespace Sys2Proof

/-- The right `ACCESS(a)` of a data byte (R21, spec/20_memory.md R62): `noAccess` is the spec's `none`; `write` implies read. -/
inductive Access where
  | noAccess | read | write
deriving DecidableEq, Repr

/-- The data addresses `first` to `last`, both included, with one right. -/
structure Region where
  first : Nat
  last : Nat
  right : Access
deriving DecidableEq, Repr

/-- `REG_NIBBLE_HIGH` (R18): the meaning of a register nibble 13 to 15, or of a third-register byte 13 to 255. -/
inductive RegNibbleHigh where
  | fault | clamp
deriving DecidableEq, Repr

/-- `LEN_NIBBLE_HIGH` (R19): the meaning of a first-immediate length nibble 5 to 15. -/
inductive LenNibbleHigh where
  | fault | min8 | gp
deriving DecidableEq, Repr

/-- `GAS_POLICY` (R20): whether a negative gas balance ends the run. -/
inductive GasPolicy where
  | halt | log
deriving DecidableEq, Repr

/-- `MASK_TAIL` (R23, spec/93_implementation_defined.md U3): what a mask bit beyond the bitmap reads as. -/
inductive MaskTail where
  | zero | one
deriving DecidableEq, Repr

/-- The 88 mnemonics (spec/30_encoding.md R150): `Mnemonic.text` gives each one's spelling. -/
inductive Mnemonic where
  | trap | loadIndU32 | addImm | storeIndU32 | loadImm | jump | loadImmJump | branchEqImm
  | add | shloLImm | loadU32 | loadIndU8 | or | storeImmIndU32 | shloRImm | branchNeImm
  | storeIndU8 | fallthrough | andImm | jumpInd | sub | loadIndI8 | storeU32 | and
  | branchEq | sharRImm | storeImmIndU8 | setLtUImm | xor | storeIndU16 | branchNe | xorImm
  | branchLtSImm | loadIndI16 | mul | mulImm | setLtU | loadIndU16 | storeImmU32 | setGtUImm
  | negAddImm | branchGeU | loadImmJumpInd | branchGeS | branchLtUImm | branchGeSImm | branchLeSImm | branchLtU
  | branchLtS | orImm | branchGtUImm | shloR | branchGeUImm | branchGtSImm | storeImmIndU16 | shloL
  | setLtSImm | mulUpperUU | setLtS | branchLeUImm | loadU8 | setGtSImm | storeImmU8 | mulUpperUUImm
  | divS | mulUpperSSImm | loadI16 | mulUpperSS | divU | storeU16 | remS | storeU8
  | shloRImmAlt | remU | loadI8 | shloLImmAlt | loadU16 | sharR | ecalli | storeImmU16
  | sharRImmAlt | mulUpperSU | moveReg | cmovIz | cmovNz | cmovIzImm | cmovNzImm | sbrk
deriving DecidableEq, Repr

/-- `OPCODE_MAP` (R16): the mnemonic of each opcode byte, none for a byte with no entry (spec/30_encoding.md R132). The shape of an
entry is the one of its mnemonic's rule, `Mnemonic.shape` (log entry 11). -/
abbrev OpcodeMap := Vector (Option Mnemonic) 256

/-- The configuration of spec/10_state.md R52, without the program. `opcodeMap` and `gasCost` are indexed by the opcode byte, and the
costs of bytes with no entry are never read. In `access` the first range that holds an address gives its right, and an address in no
range has `noAccess` (log entry 7). -/
structure Config where
  opcodeMap : OpcodeMap
  gasCost : Vector Nat 256
  gasPolicy : GasPolicy
  regNibbleHigh : RegNibbleHigh
  lenNibbleHigh : LenNibbleHigh
  maskTail : MaskTail
  access : List Region
deriving DecidableEq, Repr

/-- The program: the byte sequence `code` and the packed bitmap `mask` (spec/10_state.md R42). -/
structure Program where
  code : List Byte
  mask : List Byte
deriving DecidableEq, Repr

/-- The mask covers the code: `8 * |mask| >= |code|` (spec/10_state.md R42, spec/30_encoding.md R100). -/
def Program.covered (p : Program) : Bool := decide (p.code.length ≤ 8 * p.mask.length)

/-- `PROGRAM_FORMAT` (R22, spec/30_encoding.md R100): the wire layout of a program blob, which the spec leaves OPEN. It has no body:
no proof can know what a blob splits into. `none` is a blob with no valid code and mask (log entry 12, safe). -/
opaque Config.programFormat : List Byte → Option (List Byte × List Byte)

/-- The reasons of a model fault (spec/60_exceptions.md R436). They are data, because the state records one (spec/10_state.md R51). -/
inductive ModelFault where
  /-- The decoder, R131: the pc is below the code's length and its mask bit is 0. Safe: the spec itself stops here. -/
  | notInstructionStart (pc : Nat)
  /-- The decoder, R132: the opcode byte has no entry in `OPCODE_MAP`. Safe: the spec itself stops here. -/
  | unknownOpcode (op : Byte)
  /-- The decoder, R104 and R105, under `REG_NIBBLE_HIGH = fault`. Safe: the spec itself stops here. -/
  | regIndexUnresolved (n : Nat)
  /-- The decoder, R108, under `LEN_NIBBLE_HIGH = fault`. Safe: the spec itself stops here. -/
  | immLenUnresolved (n : Nat)
  /-- The execution of `jump_ind`, `load_imm_jump_ind` or `sbrk`, R437. Safe: the spec itself stops here. -/
  | refused (op : Byte)
  /-- A load from a byte with no right, or a store to a byte without `write`, R70 and R71. Safe: the spec itself stops here. -/
  | memoryInaccessible (a : Word)
  /-- A load from a readable byte that holds no value, R70 and R72. Safe: the spec itself stops here. -/
  | memoryUninitialised (a : Word)
deriving DecidableEq, Repr

end Sys2Proof
end

