-- ==== Sys2Proof/Syntax.lean ====
section
/-! DEFINITION. The instructions: one constructor of `Instr` for each row of spec/opcode_table.json, with the fields of its argument
shape in the shape's order (spec/30_encoding.md R112), and the DecodedArguments record `Args` (spec/10_state.md R45). The opcode bytes
in the docstrings are those of the spec's default `OPCODE_MAP`. -/

namespace Sys2Proof

/-- An immediate or an offset as the decoder delivers it: its byte length in the program and its 32-bit value (R112). Its signed
reading is the two's-complement reading of `val` (R107). -/
structure Imm where
  len : Nat
  val : Word
deriving DecidableEq, Repr

/-- The 88 instructions (R150). A register operand is 0 to 12 by its type (R33). An offset is kept as decoded; the branch target
`u32(pc + offset)` of R140 is computed where the instruction runs, from the pc of that instruction (log entry 17). -/
inductive Instr where
  /-- `trap`, opcode 0 (0x00), NoArgs; spec/48_system.md R411. -/
  | trap
  /-- `load_ind_u32`, opcode 1 (0x01), TwoRegs1Imm; spec/47_load_store.md R393. -/
  | loadIndU32 (firstReg secondReg : Reg) (immX : Imm)
  /-- `add_imm`, opcode 2 (0x02), TwoRegs1Imm; spec/41_math.md R211. -/
  | addImm (firstReg secondReg : Reg) (immX : Imm)
  /-- `store_ind_u32`, opcode 3 (0x03), TwoRegs1Imm; spec/47_load_store.md R388. -/
  | storeIndU32 (firstReg secondReg : Reg) (immX : Imm)
  /-- `load_imm`, opcode 4 (0x04), OneReg1Imm; spec/47_load_store.md R371. -/
  | loadImm (reg : Reg) (immX : Imm)
  /-- `jump`, opcode 5 (0x05), OneOffset; spec/46_branch.md R331. -/
  | jump (offset : Imm)
  /-- `load_imm_jump`, opcode 6 (0x06), OneReg1Imm1Offset; spec/46_branch.md R332. -/
  | loadImmJump (reg : Reg) (immX offset : Imm)
  /-- `branch_eq_imm`, opcode 7 (0x07), OneReg1Imm1Offset; spec/46_branch.md R333. -/
  | branchEqImm (reg : Reg) (immX offset : Imm)
  /-- `add`, opcode 8 (0x08), ThreeRegs; spec/41_math.md R201. -/
  | add (firstReg secondReg thirdReg : Reg)
  /-- `shlo_l_imm`, opcode 9 (0x09), TwoRegs1Imm; spec/43_shift.md R264. -/
  | shloLImm (firstReg secondReg : Reg) (immX : Imm)
  /-- `load_u32`, opcode 10 (0x0A), OneReg1Imm; spec/47_load_store.md R376. -/
  | loadU32 (reg : Reg) (immX : Imm)
  /-- `load_ind_u8`, opcode 11 (0x0B), TwoRegs1Imm; spec/47_load_store.md R389. -/
  | loadIndU8 (firstReg secondReg : Reg) (immX : Imm)
  /-- `or`, opcode 12 (0x0C), ThreeRegs; spec/42_bit.md R243. -/
  | or (firstReg secondReg thirdReg : Reg)
  /-- `store_imm_ind_u32`, opcode 13 (0x0D), OneReg2Imm; spec/47_load_store.md R385. -/
  | storeImmIndU32 (reg : Reg) (immX immY : Imm)
  /-- `shlo_r_imm`, opcode 14 (0x0E), TwoRegs1Imm; spec/43_shift.md R265. -/
  | shloRImm (firstReg secondReg : Reg) (immX : Imm)
  /-- `branch_ne_imm`, opcode 15 (0x0F), OneReg1Imm1Offset; spec/46_branch.md R334. -/
  | branchNeImm (reg : Reg) (immX offset : Imm)
  /-- `store_ind_u8`, opcode 16 (0x10), TwoRegs1Imm; spec/47_load_store.md R386. -/
  | storeIndU8 (firstReg secondReg : Reg) (immX : Imm)
  /-- `fallthrough`, opcode 17 (0x11), NoArgs; spec/48_system.md R413. -/
  | fallthrough
  /-- `and_imm`, opcode 18 (0x12), TwoRegs1Imm; spec/42_bit.md R244. -/
  | andImm (firstReg secondReg : Reg) (immX : Imm)
  /-- `jump_ind`, opcode 19 (0x13), OneReg1Imm; spec/46_branch.md R349. -/
  | jumpInd (reg : Reg) (immX : Imm)
  /-- `sub`, opcode 20 (0x14), ThreeRegs; spec/41_math.md R202. -/
  | sub (firstReg secondReg thirdReg : Reg)
  /-- `load_ind_i8`, opcode 21 (0x15), TwoRegs1Imm; spec/47_load_store.md R390. -/
  | loadIndI8 (firstReg secondReg : Reg) (immX : Imm)
  /-- `store_u32`, opcode 22 (0x16), OneReg1Imm; spec/47_load_store.md R379. -/
  | storeU32 (reg : Reg) (immX : Imm)
  /-- `and`, opcode 23 (0x17), ThreeRegs; spec/42_bit.md R241. -/
  | and (firstReg secondReg thirdReg : Reg)
  /-- `branch_eq`, opcode 24 (0x18), TwoRegs1Offset; spec/46_branch.md R343. -/
  | branchEq (firstReg secondReg : Reg) (offset : Imm)
  /-- `shar_r_imm`, opcode 25 (0x19), TwoRegs1Imm; spec/43_shift.md R266. -/
  | sharRImm (firstReg secondReg : Reg) (immX : Imm)
  /-- `store_imm_ind_u8`, opcode 26 (0x1A), OneReg2Imm; spec/47_load_store.md R383. -/
  | storeImmIndU8 (reg : Reg) (immX immY : Imm)
  /-- `set_lt_u_imm`, opcode 27 (0x1B), TwoRegs1Imm; spec/44_boolean.md R293. -/
  | setLtUImm (firstReg secondReg : Reg) (immX : Imm)
  /-- `xor`, opcode 28 (0x1C), ThreeRegs; spec/42_bit.md R242. -/
  | xor (firstReg secondReg thirdReg : Reg)
  /-- `store_ind_u16`, opcode 29 (0x1D), TwoRegs1Imm; spec/47_load_store.md R387. -/
  | storeIndU16 (firstReg secondReg : Reg) (immX : Imm)
  /-- `branch_ne`, opcode 30 (0x1E), TwoRegs1Offset; spec/46_branch.md R344. -/
  | branchNe (firstReg secondReg : Reg) (offset : Imm)
  /-- `xor_imm`, opcode 31 (0x1F), TwoRegs1Imm; spec/42_bit.md R245. -/
  | xorImm (firstReg secondReg : Reg) (immX : Imm)
  /-- `branch_lt_s_imm`, opcode 32 (0x20), OneReg1Imm1Offset; spec/46_branch.md R339. -/
  | branchLtSImm (reg : Reg) (immX offset : Imm)
  /-- `load_ind_i16`, opcode 33 (0x21), TwoRegs1Imm; spec/47_load_store.md R392. -/
  | loadIndI16 (firstReg secondReg : Reg) (immX : Imm)
  /-- `mul`, opcode 34 (0x22), ThreeRegs; spec/41_math.md R203. -/
  | mul (firstReg secondReg thirdReg : Reg)
  /-- `mul_imm`, opcode 35 (0x23), TwoRegs1Imm; spec/41_math.md R212. -/
  | mulImm (firstReg secondReg : Reg) (immX : Imm)
  /-- `set_lt_u`, opcode 36 (0x24), ThreeRegs; spec/44_boolean.md R291. -/
  | setLtU (firstReg secondReg thirdReg : Reg)
  /-- `load_ind_u16`, opcode 37 (0x25), TwoRegs1Imm; spec/47_load_store.md R391. -/
  | loadIndU16 (firstReg secondReg : Reg) (immX : Imm)
  /-- `store_imm_u32`, opcode 38 (0x26), TwoImm; spec/47_load_store.md R382. -/
  | storeImmU32 (immX immY : Imm)
  /-- `set_gt_u_imm`, opcode 39 (0x27), TwoRegs1Imm; spec/44_boolean.md R295. -/
  | setGtUImm (firstReg secondReg : Reg) (immX : Imm)
  /-- `neg_add_imm`, opcode 40 (0x28), TwoRegs1Imm; spec/41_math.md R215. -/
  | negAddImm (firstReg secondReg : Reg) (immX : Imm)
  /-- `branch_ge_u`, opcode 41 (0x29), TwoRegs1Offset; spec/46_branch.md R347. -/
  | branchGeU (firstReg secondReg : Reg) (offset : Imm)
  /-- `load_imm_jump_ind`, opcode 42 (0x2A), TwoRegs2Imm; spec/46_branch.md R350. -/
  | loadImmJumpInd (firstReg secondReg : Reg) (immX immY : Imm)
  /-- `branch_ge_s`, opcode 43 (0x2B), TwoRegs1Offset; spec/46_branch.md R348. -/
  | branchGeS (firstReg secondReg : Reg) (offset : Imm)
  /-- `branch_lt_u_imm`, opcode 44 (0x2C), OneReg1Imm1Offset; spec/46_branch.md R335. -/
  | branchLtUImm (reg : Reg) (immX offset : Imm)
  /-- `branch_ge_s_imm`, opcode 45 (0x2D), OneReg1Imm1Offset; spec/46_branch.md R341. -/
  | branchGeSImm (reg : Reg) (immX offset : Imm)
  /-- `branch_le_s_imm`, opcode 46 (0x2E), OneReg1Imm1Offset; spec/46_branch.md R340. -/
  | branchLeSImm (reg : Reg) (immX offset : Imm)
  /-- `branch_lt_u`, opcode 47 (0x2F), TwoRegs1Offset; spec/46_branch.md R345. -/
  | branchLtU (firstReg secondReg : Reg) (offset : Imm)
  /-- `branch_lt_s`, opcode 48 (0x30), TwoRegs1Offset; spec/46_branch.md R346. -/
  | branchLtS (firstReg secondReg : Reg) (offset : Imm)
  /-- `or_imm`, opcode 49 (0x31), TwoRegs1Imm; spec/42_bit.md R246. -/
  | orImm (firstReg secondReg : Reg) (immX : Imm)
  /-- `branch_gt_u_imm`, opcode 50 (0x32), OneReg1Imm1Offset; spec/46_branch.md R338. -/
  | branchGtUImm (reg : Reg) (immX offset : Imm)
  /-- `shlo_r`, opcode 51 (0x33), ThreeRegs; spec/43_shift.md R262. -/
  | shloR (firstReg secondReg thirdReg : Reg)
  /-- `branch_ge_u_imm`, opcode 52 (0x34), OneReg1Imm1Offset; spec/46_branch.md R337. -/
  | branchGeUImm (reg : Reg) (immX offset : Imm)
  /-- `branch_gt_s_imm`, opcode 53 (0x35), OneReg1Imm1Offset; spec/46_branch.md R342. -/
  | branchGtSImm (reg : Reg) (immX offset : Imm)
  /-- `store_imm_ind_u16`, opcode 54 (0x36), OneReg2Imm; spec/47_load_store.md R384. -/
  | storeImmIndU16 (reg : Reg) (immX immY : Imm)
  /-- `shlo_l`, opcode 55 (0x37), ThreeRegs; spec/43_shift.md R261. -/
  | shloL (firstReg secondReg thirdReg : Reg)
  /-- `set_lt_s_imm`, opcode 56 (0x38), TwoRegs1Imm; spec/44_boolean.md R294. -/
  | setLtSImm (firstReg secondReg : Reg) (immX : Imm)
  /-- `mul_upper_u_u`, opcode 57 (0x39), ThreeRegs; spec/41_math.md R205. -/
  | mulUpperUU (firstReg secondReg thirdReg : Reg)
  /-- `set_lt_s`, opcode 58 (0x3A), ThreeRegs; spec/44_boolean.md R292. -/
  | setLtS (firstReg secondReg thirdReg : Reg)
  /-- `branch_le_u_imm`, opcode 59 (0x3B), OneReg1Imm1Offset; spec/46_branch.md R336. -/
  | branchLeUImm (reg : Reg) (immX offset : Imm)
  /-- `load_u8`, opcode 60 (0x3C), OneReg1Imm; spec/47_load_store.md R372. -/
  | loadU8 (reg : Reg) (immX : Imm)
  /-- `set_gt_s_imm`, opcode 61 (0x3D), TwoRegs1Imm; spec/44_boolean.md R296. -/
  | setGtSImm (firstReg secondReg : Reg) (immX : Imm)
  /-- `store_imm_u8`, opcode 62 (0x3E), TwoImm; spec/47_load_store.md R380. -/
  | storeImmU8 (immX immY : Imm)
  /-- `mul_upper_u_u_imm`, opcode 63 (0x3F), TwoRegs1Imm; spec/41_math.md R214. -/
  | mulUpperUUImm (firstReg secondReg : Reg) (immX : Imm)
  /-- `div_s`, opcode 64 (0x40), ThreeRegs; spec/41_math.md R208. -/
  | divS (firstReg secondReg thirdReg : Reg)
  /-- `mul_upper_s_s_imm`, opcode 65 (0x41), TwoRegs1Imm; spec/41_math.md R213. -/
  | mulUpperSSImm (firstReg secondReg : Reg) (immX : Imm)
  /-- `load_i16`, opcode 66 (0x42), OneReg1Imm; spec/47_load_store.md R375. -/
  | loadI16 (reg : Reg) (immX : Imm)
  /-- `mul_upper_s_s`, opcode 67 (0x43), ThreeRegs; spec/41_math.md R204. -/
  | mulUpperSS (firstReg secondReg thirdReg : Reg)
  /-- `div_u`, opcode 68 (0x44), ThreeRegs; spec/41_math.md R207. -/
  | divU (firstReg secondReg thirdReg : Reg)
  /-- `store_u16`, opcode 69 (0x45), OneReg1Imm; spec/47_load_store.md R378. -/
  | storeU16 (reg : Reg) (immX : Imm)
  /-- `rem_s`, opcode 70 (0x46), ThreeRegs; spec/41_math.md R210. -/
  | remS (firstReg secondReg thirdReg : Reg)
  /-- `store_u8`, opcode 71 (0x47), OneReg1Imm; spec/47_load_store.md R377. -/
  | storeU8 (reg : Reg) (immX : Imm)
  /-- `shlo_r_imm_alt`, opcode 72 (0x48), TwoRegs1Imm; spec/43_shift.md R268. -/
  | shloRImmAlt (firstReg secondReg : Reg) (immX : Imm)
  /-- `rem_u`, opcode 73 (0x49), ThreeRegs; spec/41_math.md R209. -/
  | remU (firstReg secondReg thirdReg : Reg)
  /-- `load_i8`, opcode 74 (0x4A), OneReg1Imm; spec/47_load_store.md R373. -/
  | loadI8 (reg : Reg) (immX : Imm)
  /-- `shlo_l_imm_alt`, opcode 75 (0x4B), TwoRegs1Imm; spec/43_shift.md R267. -/
  | shloLImmAlt (firstReg secondReg : Reg) (immX : Imm)
  /-- `load_u16`, opcode 76 (0x4C), OneReg1Imm; spec/47_load_store.md R374. -/
  | loadU16 (reg : Reg) (immX : Imm)
  /-- `shar_r`, opcode 77 (0x4D), ThreeRegs; spec/43_shift.md R263. -/
  | sharR (firstReg secondReg thirdReg : Reg)
  /-- `ecalli`, opcode 78 (0x4E), OneImm; spec/48_system.md R412. -/
  | ecalli (immX : Imm)
  /-- `store_imm_u16`, opcode 79 (0x4F), TwoImm; spec/47_load_store.md R381. -/
  | storeImmU16 (immX immY : Imm)
  /-- `shar_r_imm_alt`, opcode 80 (0x50), TwoRegs1Imm; spec/43_shift.md R269. -/
  | sharRImmAlt (firstReg secondReg : Reg) (immX : Imm)
  /-- `mul_upper_s_u`, opcode 81 (0x51), ThreeRegs; spec/41_math.md R206. -/
  | mulUpperSU (firstReg secondReg thirdReg : Reg)
  /-- `move_reg`, opcode 82 (0x52), TwoRegs; spec/45_move.md R311. -/
  | moveReg (firstReg secondReg : Reg)
  /-- `cmov_iz`, opcode 83 (0x53), ThreeRegs; spec/45_move.md R312. -/
  | cmovIz (firstReg secondReg thirdReg : Reg)
  /-- `cmov_nz`, opcode 84 (0x54), ThreeRegs; spec/45_move.md R313. -/
  | cmovNz (firstReg secondReg thirdReg : Reg)
  /-- `cmov_iz_imm`, opcode 85 (0x55), TwoRegs1Imm; spec/45_move.md R314. -/
  | cmovIzImm (firstReg secondReg : Reg) (immX : Imm)
  /-- `cmov_nz_imm`, opcode 86 (0x56), TwoRegs1Imm; spec/45_move.md R315. -/
  | cmovNzImm (firstReg secondReg : Reg) (immX : Imm)
  /-- `sbrk`, opcode 87 (0x57), TwoRegs; spec/48_system.md R414. -/
  | sbrk (firstReg secondReg : Reg)
deriving DecidableEq, Repr

/-- The DecodedArguments record: the shape tag with the shape's fields (R110, R112). -/
inductive Args where
  | noArgs
  | oneImm (immX : Imm)
  | twoImm (immX immY : Imm)
  | oneOffset (offset : Imm)
  | oneReg1Imm (reg : Reg) (immX : Imm)
  | oneReg2Imm (reg : Reg) (immX immY : Imm)
  | oneReg1Imm1Offset (reg : Reg) (immX offset : Imm)
  | twoRegs (firstReg secondReg : Reg)
  | twoRegs1Imm (firstReg secondReg : Reg) (immX : Imm)
  | twoRegs1Offset (firstReg secondReg : Reg) (offset : Imm)
  | twoRegs2Imm (firstReg secondReg : Reg) (immX immY : Imm)
  | threeRegs (firstReg secondReg thirdReg : Reg)
deriving DecidableEq, Repr

/-- The DecodedArguments record of an instruction: its shape is the one of its mnemonic (R110, R150). -/
def Instr.args : Instr → Args
  | .trap => .noArgs
  | .loadIndU32 firstReg secondReg immX => .twoRegs1Imm firstReg secondReg immX
  | .addImm firstReg secondReg immX => .twoRegs1Imm firstReg secondReg immX
  | .storeIndU32 firstReg secondReg immX => .twoRegs1Imm firstReg secondReg immX
  | .loadImm reg immX => .oneReg1Imm reg immX
  | .jump offset => .oneOffset offset
  | .loadImmJump reg immX offset => .oneReg1Imm1Offset reg immX offset
  | .branchEqImm reg immX offset => .oneReg1Imm1Offset reg immX offset
  | .add firstReg secondReg thirdReg => .threeRegs firstReg secondReg thirdReg
  | .shloLImm firstReg secondReg immX => .twoRegs1Imm firstReg secondReg immX
  | .loadU32 reg immX => .oneReg1Imm reg immX
  | .loadIndU8 firstReg secondReg immX => .twoRegs1Imm firstReg secondReg immX
  | .or firstReg secondReg thirdReg => .threeRegs firstReg secondReg thirdReg
  | .storeImmIndU32 reg immX immY => .oneReg2Imm reg immX immY
  | .shloRImm firstReg secondReg immX => .twoRegs1Imm firstReg secondReg immX
  | .branchNeImm reg immX offset => .oneReg1Imm1Offset reg immX offset
  | .storeIndU8 firstReg secondReg immX => .twoRegs1Imm firstReg secondReg immX
  | .fallthrough => .noArgs
  | .andImm firstReg secondReg immX => .twoRegs1Imm firstReg secondReg immX
  | .jumpInd reg immX => .oneReg1Imm reg immX
  | .sub firstReg secondReg thirdReg => .threeRegs firstReg secondReg thirdReg
  | .loadIndI8 firstReg secondReg immX => .twoRegs1Imm firstReg secondReg immX
  | .storeU32 reg immX => .oneReg1Imm reg immX
  | .and firstReg secondReg thirdReg => .threeRegs firstReg secondReg thirdReg
  | .branchEq firstReg secondReg offset => .twoRegs1Offset firstReg secondReg offset
  | .sharRImm firstReg secondReg immX => .twoRegs1Imm firstReg secondReg immX
  | .storeImmIndU8 reg immX immY => .oneReg2Imm reg immX immY
  | .setLtUImm firstReg secondReg immX => .twoRegs1Imm firstReg secondReg immX
  | .xor firstReg secondReg thirdReg => .threeRegs firstReg secondReg thirdReg
  | .storeIndU16 firstReg secondReg immX => .twoRegs1Imm firstReg secondReg immX
  | .branchNe firstReg secondReg offset => .twoRegs1Offset firstReg secondReg offset
  | .xorImm firstReg secondReg immX => .twoRegs1Imm firstReg secondReg immX
  | .branchLtSImm reg immX offset => .oneReg1Imm1Offset reg immX offset
  | .loadIndI16 firstReg secondReg immX => .twoRegs1Imm firstReg secondReg immX
  | .mul firstReg secondReg thirdReg => .threeRegs firstReg secondReg thirdReg
  | .mulImm firstReg secondReg immX => .twoRegs1Imm firstReg secondReg immX
  | .setLtU firstReg secondReg thirdReg => .threeRegs firstReg secondReg thirdReg
  | .loadIndU16 firstReg secondReg immX => .twoRegs1Imm firstReg secondReg immX
  | .storeImmU32 immX immY => .twoImm immX immY
  | .setGtUImm firstReg secondReg immX => .twoRegs1Imm firstReg secondReg immX
  | .negAddImm firstReg secondReg immX => .twoRegs1Imm firstReg secondReg immX
  | .branchGeU firstReg secondReg offset => .twoRegs1Offset firstReg secondReg offset
  | .loadImmJumpInd firstReg secondReg immX immY => .twoRegs2Imm firstReg secondReg immX immY
  | .branchGeS firstReg secondReg offset => .twoRegs1Offset firstReg secondReg offset
  | .branchLtUImm reg immX offset => .oneReg1Imm1Offset reg immX offset
  | .branchGeSImm reg immX offset => .oneReg1Imm1Offset reg immX offset
  | .branchLeSImm reg immX offset => .oneReg1Imm1Offset reg immX offset
  | .branchLtU firstReg secondReg offset => .twoRegs1Offset firstReg secondReg offset
  | .branchLtS firstReg secondReg offset => .twoRegs1Offset firstReg secondReg offset
  | .orImm firstReg secondReg immX => .twoRegs1Imm firstReg secondReg immX
  | .branchGtUImm reg immX offset => .oneReg1Imm1Offset reg immX offset
  | .shloR firstReg secondReg thirdReg => .threeRegs firstReg secondReg thirdReg
  | .branchGeUImm reg immX offset => .oneReg1Imm1Offset reg immX offset
  | .branchGtSImm reg immX offset => .oneReg1Imm1Offset reg immX offset
  | .storeImmIndU16 reg immX immY => .oneReg2Imm reg immX immY
  | .shloL firstReg secondReg thirdReg => .threeRegs firstReg secondReg thirdReg
  | .setLtSImm firstReg secondReg immX => .twoRegs1Imm firstReg secondReg immX
  | .mulUpperUU firstReg secondReg thirdReg => .threeRegs firstReg secondReg thirdReg
  | .setLtS firstReg secondReg thirdReg => .threeRegs firstReg secondReg thirdReg
  | .branchLeUImm reg immX offset => .oneReg1Imm1Offset reg immX offset
  | .loadU8 reg immX => .oneReg1Imm reg immX
  | .setGtSImm firstReg secondReg immX => .twoRegs1Imm firstReg secondReg immX
  | .storeImmU8 immX immY => .twoImm immX immY
  | .mulUpperUUImm firstReg secondReg immX => .twoRegs1Imm firstReg secondReg immX
  | .divS firstReg secondReg thirdReg => .threeRegs firstReg secondReg thirdReg
  | .mulUpperSSImm firstReg secondReg immX => .twoRegs1Imm firstReg secondReg immX
  | .loadI16 reg immX => .oneReg1Imm reg immX
  | .mulUpperSS firstReg secondReg thirdReg => .threeRegs firstReg secondReg thirdReg
  | .divU firstReg secondReg thirdReg => .threeRegs firstReg secondReg thirdReg
  | .storeU16 reg immX => .oneReg1Imm reg immX
  | .remS firstReg secondReg thirdReg => .threeRegs firstReg secondReg thirdReg
  | .storeU8 reg immX => .oneReg1Imm reg immX
  | .shloRImmAlt firstReg secondReg immX => .twoRegs1Imm firstReg secondReg immX
  | .remU firstReg secondReg thirdReg => .threeRegs firstReg secondReg thirdReg
  | .loadI8 reg immX => .oneReg1Imm reg immX
  | .shloLImmAlt firstReg secondReg immX => .twoRegs1Imm firstReg secondReg immX
  | .loadU16 reg immX => .oneReg1Imm reg immX
  | .sharR firstReg secondReg thirdReg => .threeRegs firstReg secondReg thirdReg
  | .ecalli immX => .oneImm immX
  | .storeImmU16 immX immY => .twoImm immX immY
  | .sharRImmAlt firstReg secondReg immX => .twoRegs1Imm firstReg secondReg immX
  | .mulUpperSU firstReg secondReg thirdReg => .threeRegs firstReg secondReg thirdReg
  | .moveReg firstReg secondReg => .twoRegs firstReg secondReg
  | .cmovIz firstReg secondReg thirdReg => .threeRegs firstReg secondReg thirdReg
  | .cmovNz firstReg secondReg thirdReg => .threeRegs firstReg secondReg thirdReg
  | .cmovIzImm firstReg secondReg immX => .twoRegs1Imm firstReg secondReg immX
  | .cmovNzImm firstReg secondReg immX => .twoRegs1Imm firstReg secondReg immX
  | .sbrk firstReg secondReg => .twoRegs firstReg secondReg

/-- The mnemonic of an instruction (R150). -/
def Instr.mnemonic : Instr → Mnemonic
  | .trap => .trap
  | .loadIndU32 _ _ _ => .loadIndU32
  | .addImm _ _ _ => .addImm
  | .storeIndU32 _ _ _ => .storeIndU32
  | .loadImm _ _ => .loadImm
  | .jump _ => .jump
  | .loadImmJump _ _ _ => .loadImmJump
  | .branchEqImm _ _ _ => .branchEqImm
  | .add _ _ _ => .add
  | .shloLImm _ _ _ => .shloLImm
  | .loadU32 _ _ => .loadU32
  | .loadIndU8 _ _ _ => .loadIndU8
  | .or _ _ _ => .or
  | .storeImmIndU32 _ _ _ => .storeImmIndU32
  | .shloRImm _ _ _ => .shloRImm
  | .branchNeImm _ _ _ => .branchNeImm
  | .storeIndU8 _ _ _ => .storeIndU8
  | .fallthrough => .fallthrough
  | .andImm _ _ _ => .andImm
  | .jumpInd _ _ => .jumpInd
  | .sub _ _ _ => .sub
  | .loadIndI8 _ _ _ => .loadIndI8
  | .storeU32 _ _ => .storeU32
  | .and _ _ _ => .and
  | .branchEq _ _ _ => .branchEq
  | .sharRImm _ _ _ => .sharRImm
  | .storeImmIndU8 _ _ _ => .storeImmIndU8
  | .setLtUImm _ _ _ => .setLtUImm
  | .xor _ _ _ => .xor
  | .storeIndU16 _ _ _ => .storeIndU16
  | .branchNe _ _ _ => .branchNe
  | .xorImm _ _ _ => .xorImm
  | .branchLtSImm _ _ _ => .branchLtSImm
  | .loadIndI16 _ _ _ => .loadIndI16
  | .mul _ _ _ => .mul
  | .mulImm _ _ _ => .mulImm
  | .setLtU _ _ _ => .setLtU
  | .loadIndU16 _ _ _ => .loadIndU16
  | .storeImmU32 _ _ => .storeImmU32
  | .setGtUImm _ _ _ => .setGtUImm
  | .negAddImm _ _ _ => .negAddImm
  | .branchGeU _ _ _ => .branchGeU
  | .loadImmJumpInd _ _ _ _ => .loadImmJumpInd
  | .branchGeS _ _ _ => .branchGeS
  | .branchLtUImm _ _ _ => .branchLtUImm
  | .branchGeSImm _ _ _ => .branchGeSImm
  | .branchLeSImm _ _ _ => .branchLeSImm
  | .branchLtU _ _ _ => .branchLtU
  | .branchLtS _ _ _ => .branchLtS
  | .orImm _ _ _ => .orImm
  | .branchGtUImm _ _ _ => .branchGtUImm
  | .shloR _ _ _ => .shloR
  | .branchGeUImm _ _ _ => .branchGeUImm
  | .branchGtSImm _ _ _ => .branchGtSImm
  | .storeImmIndU16 _ _ _ => .storeImmIndU16
  | .shloL _ _ _ => .shloL
  | .setLtSImm _ _ _ => .setLtSImm
  | .mulUpperUU _ _ _ => .mulUpperUU
  | .setLtS _ _ _ => .setLtS
  | .branchLeUImm _ _ _ => .branchLeUImm
  | .loadU8 _ _ => .loadU8
  | .setGtSImm _ _ _ => .setGtSImm
  | .storeImmU8 _ _ => .storeImmU8
  | .mulUpperUUImm _ _ _ => .mulUpperUUImm
  | .divS _ _ _ => .divS
  | .mulUpperSSImm _ _ _ => .mulUpperSSImm
  | .loadI16 _ _ => .loadI16
  | .mulUpperSS _ _ _ => .mulUpperSS
  | .divU _ _ _ => .divU
  | .storeU16 _ _ => .storeU16
  | .remS _ _ _ => .remS
  | .storeU8 _ _ => .storeU8
  | .shloRImmAlt _ _ _ => .shloRImmAlt
  | .remU _ _ _ => .remU
  | .loadI8 _ _ => .loadI8
  | .shloLImmAlt _ _ _ => .shloLImmAlt
  | .loadU16 _ _ => .loadU16
  | .sharR _ _ _ => .sharR
  | .ecalli _ => .ecalli
  | .storeImmU16 _ _ => .storeImmU16
  | .sharRImmAlt _ _ _ => .sharRImmAlt
  | .mulUpperSU _ _ _ => .mulUpperSU
  | .moveReg _ _ => .moveReg
  | .cmovIz _ _ _ => .cmovIz
  | .cmovNz _ _ _ => .cmovNz
  | .cmovIzImm _ _ _ => .cmovIzImm
  | .cmovNzImm _ _ _ => .cmovNzImm
  | .sbrk _ _ => .sbrk

/-- The 12 argument shapes (R110). The extended-width variant has no layout and no entry of `OPCODE_MAP` has it (R111). -/
inductive Shape where
  | noArgs | oneImm | twoImm | oneOffset | oneReg1Imm | oneReg2Imm | oneReg1Imm1Offset | twoRegs | twoRegs1Imm | twoRegs1Offset
  | twoRegs2Imm | threeRegs
deriving DecidableEq, Repr

/-- The shape tag of a record (R112). -/
def Args.shape : Args → Shape
  | .noArgs => .noArgs
  | .oneImm _ => .oneImm
  | .twoImm _ _ => .twoImm
  | .oneOffset _ => .oneOffset
  | .oneReg1Imm _ _ => .oneReg1Imm
  | .oneReg2Imm _ _ _ => .oneReg2Imm
  | .oneReg1Imm1Offset _ _ _ => .oneReg1Imm1Offset
  | .twoRegs _ _ => .twoRegs
  | .twoRegs1Imm _ _ _ => .twoRegs1Imm
  | .twoRegs1Offset _ _ _ => .twoRegs1Offset
  | .twoRegs2Imm _ _ _ _ => .twoRegs2Imm
  | .threeRegs _ _ _ => .threeRegs

/-- The three outcomes of the decoder (R133): a value, DecodeError, or a model fault. -/
inductive Decoded (α : Type) where
  | ok (a : α)
  | decodeError
  | modelFault (r : ModelFault)
deriving DecidableEq, Repr

end Sys2Proof
end

