-- ==== Sys2Proof/WellFormed.lean ====
section
/-! DEFINITION. Which instructions an encoding can hold. Register operands are in range by their type, so the checks are about the
byte lengths and the values of immediates and offsets (spec/30_encoding.md R107, R108, R118 to R129). -/

namespace Sys2Proof

/-- The value is one that `len` bytes can give: the sign extension of its low `len` bytes when there are fewer than 4, any value
otherwise, and 0 for no byte (R107). -/
def Imm.fits (x : Imm) : Bool := (x.val.setWidth (8 * x.len)).signExtend 32 == x.val

/-- An immediate whose length is `min(4, btn(..))`: 1 to 4 bytes, since `btn` is at least 1 (R102, R119, R121, R122, R126, R127). -/
def Imm.maskWf (x : Imm) : Bool := decide (1 ≤ x.len) && decide (x.len ≤ 4) && x.fits

/-- A first immediate whose length a nibble gives: 0 to 8 bytes (R108). -/
def Imm.nibbleWf (x : Imm) : Bool := decide (x.len ≤ 8) && x.fits

/-- A second immediate or offset, of `min(4, max(0, ..))` bytes: 0 to 4 (R120, R123, R124, R128). -/
def Imm.secondWf (x : Imm) : Bool := decide (x.len ≤ 4) && x.fits

/-- The checks of one argument record, by shape. -/
def Args.wf : Args → Bool
  | .noArgs => true
  | .oneImm immX => immX.maskWf
  | .twoImm immX immY => immX.nibbleWf && immY.secondWf
  | .oneOffset offset => offset.maskWf
  | .oneReg1Imm _ immX => immX.maskWf
  | .oneReg2Imm _ immX immY => immX.nibbleWf && immY.secondWf
  | .oneReg1Imm1Offset _ immX offset => immX.nibbleWf && offset.secondWf
  | .twoRegs _ _ => true
  | .twoRegs1Imm _ _ immX => immX.maskWf
  | .twoRegs1Offset _ _ offset => offset.maskWf
  | .twoRegs2Imm _ _ immX immY => immX.nibbleWf && immY.secondWf
  | .threeRegs _ _ _ => true

/-- An instruction some encoding holds. -/
def Instr.wf (i : Instr) : Bool := i.args.wf

end Sys2Proof
end

