-- ==== Sys2Proof/Decode.lean ====
section
/-! DEFINITION. The decoder of spec/30_encoding.md: byte helpers, the mask, the immediate and register-index decoders, the twelve
argument shapes, the opcode map, `decode`; after it the encoder, and how one instruction's bits are laid out as a program. -/

namespace Sys2Proof

/-! ### Bytes and numbers (spec/00_scope.md R24, R25) -/

/-- `le(b0, .., b(n-1))`, the sum of `b(k) * 256^k` (R24). -/
def le : List Byte → Nat
  | [] => 0
  | b :: bs => b.toNat + 256 * le bs

/-- Byte k of a value, `v[8k+7:8k]` (R24); 0 beyond its width. -/
def byteOf (v : Word) (k : Nat) : Byte := (v >>> (8 * k)).setWidth 8

/-- `s32(u)`, the two's-complement reading (R25). -/
def s32 (u : Word) : Int := u.toInt

/-- `u32(i)`, an integer modulo 2^32 (R25). -/
def u32 (i : Int) : Word := BitVec.ofInt 32 i

/-- `sext_N(v)` of an N-bit value (R25). -/
def sext (nbits v : Nat) : Word := if v.testBit (nbits - 1) then u32 ((v : Int) - 2 ^ nbits) else BitVec.ofNat 32 v

/-- `zext_N(v)` of an N-bit value (R25). -/
def zext (v : Nat) : Word := BitVec.ofNat 32 v

/-- `lo(b) = b[3:0]` (R24). -/
def lo (b : Byte) : Nat := b.toNat % 16

/-- `hi(b) = b[7:4]` (R24). -/
def hi (b : Byte) : Nat := b.toNat / 16

/-! ### The mask (R101 to R103) -/

/-- Bit i of the packed bitmap, LSB first; `false` beyond the bitmap (R101). -/
def Program.maskBit (p : Program) (i : Nat) : Bool :=
  match p.mask[i / 8]? with
  | some b => b.toNat.testBit (i % 8)
  | none => false

/-- `isInstruction(i)` (R101). Beyond the bitmap it reads as `MASK_TAIL` says: 0 by the source, 1 in the alternative of U3. -/
def isInstruction (cfg : Config) (p : Program) (i : Nat) : Bool :=
  if i < 8 * p.mask.length then p.maskBit i else decide (cfg.maskTail = .one)

/-- `SCAN_CAP` (spec/00_scope.md R12). -/
def scanCap : Nat := 24

/-- `bytesToNextInstruction(i)`, written `btn(i)` (R102): the least k in 1 to 24 with an instruction start at i + k, else 24. -/
def btn (cfg : Config) (p : Program) (i : Nat) : Nat :=
  ((List.range' 1 scanCap).find? fun k => isInstruction cfg p (i + k)).getD scanCap

/-- `IMM_MAX` (spec/00_scope.md R13): the cap on a length that comes from the mask. -/
def immMax : Nat := 4

/-- The length of an immediate that fills its instruction from index i - 1 on: `min(4, btn(i))` (R119, R121, R122, R126, R127). -/
def maskLen (cfg : Config) (p : Program) (i : Nat) : Nat := min immMax (btn cfg p i)

/-- The length of a second immediate: `min(4, max(0, btn(pc+1) - hdr - lX))` (R120, R123, R128); the subtraction stops at 0. -/
def secondLen (cfg : Config) (p : Program) (pc hdr lX : Nat) : Nat := min immMax (btn cfg p (pc + 1) - hdr - lX)

/-! ### Immediates (R106, R107) -/

/-- `IMM_BUF` (spec/00_scope.md R14): the size of the immediate buffer. -/
def immBuf : Nat := 8

/-- The byte that fills the buffer: 0xFF when the last supplied byte has bit 7 set, else 0x00; 0x00 for no byte (R106). -/
def fillByte (b : List Byte) : Byte :=
  match b.getLast? with
  | some last => if last.msb then 0xFF#8 else 0x00#8
  | none => 0x00#8

/-- `setBytes(b)`: the 8-byte buffer (R106). -/
def setBytes (b : List Byte) : List Byte := b.take immBuf ++ List.replicate (immBuf - b.length) (fillByte b)

/-- `getU32`, the low four bytes (R106). -/
def getU32 (buf : List Byte) : Word := BitVec.ofNat 32 (le (buf.take 4))

/-- `getI32 = s32(getU32)` (R106). -/
def getI32 (buf : List Byte) : Int := s32 (getU32 buf)

/-- `getU64`, all eight bytes (R106). No instruction in scope reads it (R107). -/
def getU64 (buf : List Byte) : BitVec 64 := BitVec.ofNat 64 (le (buf.take 8))

/-- `getI64`, the two's-complement reading of `getU64` (R106). -/
def getI64 (buf : List Byte) : Int := (getU64 buf).toInt

/-- `imm(b)` (R107): the operand that every immediate and offset delivers. -/
def imm (b : List Byte) : Word := getU32 (setBytes b)

/-! ### Outcomes, registers and lengths -/

/-- The steps of a decode run in order and the first one that fails ends it (R113). -/
def Decoded.bind {α β : Type} (d : Decoded α) (f : α → Decoded β) : Decoded β :=
  match d with
  | .ok a => f a
  | .decodeError => .decodeError
  | .modelFault r => .modelFault r

/-- `regIdx(n)` of a nibble and `reg3(c)` of a whole byte: the value itself from 0 to 12, then `REG_NIBBLE_HIGH` (R104, R105). -/
def regIdx (cfg : Config) (n : Nat) : Decoded Reg :=
  if h : n < 13 then .ok ⟨n, h⟩
  else match cfg.regNibbleHigh with
    | .fault => .modelFault (.regIndexUnresolved n)
    | .clamp => .ok 12

/-- `lenIdx(n)` (R108). -/
def lenIdx (cfg : Config) (n : Nat) : Decoded Nat :=
  if n ≤ 4 then .ok n
  else match cfg.lenNibbleHigh with
    | .fault => .modelFault (.immLenUnresolved n)
    | .min8 => .ok (min 8 n)
    | .gp => .ok (min 4 (n % 8))

/-- `code[i]`; DecodeError past the end of the code (R113, R114). Indices are plain numbers and do not wrap (log entry 16). -/
def codeByte (p : Program) (i : Nat) : Decoded Byte :=
  match p.code[i]? with
  | some b => .ok b
  | none => .decodeError

/-- `bytes(i, n)` (R114): DecodeError when `i + n > L` and n > 0. -/
def codeBytes (p : Program) (i n : Nat) : Decoded (List Byte) :=
  if 0 < n ∧ p.code.length < i + n then .decodeError else .ok ((p.code.drop i).take n)

/-- An immediate or offset of n bytes at index i (R107, R112). -/
def codeImm (p : Program) (i n : Nat) : Decoded Imm := (codeBytes p i n).bind fun b => .ok ⟨n, imm b⟩

/-- `firstReg` from the high and `secondReg` from the low nibble of byte 1, in this order (R112, R125 to R129). -/
def decodeRegPair (cfg : Config) (p : Program) (pc : Nat) : Decoded (Reg × Reg) :=
  (codeByte p (pc + 1)).bind fun b =>
  (regIdx cfg (hi b)).bind fun firstReg =>
  (regIdx cfg (lo b)).bind fun secondReg => .ok (firstReg, secondReg)

/-- The two immediates after a header of hdr bytes, the first of lX bytes (R120, R123, R124, R128). -/
def decodeImmPair (cfg : Config) (p : Program) (pc hdr lX : Nat) : Decoded (Imm × Imm) :=
  (codeImm p (pc + 1 + hdr) lX).bind fun immX =>
  (codeImm p (pc + 1 + hdr + lX) (secondLen cfg p pc hdr lX)).bind fun immY => .ok (immX, immY)

/-! ### The argument shapes (R110) -/

/-- A shape together with the operation that its dispatcher selects (R110, spec/40_dispatch.md R174, R177). -/
inductive Format where
  | noArgs (mk : Instr)
  | oneImm (mk : Imm → Instr)
  | twoImm (mk : Imm → Imm → Instr)
  | oneOffset (mk : Imm → Instr)
  | oneReg1Imm (mk : Reg → Imm → Instr)
  | oneReg2Imm (mk : Reg → Imm → Imm → Instr)
  | oneReg1Imm1Offset (mk : Reg → Imm → Imm → Instr)
  | twoRegs (mk : Reg → Reg → Instr)
  | twoRegs1Imm (mk : Reg → Reg → Imm → Instr)
  | twoRegs1Offset (mk : Reg → Reg → Imm → Instr)
  | twoRegs2Imm (mk : Reg → Reg → Imm → Imm → Instr)
  | threeRegs (mk : Reg → Reg → Reg → Instr)

/-- OneImm and OneOffset: the immediate starts right after the opcode (R119, R121). -/
def decodeOneImm (cfg : Config) (p : Program) (pc : Nat) : Decoded Imm := codeImm p (pc + 1) (maskLen cfg p (pc + 1))

/-- TwoImm: the first length is in the low nibble of byte 1, the high nibble is ignored (R120). -/
def decodeTwoImm (cfg : Config) (p : Program) (pc : Nat) : Decoded (Imm × Imm) :=
  (codeByte p (pc + 1)).bind fun b =>
  (lenIdx cfg (lo b)).bind fun lX => decodeImmPair cfg p pc 1 lX

/-- OneReg1Imm: the register is in the low nibble of byte 1, the high nibble is ignored (R122). -/
def decodeOneReg1Imm (cfg : Config) (p : Program) (pc : Nat) : Decoded (Reg × Imm) :=
  (codeByte p (pc + 1)).bind fun b =>
  (regIdx cfg (lo b)).bind fun reg =>
  (codeImm p (pc + 2) (maskLen cfg p (pc + 2))).bind fun immX => .ok (reg, immX)

/-- OneReg2Imm and OneReg1Imm1Offset: byte 1 holds the register (low) and the first length (high) (R123, R124). -/
def decodeOneReg2Imm (cfg : Config) (p : Program) (pc : Nat) : Decoded (Reg × Imm × Imm) :=
  (codeByte p (pc + 1)).bind fun b =>
  (regIdx cfg (lo b)).bind fun reg =>
  (lenIdx cfg (hi b)).bind fun lX =>
  (decodeImmPair cfg p pc 1 lX).bind fun xy => .ok (reg, xy.1, xy.2)

/-- TwoRegs1Imm and TwoRegs1Offset (R126, R127). -/
def decodeTwoRegs1Imm (cfg : Config) (p : Program) (pc : Nat) : Decoded (Reg × Reg × Imm) :=
  (decodeRegPair cfg p pc).bind fun rr =>
  (codeImm p (pc + 2) (maskLen cfg p (pc + 2))).bind fun immX => .ok (rr.1, rr.2, immX)

/-- TwoRegs2Imm: the first length is in the low nibble of byte 2, the high nibble is ignored (R128). -/
def decodeTwoRegs2Imm (cfg : Config) (p : Program) (pc : Nat) : Decoded (Reg × Reg × Imm × Imm) :=
  (decodeRegPair cfg p pc).bind fun rr =>
  (codeByte p (pc + 2)).bind fun c =>
  (lenIdx cfg (lo c)).bind fun lX =>
  (decodeImmPair cfg p pc 2 lX).bind fun xy => .ok (rr.1, rr.2, xy.1, xy.2)

/-- ThreeRegs: the third register is the whole byte 2 (R105, R129). -/
def decodeThreeRegs (cfg : Config) (p : Program) (pc : Nat) : Decoded (Reg × Reg × Reg) :=
  (decodeRegPair cfg p pc).bind fun rr =>
  (codeByte p (pc + 2)).bind fun c =>
  (regIdx cfg c.toNat).bind fun thirdReg => .ok (rr.1, rr.2, thirdReg)

/-- Runs the shape's rule, R118 to R129. -/
def decodeFormat (cfg : Config) (p : Program) (pc : Nat) : Format → Decoded Instr
  | .noArgs mk => .ok mk
  | .oneImm mk => (decodeOneImm cfg p pc).bind fun x => .ok (mk x)
  | .twoImm mk => (decodeTwoImm cfg p pc).bind fun a => .ok (mk a.1 a.2)
  | .oneOffset mk => (decodeOneImm cfg p pc).bind fun x => .ok (mk x)
  | .oneReg1Imm mk => (decodeOneReg1Imm cfg p pc).bind fun a => .ok (mk a.1 a.2)
  | .oneReg2Imm mk => (decodeOneReg2Imm cfg p pc).bind fun a => .ok (mk a.1 a.2.1 a.2.2)
  | .oneReg1Imm1Offset mk => (decodeOneReg2Imm cfg p pc).bind fun a => .ok (mk a.1 a.2.1 a.2.2)
  | .twoRegs mk => (decodeRegPair cfg p pc).bind fun a => .ok (mk a.1 a.2)
  | .twoRegs1Imm mk => (decodeTwoRegs1Imm cfg p pc).bind fun a => .ok (mk a.1 a.2.1 a.2.2)
  | .twoRegs1Offset mk => (decodeTwoRegs1Imm cfg p pc).bind fun a => .ok (mk a.1 a.2.1 a.2.2)
  | .twoRegs2Imm mk => (decodeTwoRegs2Imm cfg p pc).bind fun a => .ok (mk a.1 a.2.1 a.2.2.1 a.2.2.2)
  | .threeRegs mk => (decodeThreeRegs cfg p pc).bind fun a => .ok (mk a.1 a.2.1 a.2.2)

/-! ### The opcode map (R16, R150) -/

/-- The spelling of a mnemonic in the table of R150. -/
def Mnemonic.text : Mnemonic → String
  | .trap => "trap"
  | .loadIndU32 => "load_ind_u32"
  | .addImm => "add_imm"
  | .storeIndU32 => "store_ind_u32"
  | .loadImm => "load_imm"
  | .jump => "jump"
  | .loadImmJump => "load_imm_jump"
  | .branchEqImm => "branch_eq_imm"
  | .add => "add"
  | .shloLImm => "shlo_l_imm"
  | .loadU32 => "load_u32"
  | .loadIndU8 => "load_ind_u8"
  | .or => "or"
  | .storeImmIndU32 => "store_imm_ind_u32"
  | .shloRImm => "shlo_r_imm"
  | .branchNeImm => "branch_ne_imm"
  | .storeIndU8 => "store_ind_u8"
  | .fallthrough => "fallthrough"
  | .andImm => "and_imm"
  | .jumpInd => "jump_ind"
  | .sub => "sub"
  | .loadIndI8 => "load_ind_i8"
  | .storeU32 => "store_u32"
  | .and => "and"
  | .branchEq => "branch_eq"
  | .sharRImm => "shar_r_imm"
  | .storeImmIndU8 => "store_imm_ind_u8"
  | .setLtUImm => "set_lt_u_imm"
  | .xor => "xor"
  | .storeIndU16 => "store_ind_u16"
  | .branchNe => "branch_ne"
  | .xorImm => "xor_imm"
  | .branchLtSImm => "branch_lt_s_imm"
  | .loadIndI16 => "load_ind_i16"
  | .mul => "mul"
  | .mulImm => "mul_imm"
  | .setLtU => "set_lt_u"
  | .loadIndU16 => "load_ind_u16"
  | .storeImmU32 => "store_imm_u32"
  | .setGtUImm => "set_gt_u_imm"
  | .negAddImm => "neg_add_imm"
  | .branchGeU => "branch_ge_u"
  | .loadImmJumpInd => "load_imm_jump_ind"
  | .branchGeS => "branch_ge_s"
  | .branchLtUImm => "branch_lt_u_imm"
  | .branchGeSImm => "branch_ge_s_imm"
  | .branchLeSImm => "branch_le_s_imm"
  | .branchLtU => "branch_lt_u"
  | .branchLtS => "branch_lt_s"
  | .orImm => "or_imm"
  | .branchGtUImm => "branch_gt_u_imm"
  | .shloR => "shlo_r"
  | .branchGeUImm => "branch_ge_u_imm"
  | .branchGtSImm => "branch_gt_s_imm"
  | .storeImmIndU16 => "store_imm_ind_u16"
  | .shloL => "shlo_l"
  | .setLtSImm => "set_lt_s_imm"
  | .mulUpperUU => "mul_upper_u_u"
  | .setLtS => "set_lt_s"
  | .branchLeUImm => "branch_le_u_imm"
  | .loadU8 => "load_u8"
  | .setGtSImm => "set_gt_s_imm"
  | .storeImmU8 => "store_imm_u8"
  | .mulUpperUUImm => "mul_upper_u_u_imm"
  | .divS => "div_s"
  | .mulUpperSSImm => "mul_upper_s_s_imm"
  | .loadI16 => "load_i16"
  | .mulUpperSS => "mul_upper_s_s"
  | .divU => "div_u"
  | .storeU16 => "store_u16"
  | .remS => "rem_s"
  | .storeU8 => "store_u8"
  | .shloRImmAlt => "shlo_r_imm_alt"
  | .remU => "rem_u"
  | .loadI8 => "load_i8"
  | .shloLImmAlt => "shlo_l_imm_alt"
  | .loadU16 => "load_u16"
  | .sharR => "shar_r"
  | .ecalli => "ecalli"
  | .storeImmU16 => "store_imm_u16"
  | .sharRImmAlt => "shar_r_imm_alt"
  | .mulUpperSU => "mul_upper_s_u"
  | .moveReg => "move_reg"
  | .cmovIz => "cmov_iz"
  | .cmovNz => "cmov_nz"
  | .cmovIzImm => "cmov_iz_imm"
  | .cmovNzImm => "cmov_nz_imm"
  | .sbrk => "sbrk"

/-- The shape of a mnemonic in the table of R150, with its operation. -/
def Mnemonic.format : Mnemonic → Format
  | .trap => .noArgs .trap
  | .loadIndU32 => .twoRegs1Imm .loadIndU32
  | .addImm => .twoRegs1Imm .addImm
  | .storeIndU32 => .twoRegs1Imm .storeIndU32
  | .loadImm => .oneReg1Imm .loadImm
  | .jump => .oneOffset .jump
  | .loadImmJump => .oneReg1Imm1Offset .loadImmJump
  | .branchEqImm => .oneReg1Imm1Offset .branchEqImm
  | .add => .threeRegs .add
  | .shloLImm => .twoRegs1Imm .shloLImm
  | .loadU32 => .oneReg1Imm .loadU32
  | .loadIndU8 => .twoRegs1Imm .loadIndU8
  | .or => .threeRegs .or
  | .storeImmIndU32 => .oneReg2Imm .storeImmIndU32
  | .shloRImm => .twoRegs1Imm .shloRImm
  | .branchNeImm => .oneReg1Imm1Offset .branchNeImm
  | .storeIndU8 => .twoRegs1Imm .storeIndU8
  | .fallthrough => .noArgs .fallthrough
  | .andImm => .twoRegs1Imm .andImm
  | .jumpInd => .oneReg1Imm .jumpInd
  | .sub => .threeRegs .sub
  | .loadIndI8 => .twoRegs1Imm .loadIndI8
  | .storeU32 => .oneReg1Imm .storeU32
  | .and => .threeRegs .and
  | .branchEq => .twoRegs1Offset .branchEq
  | .sharRImm => .twoRegs1Imm .sharRImm
  | .storeImmIndU8 => .oneReg2Imm .storeImmIndU8
  | .setLtUImm => .twoRegs1Imm .setLtUImm
  | .xor => .threeRegs .xor
  | .storeIndU16 => .twoRegs1Imm .storeIndU16
  | .branchNe => .twoRegs1Offset .branchNe
  | .xorImm => .twoRegs1Imm .xorImm
  | .branchLtSImm => .oneReg1Imm1Offset .branchLtSImm
  | .loadIndI16 => .twoRegs1Imm .loadIndI16
  | .mul => .threeRegs .mul
  | .mulImm => .twoRegs1Imm .mulImm
  | .setLtU => .threeRegs .setLtU
  | .loadIndU16 => .twoRegs1Imm .loadIndU16
  | .storeImmU32 => .twoImm .storeImmU32
  | .setGtUImm => .twoRegs1Imm .setGtUImm
  | .negAddImm => .twoRegs1Imm .negAddImm
  | .branchGeU => .twoRegs1Offset .branchGeU
  | .loadImmJumpInd => .twoRegs2Imm .loadImmJumpInd
  | .branchGeS => .twoRegs1Offset .branchGeS
  | .branchLtUImm => .oneReg1Imm1Offset .branchLtUImm
  | .branchGeSImm => .oneReg1Imm1Offset .branchGeSImm
  | .branchLeSImm => .oneReg1Imm1Offset .branchLeSImm
  | .branchLtU => .twoRegs1Offset .branchLtU
  | .branchLtS => .twoRegs1Offset .branchLtS
  | .orImm => .twoRegs1Imm .orImm
  | .branchGtUImm => .oneReg1Imm1Offset .branchGtUImm
  | .shloR => .threeRegs .shloR
  | .branchGeUImm => .oneReg1Imm1Offset .branchGeUImm
  | .branchGtSImm => .oneReg1Imm1Offset .branchGtSImm
  | .storeImmIndU16 => .oneReg2Imm .storeImmIndU16
  | .shloL => .threeRegs .shloL
  | .setLtSImm => .twoRegs1Imm .setLtSImm
  | .mulUpperUU => .threeRegs .mulUpperUU
  | .setLtS => .threeRegs .setLtS
  | .branchLeUImm => .oneReg1Imm1Offset .branchLeUImm
  | .loadU8 => .oneReg1Imm .loadU8
  | .setGtSImm => .twoRegs1Imm .setGtSImm
  | .storeImmU8 => .twoImm .storeImmU8
  | .mulUpperUUImm => .twoRegs1Imm .mulUpperUUImm
  | .divS => .threeRegs .divS
  | .mulUpperSSImm => .twoRegs1Imm .mulUpperSSImm
  | .loadI16 => .oneReg1Imm .loadI16
  | .mulUpperSS => .threeRegs .mulUpperSS
  | .divU => .threeRegs .divU
  | .storeU16 => .oneReg1Imm .storeU16
  | .remS => .threeRegs .remS
  | .storeU8 => .oneReg1Imm .storeU8
  | .shloRImmAlt => .twoRegs1Imm .shloRImmAlt
  | .remU => .threeRegs .remU
  | .loadI8 => .oneReg1Imm .loadI8
  | .shloLImmAlt => .twoRegs1Imm .shloLImmAlt
  | .loadU16 => .oneReg1Imm .loadU16
  | .sharR => .threeRegs .sharR
  | .ecalli => .oneImm .ecalli
  | .storeImmU16 => .twoImm .storeImmU16
  | .sharRImmAlt => .twoRegs1Imm .sharRImmAlt
  | .mulUpperSU => .threeRegs .mulUpperSU
  | .moveReg => .twoRegs .moveReg
  | .cmovIz => .threeRegs .cmovIz
  | .cmovNz => .threeRegs .cmovNz
  | .cmovIzImm => .twoRegs1Imm .cmovIzImm
  | .cmovNzImm => .twoRegs1Imm .cmovNzImm
  | .sbrk => .twoRegs .sbrk

/-- The shape tag of a format. -/
def Format.shape : Format → Shape
  | .noArgs _ => .noArgs
  | .oneImm _ => .oneImm
  | .twoImm _ => .twoImm
  | .oneOffset _ => .oneOffset
  | .oneReg1Imm _ => .oneReg1Imm
  | .oneReg2Imm _ => .oneReg2Imm
  | .oneReg1Imm1Offset _ => .oneReg1Imm1Offset
  | .twoRegs _ => .twoRegs
  | .twoRegs1Imm _ => .twoRegs1Imm
  | .twoRegs1Offset _ => .twoRegs1Offset
  | .twoRegs2Imm _ => .twoRegs2Imm
  | .threeRegs _ => .threeRegs

/-- The shape of a mnemonic (R110, R150). Its instruction's rule is written over the fields of this shape, so every entry of
`OPCODE_MAP` with this mnemonic has it (spec/40_dispatch.md R174: the dispatcher of `OPCODE_MAP(op).shape` always finds op).
DEDUCED (log entry 11, safe). -/
def Mnemonic.shape (m : Mnemonic) : Shape := m.format.shape

/-- An entry of `OPCODE_MAP`: mnemonic and shape (R16). -/
structure OpcodeEntry where
  mnemonic : Mnemonic
  shape : Shape
deriving DecidableEq, Repr

/-- `OPCODE_MAP(op).mnemonic`, if the byte has an entry (R132). -/
def OpcodeMap.lookup (map : OpcodeMap) (op : Byte) : Option Mnemonic := map[op.toNat]

/-- `OPCODE_MAP(op)`, if the byte has an entry (R16, R132). -/
def OpcodeMap.entry (map : OpcodeMap) (op : Byte) : Option OpcodeEntry := (map.lookup op).map fun m => ⟨m, m.shape⟩

/-- The lowest opcode byte whose entry has this mnemonic. -/
def OpcodeMap.opcodeOf (map : OpcodeMap) (m : Mnemonic) : Option Byte :=
  ((List.range 256).map (BitVec.ofNat 8)).find? fun op => map.lookup op == some m

/-- Opcodes 0 to 21 of the table of R150, in order. -/
def standardMnemonics0 : List Mnemonic := [
  .trap, .loadIndU32, .addImm, .storeIndU32, .loadImm, .jump,
  .loadImmJump, .branchEqImm, .add, .shloLImm, .loadU32, .loadIndU8,
  .or, .storeImmIndU32, .shloRImm, .branchNeImm, .storeIndU8, .fallthrough,
  .andImm, .jumpInd, .sub, .loadIndI8]

/-- Opcodes 22 to 43 of the table of R150, in order. -/
def standardMnemonics22 : List Mnemonic := [
  .storeU32, .and, .branchEq, .sharRImm, .storeImmIndU8, .setLtUImm,
  .xor, .storeIndU16, .branchNe, .xorImm, .branchLtSImm, .loadIndI16,
  .mul, .mulImm, .setLtU, .loadIndU16, .storeImmU32, .setGtUImm,
  .negAddImm, .branchGeU, .loadImmJumpInd, .branchGeS]

/-- Opcodes 44 to 65 of the table of R150, in order. -/
def standardMnemonics44 : List Mnemonic := [
  .branchLtUImm, .branchGeSImm, .branchLeSImm, .branchLtU, .branchLtS, .orImm,
  .branchGtUImm, .shloR, .branchGeUImm, .branchGtSImm, .storeImmIndU16, .shloL,
  .setLtSImm, .mulUpperUU, .setLtS, .branchLeUImm, .loadU8, .setGtSImm,
  .storeImmU8, .mulUpperUUImm, .divS, .mulUpperSSImm]

/-- Opcodes 66 to 87 of the table of R150, in order. -/
def standardMnemonics66 : List Mnemonic := [
  .loadI16, .mulUpperSS, .divU, .storeU16, .remS, .storeU8,
  .shloRImmAlt, .remU, .loadI8, .shloLImmAlt, .loadU16, .sharR,
  .ecalli, .storeImmU16, .sharRImmAlt, .mulUpperSU, .moveReg, .cmovIz,
  .cmovNz, .cmovIzImm, .cmovNzImm, .sbrk]

/-- The 88 mnemonics in the order of their default opcodes (R150). -/
def standardMnemonics : List Mnemonic := standardMnemonics0 ++ standardMnemonics22 ++ standardMnemonics44 ++ standardMnemonics66

/-- `OPCODE_MAP` in the spec's default instantiation (R16, R150): opcodes 0 to 87 in order, and no entry from 88 on (R132). -/
def OpcodeMap.standard : OpcodeMap where
  toArray := (standardMnemonics.map some ++ List.replicate 168 none).toArray
  size_toArray := by
    rw [List.size_toArray, List.length_append, List.length_map, List.length_replicate]
    rfl

/-- The spec's default configuration: the default `OPCODE_MAP` (R16), `GAS_POLICY = halt`, both nibble parameters `fault`,
`MASK_TAIL = zero` (spec/00_scope.md R18 to R20, R23), with the test vectors' cost of 1 for every opcode (R17,
spec/95_test_vectors.md) and the access rights given.
DESIGN CHOICE (log entry 8): `GAS_COST` is OPEN, and 1 is only the vectors' choice; unsafe for a claim about `State.reset`. -/
def Config.standard (access : List Region) : Config where
  opcodeMap := OpcodeMap.standard
  gasCost := Vector.replicate 256 1
  gasPolicy := .halt
  regNibbleHigh := .fault
  lenNibbleHigh := .fault
  maskTail := .zero
  access := access

/-! ### decode (R113, R133) -/

/-- A decode at pc: DecodeError past the code, NotInstructionStart, UnknownOpcode, then the shape's rule, in this order (R113). -/
def decode (cfg : Config) (p : Program) (pc : Nat) : Decoded Instr :=
  (codeByte p pc).bind fun op =>
  if isInstruction cfg p pc then
    match cfg.opcodeMap.lookup op with
    | some m => decodeFormat cfg p pc m.format
    | none => .modelFault (.unknownOpcode op)
  else .modelFault (.notInstructionStart pc)

/-! ### Lengths and the encoder -/

/-- `instructionsToSkip` of a decoded record (R112, R118 to R129). -/
def Args.skip : Args → Nat
  | .noArgs => 1
  | .oneImm immX => 1 + immX.len
  | .twoImm immX immY => 2 + immX.len + immY.len
  | .oneOffset offset => 1 + offset.len
  | .oneReg1Imm _ immX => 2 + immX.len
  | .oneReg2Imm _ immX immY => 2 + immX.len + immY.len
  | .oneReg1Imm1Offset _ immX offset => 2 + immX.len + offset.len
  | .twoRegs _ _ => 2
  | .twoRegs1Imm _ _ immX => 2 + immX.len
  | .twoRegs1Offset _ _ offset => 2 + offset.len
  | .twoRegs2Imm _ _ immX immY => 3 + immX.len + immY.len
  | .threeRegs _ _ _ => 3

/-- `instructionsToSkip` of an instruction. -/
def Instr.skip (i : Instr) : Nat := i.args.skip

/-- The bytes of an immediate, little-endian, as many as its length (R106). A byte beyond the fourth reaches no operand (R107) and is
written 0 (log entry 18). -/
def immBytes (x : Imm) : List Byte := (List.range x.len).map (byteOf x.val)

/-- A byte of two nibbles. -/
def nibbles (high low : Nat) : Byte := BitVec.ofNat 8 (16 * high + low)

/-- The bytes after the opcode, from the format table of R112. An ignored nibble is written 0 (log entry 18). -/
def Args.encode : Args → List Byte
  | .noArgs => []
  | .oneImm immX => immBytes immX
  | .twoImm immX immY => nibbles 0 immX.len :: (immBytes immX ++ immBytes immY)
  | .oneOffset offset => immBytes offset
  | .oneReg1Imm reg immX => nibbles 0 reg :: immBytes immX
  | .oneReg2Imm reg immX immY => nibbles immX.len reg :: (immBytes immX ++ immBytes immY)
  | .oneReg1Imm1Offset reg immX offset => nibbles immX.len reg :: (immBytes immX ++ immBytes offset)
  | .twoRegs firstReg secondReg => [nibbles firstReg secondReg]
  | .twoRegs1Imm firstReg secondReg immX => nibbles firstReg secondReg :: immBytes immX
  | .twoRegs1Offset firstReg secondReg offset => nibbles firstReg secondReg :: immBytes offset
  | .twoRegs2Imm firstReg secondReg immX immY =>
    nibbles firstReg secondReg :: nibbles 0 immX.len :: (immBytes immX ++ immBytes immY)
  | .threeRegs firstReg secondReg thirdReg => [nibbles firstReg secondReg, BitVec.ofNat 8 thirdReg]

/-- The bytes of an instruction under an opcode byte. -/
def encodeAs (op : Byte) (i : Instr) : List Byte := op :: i.args.encode

/-- The bytes of an instruction under an opcode map; none when no opcode byte has its mnemonic (R16). -/
def encode (map : OpcodeMap) (i : Instr) : Option (List Byte) := (map.opcodeOf i.mnemonic).map fun op => encodeAs op i

/-! ### One instruction's bits as a program (the host's questions) -/

/-- The most bytes an instruction can have: TwoRegs2Imm with an 8-byte first and a 4-byte second immediate (R108, R128). -/
def longestInstr : Nat := 15

/-- The bytes of an instruction whose bits are w, bit 0 the least significant bit of the first byte; every bit from nbits on is 0,
up to the longest instruction. -/
def fetchBytes (nbits w : Nat) : List Byte :=
  (List.range (max ((nbits + 7) / 8) longestInstr)).map fun k => BitVec.ofNat 8 (w % 2 ^ nbits / 256 ^ k)

/-- Packs bits 0 to 8 * nbytes - 1 into mask bytes, LSB first (R101). -/
def packMask (nbytes : Nat) (bit : Nat → Bool) : List Byte :=
  (List.range nbytes).map fun j =>
    BitVec.ofNat 8 ((List.range 8).foldl (fun acc b => if bit (8 * j + b) then acc + 2 ^ b else acc) 0)

/-- The program with the bytes put at index pc, an instruction start at pc and at the byte after them and at none between;
every other code byte and mask bit stays. -/
def Program.withInstrAt (p : Program) (pc : Nat) (bytes : List Byte) : Program :=
  let stop := pc + bytes.length
  let code := p.code.take pc ++ List.replicate (pc - p.code.length) 0#8 ++ bytes ++ p.code.drop stop
  { code := code
    mask := packMask (max (code.length / 8 + 1) p.mask.length) fun i =>
      if i = pc ∨ i = stop then true else if pc < i ∧ i < stop then false else p.maskBit i }

/-- The instruction the decoder reads from an instruction whose bits are w (log entry 1). -/
def decodeTableWord (nbits w : Nat) : Option Instr :=
  match decode (Config.standard []) (Program.withInstrAt ⟨[], []⟩ 0 (fetchBytes nbits w)) 0 with
  | .ok i => some i
  | .decodeError => none
  | .modelFault _ => none

end Sys2Proof
end

