-- ==== Sys2Proof/Machine/State.lean ====
section
/-! DEFINITION. The state of the core as plain data (spec/10_state.md, R52), the reasons a step can stop, and reset
(spec/70_reset_and_hazards.md R470 to R473). -/

namespace Sys2Proof.Machine

/-- The run status (spec/10_state.md R39). -/
inductive Status where
  | running | trapped | outOfGas | host
deriving DecidableEq, Repr

/-- The data memory (spec/20_memory.md R61): the bytes that hold a value, as (address, byte) pairs with addresses strictly rising.
An address that is not listed holds no value (R72), so no entry can equal what an unlisted address reads as. -/
abbrev Memory := List Host.Cell

/-- The whole state of R52, with the program and the configuration carried along as constants of the load (log entry 10).
The registers hold the unsigned view; `State.sreg` derives the signed one (R31). -/
structure State where
  /-- x[0] to x[12] (R30). -/
  regs : Vector Word 13
  /-- The index in `code` of the instruction to run (R35). -/
  pc : Word
  /-- The run status (R39). -/
  status : Status
  /-- The gas counter, a mathematical integer (R40). -/
  gas : Int
  /-- The host-call register (R41). -/
  hostCall : Word
  /-- The data memory (spec/20_memory.md R61). -/
  mem : Memory
  /-- The fault record (R51). -/
  fault : Option ModelFault
  /-- The program: code and mask, read by the decoder alone and written by nothing (R42). -/
  program : Program
  /-- The parameters, read and never written (R47, R52). -/
  config : Config
deriving DecidableEq, Repr

/-- Why a step of the model has no next state, or why the execution of an instruction answers none. -/
inductive Fault where
  /-- Raised by a meaning for the memory faults of execution, `MemoryInaccessible` and `MemoryUninitialised` (spec/60_exceptions.md
  R436). The step turns it into a next state with the reason recorded and all else undone (spec/40_dispatch.md R171; log entry 13).
  Safe: the spec itself gives no meaning past that point. -/
  | model (reason : ModelFault)
  /-- Raised by the meanings of `jump_ind`, `load_imm_jump_ind` and `sbrk`, which the spec refuses (spec/60_exceptions.md R437). The
  step turns it into a next state with `Refused(op)` recorded, op being the decoded opcode byte, and all else undone (log entries 13
  and 20). Safe: the spec itself gives no meaning past that point. -/
  | refusedByRule
  /-- Raised by `step` where the status is not Running: the core has no step there (spec/40_dispatch.md R170; log entry 14). Safe. -/
  | notRunning (status : Status)
  /-- Raised by `step` where a model fault is recorded: the core has no step there (R170; log entry 14). Safe. -/
  | faultRecorded (reason : ModelFault)
deriving DecidableEq, Repr

/-- Why an instruction is rejected. -/
inductive Refusal where
  /-- An arm of `exec` whose instruction has no meaning yet. No arm of this model raises it. Safe. -/
  | notModelled (mnemonic : String)
deriving DecidableEq, Repr

/-- What the caller gives at reset (spec/70_reset_and_hazards.md R471): every field must be given. -/
structure InitialState where
  pc : Word
  regs : Vector Word 13
  gas : Int
  mem : Memory
deriving DecidableEq, Repr

/-- `reset(program, initialState)` (R470, R471) under a configuration; `hostCall` is the unspecified value it has after reset
(R41, spec/93_implementation_defined.md U14). The program is not checked further (R475); see `loadProgram` for R435. -/
def State.resetWith (program : Program) (init : InitialState) (config : Config) (hostCall : Word) : State where
  regs := init.regs
  pc := init.pc
  status := .running
  gas := init.gas
  hostCall := hostCall
  mem := init.mem
  fault := none
  program := program
  config := config

/-- DESIGN CHOICE (log entries 2, 3, 4 and 6): the `initialState` of `State.reset`. The spec gives no default (R472); the registers
and the pc are 0 and the gas is 100 as in the programs of spec/95_test_vectors.md part 3, and no byte of memory has a value.
Unsafe for a claim about `State.reset`; every claim about all states is free of it. -/
def InitialState.standard : InitialState where
  pc := 0#32
  regs := Vector.replicate 13 0#32
  gas := 100
  mem := []

/-- DESIGN CHOICE (log entry 7): the access rights of `State.reset`, `write` on every address. `ACCESS` is OPEN (R21).
Unsafe for a claim about `State.reset`. -/
def accessAll : List Region := [⟨0, 2 ^ 32 - 1, .write⟩]

/-- The machine right after reset with no program loaded (log entry 1), the standard `initialState` and configuration, and
`hostCall` 0 (DESIGN CHOICE, log entry 5). -/
def State.reset : State := State.resetWith ⟨[], []⟩ InitialState.standard (Config.standard accessAll) 0#32

end Sys2Proof.Machine
end

