-- ==== Sys2Proof/Machine/Ops.lean ====
section
/-! DEFINITION. The named operations over registers, memory, the pc, the status and the fault record, and the events of
spec/60_exceptions.md with the return from Host. -/

namespace Sys2Proof.Machine

/-- What the execution of an instruction, or a step, answers. -/
abbrev Result := Host.Outcome State Fault Refusal

/-! ### Registers (spec/10_state.md R30 to R33) -/

/-- `x[r]`, the unsigned view. No register is hardwired (R32). -/
def State.reg (s : State) (r : Reg) : Word := s.regs[r]

/-- `xs[r]`, the signed view of the same bits (R31). -/
def State.sreg (s : State) (r : Reg) : Int := s32 (s.reg r)

/-- `x[r] <- v`. -/
def State.setReg (s : State) (r : Reg) (v : Word) : State := { s with regs := s.regs.set r v }

/-! ### Memory (spec/20_memory.md) -/

/-- The byte at an address, or none where it holds no value (R72). -/
def Memory.read : Memory → Nat → Option Byte
  | [], _ => none
  | (a, b) :: m, x => if x = a then some b else Memory.read m x

/-- Gives the byte at an address a value, keeping the addresses strictly rising. -/
def Memory.write : Memory → Nat → Byte → Memory
  | [], x, v => [(x, v)]
  | (a, b) :: m, x, v =>
    if x < a then (x, v) :: (a, b) :: m
    else if x = a then (x, v) :: m
    else (a, b) :: Memory.write m x v

/-- Addresses strictly rising from a lower bound on, and below 2^32. -/
def Memory.wfFrom : Nat → Memory → Bool
  | _, [] => true
  | low, (a, _) :: m => decide (low ≤ a) && decide (a < 2 ^ 32) && Memory.wfFrom (a + 1) m

/-- The canonical form: addresses strictly rising, each in the 32-bit space. An unlisted address holds no value, so no entry can
equal what it reads as. -/
def Memory.wf (m : Memory) : Bool := Memory.wfFrom 0 m

/-- The model's read of one byte of the data space. -/
def State.byteAt (s : State) (a : Word) : Option Byte := Memory.read s.mem a.toNat

/-- `ACCESS(a)` (R62): the right of the first range that holds the address, `noAccess` outside every range. -/
def accessRight (cfg : Config) (a : Word) : Access :=
  match cfg.access.find? fun r => decide (r.first ≤ a.toNat) && decide (a.toNat ≤ r.last) with
  | some r => r.right
  | none => .noAccess

/-- `ACCESS(a)` in a state. -/
def State.accessOf (s : State) (a : Word) : Access := accessRight s.config a

/-- The byte addresses of an n-byte access, `u32(a + k)` for k from 0 to n - 1 (R63, R66). -/
def byteAddrs (a : Word) (n : Nat) : List Word := (List.range n).map fun k => a + BitVec.ofNat 32 k

/-- `MemRead(a, n)` (R70): every byte's right first, then every byte's value, each in increasing order; the value is
little-endian (R63). -/
def memRead (s : State) (a : Word) (n : Nat) : Except ModelFault Nat :=
  match (byteAddrs a n).find? fun x => decide (s.accessOf x = .noAccess) with
  | some x => .error (.memoryInaccessible x)
  | none =>
    match (byteAddrs a n).find? fun x => (s.byteAt x).isNone with
    | some x => .error (.memoryUninitialised x)
    | none => .ok (le ((byteAddrs a n).filterMap s.byteAt))

/-- Stores the low n bytes of v from address a on, little-endian (R63, R71). -/
def writeBytes (m : Memory) (a : Word) (n : Nat) (v : Word) : Memory :=
  (List.range n).foldl (fun m k => Memory.write m (a + BitVec.ofNat 32 k).toNat (byteOf v k)) m

/-- The state with another data memory. -/
def State.setMem (s : State) (m : Memory) : State := { s with mem := m }

/-- `MemWrite(a, n, v)` (R71): every byte's right is checked before any byte is written, so a store is never partly done. -/
def memWrite (s : State) (a : Word) (n : Nat) (v : Word) : Except ModelFault State :=
  match (byteAddrs a n).find? fun x => decide (s.accessOf x ≠ .write) with
  | some x => .error (.memoryInaccessible x)
  | none => .ok (s.setMem (writeBytes s.mem a n v))

/-- Goes on with what a memory primitive answered, or raises its model fault (spec/40_dispatch.md R174). -/
def afterMem {α : Type} (r : Except ModelFault α) (go : α → State) : Result :=
  match r with
  | .ok x => .next (go x)
  | .error f => .fault (.model f)

/-! ### The program counter (spec/40_dispatch.md R175) -/

/-- The InstructionResult (spec/10_state.md R44): it lives within one step and is no part of the state (log entry 15). -/
inductive InstructionResult where
  | seq
  | jump (target : Word)
deriving DecidableEq, Repr

/-- `target = u32(pc + offset)`, from the pc of the instruction that holds the offset (spec/30_encoding.md R140). -/
def branchTarget (s : State) (offset : Imm) : Word := u32 (s.pc.toNat + s32 offset.val)

/-- The pc advance, the step's last phase: the jump's target, or `u32(pc + skip)` (R175). -/
def State.advance (s : State) (skip : Nat) (ir : InstructionResult) : State :=
  match ir with
  | .seq => { s with pc := u32 (s.pc.toNat + skip) }
  | .jump target => { s with pc := target }

/-! ### Events (spec/60_exceptions.md) -/

/-- `status <- S`: how a trap, a decode failure, running out of gas and a host call are entered (R431 to R434). The core has no
handler, vector or saved register (R440): an event writes the status and nothing else. -/
def State.withStatus (s : State) (st : Status) : State := { s with status := st }

/-- `fault <- reason` (R436). Applied to the state before the step, it leaves every other part as it was. -/
def State.recordFault (s : State) (r : ModelFault) : State := { s with fault := some r }

/-- `hostCall <- v` (R434). -/
def State.setHostCall (s : State) (v : Word) : State := { s with hostCall := v }

/-- `gas <- gas - cost`. -/
def State.spendGas (s : State) (cost : Nat) : State := { s with gas := s.gas - cost }

/-- The return from a host call (R445): defined only in status Host with no fault recorded; the host gives the registers, the
memory and the gas, and the core runs on at the pc that `ecalli` left. -/
def State.resume (s : State) (regs : Vector Word 13) (mem : Memory) (gas : Int) : Option State :=
  if s.status = .host ∧ s.fault = none then some { s with regs := regs, mem := mem, gas := gas, status := .running } else none

end Sys2Proof.Machine
end

