-- ==== Sys2Proof/Machine/Flags.lean ====
section
/-! DEFINITION. The core has no flags and no condition codes (spec/10_state.md R48): the set instructions and the branches compare
values directly. These are the comparisons of spec/44_boolean.md R290 and spec/46_branch.md R330. -/

namespace Sys2Proof.Machine

/-- `a = b`. -/
def condEq (a b : Word) : Bool := decide (a = b)

/-- `a != b`. -/
def condNe (a b : Word) : Bool := decide (a ≠ b)

/-- `a < b` of the unsigned readings. -/
def condLtU (a b : Word) : Bool := decide (a.toNat < b.toNat)

/-- `a <= b` of the unsigned readings. -/
def condLeU (a b : Word) : Bool := decide (a.toNat ≤ b.toNat)

/-- `a >= b` of the unsigned readings. -/
def condGeU (a b : Word) : Bool := decide (a.toNat ≥ b.toNat)

/-- `a > b` of the unsigned readings. -/
def condGtU (a b : Word) : Bool := decide (a.toNat > b.toNat)

/-- `a < b` of the signed readings. -/
def condLtS (a b : Word) : Bool := decide (s32 a < s32 b)

/-- `a <= b` of the signed readings. -/
def condLeS (a b : Word) : Bool := decide (s32 a ≤ s32 b)

/-- `a >= b` of the signed readings. -/
def condGeS (a b : Word) : Bool := decide (s32 a ≥ s32 b)

/-- `a > b` of the signed readings. -/
def condGtS (a b : Word) : Bool := decide (s32 a > s32 b)

/-- The result of a comparison as a register value, 1 or 0 (R290). -/
def boolWord (c : Bool) : Word := if c then 1#32 else 0#32

end Sys2Proof.Machine
end

