-- ==== Sys2Proof/Machine/Operands.lean ====
section
/-! DEFINITION. The operand forms: which register or immediate each argument shape reads and writes, said once for all
instructions of a form (spec/41_math.md R200, 42_bit.md R240, 43_shift.md R260, 44_boolean.md R290, 45_move.md R310,
46_branch.md R330, 47_load_store.md R370, R394). Every read is from the state before the instruction (spec/00_scope.md R26). -/

namespace Sys2Proof.Machine

/-- ThreeRegs: `x[thirdReg] <- f x[secondReg] x[firstReg]` (R200). -/
def threeRegsOp (f : Word → Word → Word) (firstReg secondReg thirdReg : Reg) (s : State) : Result :=
  .next ((s.setReg thirdReg (f (s.reg secondReg) (s.reg firstReg))).advance (Args.threeRegs firstReg secondReg thirdReg).skip .seq)

/-- TwoRegs1Imm: `x[secondReg] <- f x[firstReg] immX` (R200). -/
def twoRegs1ImmOp (f : Word → Word → Word) (firstReg secondReg : Reg) (immX : Imm) (s : State) : Result :=
  .next ((s.setReg secondReg (f (s.reg firstReg) immX.val)).advance (Args.twoRegs1Imm firstReg secondReg immX).skip .seq)

/-- TwoRegs: `x[secondReg] <- x[firstReg]` (R310). -/
def twoRegsMove (firstReg secondReg : Reg) (s : State) : Result :=
  .next ((s.setReg secondReg (s.reg firstReg)).advance (Args.twoRegs firstReg secondReg).skip .seq)

/-- ThreeRegs conditional move: `x[thirdReg] <- x[secondReg]` when the test of `x[firstReg]` holds, else no write (R310). -/
def threeRegsMoveIf (test : Word → Bool) (firstReg secondReg thirdReg : Reg) (s : State) : Result :=
  .next ((if test (s.reg firstReg) then s.setReg thirdReg (s.reg secondReg) else s).advance
    (Args.threeRegs firstReg secondReg thirdReg).skip .seq)

/-- TwoRegs1Imm conditional move: `x[secondReg] <- immX` when the test of `x[firstReg]` holds, else no write (R310). -/
def twoRegs1ImmMoveIf (test : Word → Bool) (firstReg secondReg : Reg) (immX : Imm) (s : State) : Result :=
  .next ((if test (s.reg firstReg) then s.setReg secondReg immX.val else s).advance
    (Args.twoRegs1Imm firstReg secondReg immX).skip .seq)

/-- OneReg1Imm1Offset branch: compares `x[reg]` (left) with `immX` (right) (R330). -/
def branchRegImm (cond : Word → Word → Bool) (reg : Reg) (immX offset : Imm) (s : State) : Result :=
  .next (s.advance (Args.oneReg1Imm1Offset reg immX offset).skip
    (if cond (s.reg reg) immX.val then .jump (branchTarget s offset) else .seq))

/-- TwoRegs1Offset branch: compares `x[secondReg]` (left) with `x[firstReg]` (right) (R330). -/
def branchRegReg (cond : Word → Word → Bool) (firstReg secondReg : Reg) (offset : Imm) (s : State) : Result :=
  .next (s.advance (Args.twoRegs1Offset firstReg secondReg offset).skip
    (if cond (s.reg secondReg) (s.reg firstReg) then .jump (branchTarget s offset) else .seq))

/-- The effective address `u32(base + immX)` (R370). -/
def effAddr (base : Word) (immX : Imm) : Word := u32 (base.toNat + immX.val.toNat)

/-- The base of the absolute forms (R370). -/
def absBase : Word := 0#32

/-- OneReg1Imm load: `x[reg] <- ext(MemRead(immX, n))` (R370, R394). -/
def loadAbs (n : Nat) (ext : Nat → Word) (reg : Reg) (immX : Imm) (s : State) : Result :=
  afterMem (memRead s (effAddr absBase immX) n) fun v =>
    (s.setReg reg (ext v)).advance (Args.oneReg1Imm reg immX).skip .seq

/-- TwoRegs1Imm load: `x[secondReg] <- ext(MemRead(u32(x[firstReg] + immX), n))` (R370, R394). -/
def loadInd (n : Nat) (ext : Nat → Word) (firstReg secondReg : Reg) (immX : Imm) (s : State) : Result :=
  afterMem (memRead s (effAddr (s.reg firstReg) immX) n) fun v =>
    (s.setReg secondReg (ext v)).advance (Args.twoRegs1Imm firstReg secondReg immX).skip .seq

/-- OneReg1Imm store: `MemWrite(immX, n, x[reg])`, which stores the low n bytes (R370, R394). -/
def storeAbs (n : Nat) (reg : Reg) (immX : Imm) (s : State) : Result :=
  afterMem (memWrite s (effAddr absBase immX) n (s.reg reg)) fun t => t.advance (Args.oneReg1Imm reg immX).skip .seq

/-- TwoImm store: `MemWrite(immX, n, immY)` (R370, R394). -/
def storeImmAbs (n : Nat) (immX immY : Imm) (s : State) : Result :=
  afterMem (memWrite s (effAddr absBase immX) n immY.val) fun t => t.advance (Args.twoImm immX immY).skip .seq

/-- OneReg2Imm store: `MemWrite(u32(x[reg] + immX), n, immY)` (R370, R394). -/
def storeImmInd (n : Nat) (reg : Reg) (immX immY : Imm) (s : State) : Result :=
  afterMem (memWrite s (effAddr (s.reg reg) immX) n immY.val) fun t => t.advance (Args.oneReg2Imm reg immX immY).skip .seq

/-- TwoRegs1Imm store: `MemWrite(u32(x[firstReg] + immX), n, x[secondReg])` (R370, R394). -/
def storeInd (n : Nat) (firstReg secondReg : Reg) (immX : Imm) (s : State) : Result :=
  afterMem (memWrite s (effAddr (s.reg firstReg) immX) n (s.reg secondReg)) fun t =>
    t.advance (Args.twoRegs1Imm firstReg secondReg immX).skip .seq

/-- An instruction whose execution the spec refuses (spec/60_exceptions.md R437): the step records `ModelFault(Refused(op))`. -/
def refuseOp : Result := .fault .refusedByRule

end Sys2Proof.Machine
end

