-- ==== Sys2Proof/Machine/Bit.lean ====
section
/-! DEFINITION. The bit operations (spec/42_bit.md R240 to R246). -/

namespace Sys2Proof.Machine

/-- `and` (R241): `x[thirdReg] <- x[secondReg] AND x[firstReg]`. -/
def execAnd (firstReg secondReg thirdReg : Reg) (s : State) : Result :=
  threeRegsOp (fun a b => a &&& b) firstReg secondReg thirdReg s

/-- `xor` (R242): `x[thirdReg] <- x[secondReg] XOR x[firstReg]`. -/
def execXor (firstReg secondReg thirdReg : Reg) (s : State) : Result :=
  threeRegsOp (fun a b => a ^^^ b) firstReg secondReg thirdReg s

/-- `or` (R243): `x[thirdReg] <- x[secondReg] OR x[firstReg]`. -/
def execOr (firstReg secondReg thirdReg : Reg) (s : State) : Result :=
  threeRegsOp (fun a b => a ||| b) firstReg secondReg thirdReg s

/-- `and_imm` (R244): `x[secondReg] <- x[firstReg] AND immX`. -/
def execAndImm (firstReg secondReg : Reg) (immX : Imm) (s : State) : Result :=
  twoRegs1ImmOp (fun a b => a &&& b) firstReg secondReg immX s

/-- `xor_imm` (R245): `x[secondReg] <- x[firstReg] XOR immX`. -/
def execXorImm (firstReg secondReg : Reg) (immX : Imm) (s : State) : Result :=
  twoRegs1ImmOp (fun a b => a ^^^ b) firstReg secondReg immX s

/-- `or_imm` (R246): `x[secondReg] <- x[firstReg] OR immX`. -/
def execOrImm (firstReg secondReg : Reg) (immX : Imm) (s : State) : Result :=
  twoRegs1ImmOp (fun a b => a ||| b) firstReg secondReg immX s

end Sys2Proof.Machine
end

