-- ==== Sys2Proof/Machine/Boolean.lean ====
section
/-! DEFINITION. The boolean (set) operations (spec/44_boolean.md R290 to R296). -/

namespace Sys2Proof.Machine

/-- `set_lt_u` (R291): 1 when `x[secondReg] < x[firstReg]`, unsigned, else 0. -/
def execSetLtU (firstReg secondReg thirdReg : Reg) (s : State) : Result :=
  threeRegsOp (fun a b => boolWord (condLtU a b)) firstReg secondReg thirdReg s

/-- `set_lt_s` (R292): 1 when `xs[secondReg] < xs[firstReg]`, else 0. -/
def execSetLtS (firstReg secondReg thirdReg : Reg) (s : State) : Result :=
  threeRegsOp (fun a b => boolWord (condLtS a b)) firstReg secondReg thirdReg s

/-- `set_lt_u_imm` (R293): 1 when `x[firstReg] < immX`, unsigned, else 0. -/
def execSetLtUImm (firstReg secondReg : Reg) (immX : Imm) (s : State) : Result :=
  twoRegs1ImmOp (fun a b => boolWord (condLtU a b)) firstReg secondReg immX s

/-- `set_lt_s_imm` (R294): 1 when `xs[firstReg] < s32(immX)`, else 0. -/
def execSetLtSImm (firstReg secondReg : Reg) (immX : Imm) (s : State) : Result :=
  twoRegs1ImmOp (fun a b => boolWord (condLtS a b)) firstReg secondReg immX s

/-- `set_gt_u_imm` (R295): 1 when `x[firstReg] > immX`, unsigned, else 0. -/
def execSetGtUImm (firstReg secondReg : Reg) (immX : Imm) (s : State) : Result :=
  twoRegs1ImmOp (fun a b => boolWord (condGtU a b)) firstReg secondReg immX s

/-- `set_gt_s_imm` (R296): 1 when `xs[firstReg] > s32(immX)`, else 0. -/
def execSetGtSImm (firstReg secondReg : Reg) (immX : Imm) (s : State) : Result :=
  twoRegs1ImmOp (fun a b => boolWord (condGtS a b)) firstReg secondReg immX s

end Sys2Proof.Machine
end

