-- ==== Sys2Proof/Machine/Branch.lean ====
section
/-! DEFINITION. The branch and jump operations (spec/46_branch.md R330 to R352). -/

namespace Sys2Proof.Machine

/-- `jump` (R331): `ir <- Jump(target)`. -/
def execJump (offset : Imm) (s : State) : Result :=
  .next (s.advance (Args.oneOffset offset).skip (.jump (branchTarget s offset)))

/-- `load_imm_jump` (R332): `x[reg] <- immX; ir <- Jump(target)`, both always. -/
def execLoadImmJump (reg : Reg) (immX offset : Imm) (s : State) : Result :=
  .next ((s.setReg reg immX.val).advance (Args.oneReg1Imm1Offset reg immX offset).skip (.jump (branchTarget s offset)))

/-- `branch_eq_imm` (R333): jumps when `x[reg] = immX`. -/
def execBranchEqImm (reg : Reg) (immX offset : Imm) (s : State) : Result :=
  branchRegImm condEq reg immX offset s

/-- `branch_ne_imm` (R334): jumps when `x[reg] != immX`. -/
def execBranchNeImm (reg : Reg) (immX offset : Imm) (s : State) : Result :=
  branchRegImm condNe reg immX offset s

/-- `branch_lt_u_imm` (R335): jumps when `x[reg] < immX`, unsigned. -/
def execBranchLtUImm (reg : Reg) (immX offset : Imm) (s : State) : Result :=
  branchRegImm condLtU reg immX offset s

/-- `branch_le_u_imm` (R336): jumps when `x[reg] <= immX`, unsigned. -/
def execBranchLeUImm (reg : Reg) (immX offset : Imm) (s : State) : Result :=
  branchRegImm condLeU reg immX offset s

/-- `branch_ge_u_imm` (R337): jumps when `x[reg] >= immX`, unsigned. -/
def execBranchGeUImm (reg : Reg) (immX offset : Imm) (s : State) : Result :=
  branchRegImm condGeU reg immX offset s

/-- `branch_gt_u_imm` (R338): jumps when `x[reg] > immX`, unsigned. -/
def execBranchGtUImm (reg : Reg) (immX offset : Imm) (s : State) : Result :=
  branchRegImm condGtU reg immX offset s

/-- `branch_lt_s_imm` (R339): jumps when `xs[reg] < s32(immX)`. -/
def execBranchLtSImm (reg : Reg) (immX offset : Imm) (s : State) : Result :=
  branchRegImm condLtS reg immX offset s

/-- `branch_le_s_imm` (R340): jumps when `xs[reg] <= s32(immX)`. -/
def execBranchLeSImm (reg : Reg) (immX offset : Imm) (s : State) : Result :=
  branchRegImm condLeS reg immX offset s

/-- `branch_ge_s_imm` (R341): jumps when `xs[reg] >= s32(immX)`. -/
def execBranchGeSImm (reg : Reg) (immX offset : Imm) (s : State) : Result :=
  branchRegImm condGeS reg immX offset s

/-- `branch_gt_s_imm` (R342): jumps when `xs[reg] > s32(immX)`. -/
def execBranchGtSImm (reg : Reg) (immX offset : Imm) (s : State) : Result :=
  branchRegImm condGtS reg immX offset s

/-- `branch_eq` (R343): jumps when `x[secondReg] = x[firstReg]`. -/
def execBranchEq (firstReg secondReg : Reg) (offset : Imm) (s : State) : Result :=
  branchRegReg condEq firstReg secondReg offset s

/-- `branch_ne` (R344): jumps when `x[secondReg] != x[firstReg]`. -/
def execBranchNe (firstReg secondReg : Reg) (offset : Imm) (s : State) : Result :=
  branchRegReg condNe firstReg secondReg offset s

/-- `branch_lt_u` (R345): jumps when `x[secondReg] < x[firstReg]`, unsigned. -/
def execBranchLtU (firstReg secondReg : Reg) (offset : Imm) (s : State) : Result :=
  branchRegReg condLtU firstReg secondReg offset s

/-- `branch_lt_s` (R346): jumps when `xs[secondReg] < xs[firstReg]`. -/
def execBranchLtS (firstReg secondReg : Reg) (offset : Imm) (s : State) : Result :=
  branchRegReg condLtS firstReg secondReg offset s

/-- `branch_ge_u` (R347): jumps when `x[secondReg] >= x[firstReg]`, unsigned. -/
def execBranchGeU (firstReg secondReg : Reg) (offset : Imm) (s : State) : Result :=
  branchRegReg condGeU firstReg secondReg offset s

/-- `branch_ge_s` (R348): jumps when `xs[secondReg] >= xs[firstReg]`. -/
def execBranchGeS (firstReg secondReg : Reg) (offset : Imm) (s : State) : Result :=
  branchRegReg condGeS firstReg secondReg offset s

/-- `jump_ind` (R349): refused by rule: the source has no jump table and no rule for a dynamic target. -/
def execJumpInd (_reg : Reg) (_immX : Imm) (_s : State) : Result :=
  refuseOp

/-- `load_imm_jump_ind` (R350): refused by rule, and the register write does not happen. -/
def execLoadImmJumpInd (_firstReg _secondReg : Reg) (_immX _immY : Imm) (_s : State) : Result :=
  refuseOp

end Sys2Proof.Machine
end

