-- ==== Sys2Proof/Machine/LoadStore.lean ====
section
/-! DEFINITION. The immediate load, the loads and the stores (spec/47_load_store.md R370 to R394). -/

namespace Sys2Proof.Machine

/-- `load_imm` (R371): `x[reg] <- immX`. -/
def execLoadImm (reg : Reg) (immX : Imm) (s : State) : Result :=
  .next ((s.setReg reg immX.val).advance (Args.oneReg1Imm reg immX).skip .seq)

/-- `load_u8` (R372): `x[reg] <- zext_8(MemRead(immX, 1))`. -/
def execLoadU8 (reg : Reg) (immX : Imm) (s : State) : Result :=
  loadAbs 1 zext reg immX s

/-- `load_i8` (R373): `x[reg] <- sext_8(MemRead(immX, 1))`. -/
def execLoadI8 (reg : Reg) (immX : Imm) (s : State) : Result :=
  loadAbs 1 (sext 8) reg immX s

/-- `load_u16` (R374): `x[reg] <- zext_16(MemRead(immX, 2))`. -/
def execLoadU16 (reg : Reg) (immX : Imm) (s : State) : Result :=
  loadAbs 2 zext reg immX s

/-- `load_i16` (R375): `x[reg] <- sext_16(MemRead(immX, 2))`. -/
def execLoadI16 (reg : Reg) (immX : Imm) (s : State) : Result :=
  loadAbs 2 (sext 16) reg immX s

/-- `load_u32` (R376): `x[reg] <- MemRead(immX, 4)`. -/
def execLoadU32 (reg : Reg) (immX : Imm) (s : State) : Result :=
  loadAbs 4 zext reg immX s

/-- `store_u8` (R377): `MemWrite(immX, 1, x[reg])`, the low 8 bits. -/
def execStoreU8 (reg : Reg) (immX : Imm) (s : State) : Result :=
  storeAbs 1 reg immX s

/-- `store_u16` (R378): `MemWrite(immX, 2, x[reg])`, the low 16 bits. -/
def execStoreU16 (reg : Reg) (immX : Imm) (s : State) : Result :=
  storeAbs 2 reg immX s

/-- `store_u32` (R379): `MemWrite(immX, 4, x[reg])`, the low 32 bits. -/
def execStoreU32 (reg : Reg) (immX : Imm) (s : State) : Result :=
  storeAbs 4 reg immX s

/-- `store_imm_u8` (R380): `MemWrite(immX, 1, immY)`, the low 8 bits. -/
def execStoreImmU8 (immX immY : Imm) (s : State) : Result :=
  storeImmAbs 1 immX immY s

/-- `store_imm_u16` (R381): `MemWrite(immX, 2, immY)`, the low 16 bits. -/
def execStoreImmU16 (immX immY : Imm) (s : State) : Result :=
  storeImmAbs 2 immX immY s

/-- `store_imm_u32` (R382): `MemWrite(immX, 4, immY)`, the low 32 bits. -/
def execStoreImmU32 (immX immY : Imm) (s : State) : Result :=
  storeImmAbs 4 immX immY s

/-- `store_imm_ind_u8` (R383): `MemWrite(u32(x[reg] + immX), 1, immY)`, the low 8 bits. -/
def execStoreImmIndU8 (reg : Reg) (immX immY : Imm) (s : State) : Result :=
  storeImmInd 1 reg immX immY s

/-- `store_imm_ind_u16` (R384): `MemWrite(u32(x[reg] + immX), 2, immY)`, the low 16 bits. -/
def execStoreImmIndU16 (reg : Reg) (immX immY : Imm) (s : State) : Result :=
  storeImmInd 2 reg immX immY s

/-- `store_imm_ind_u32` (R385): `MemWrite(u32(x[reg] + immX), 4, immY)`, the low 32 bits. -/
def execStoreImmIndU32 (reg : Reg) (immX immY : Imm) (s : State) : Result :=
  storeImmInd 4 reg immX immY s

/-- `store_ind_u8` (R386): `MemWrite(u32(x[firstReg] + immX), 1, x[secondReg])`, the low 8 bits. -/
def execStoreIndU8 (firstReg secondReg : Reg) (immX : Imm) (s : State) : Result :=
  storeInd 1 firstReg secondReg immX s

/-- `store_ind_u16` (R387): `MemWrite(u32(x[firstReg] + immX), 2, x[secondReg])`, the low 16 bits. -/
def execStoreIndU16 (firstReg secondReg : Reg) (immX : Imm) (s : State) : Result :=
  storeInd 2 firstReg secondReg immX s

/-- `store_ind_u32` (R388): `MemWrite(u32(x[firstReg] + immX), 4, x[secondReg])`, the low 32 bits. -/
def execStoreIndU32 (firstReg secondReg : Reg) (immX : Imm) (s : State) : Result :=
  storeInd 4 firstReg secondReg immX s

/-- `load_ind_u8` (R389): `x[secondReg] <- zext_8(MemRead(u32(x[firstReg] + immX), 1))`. -/
def execLoadIndU8 (firstReg secondReg : Reg) (immX : Imm) (s : State) : Result :=
  loadInd 1 zext firstReg secondReg immX s

/-- `load_ind_i8` (R390): `x[secondReg] <- sext_8(MemRead(u32(x[firstReg] + immX), 1))`. -/
def execLoadIndI8 (firstReg secondReg : Reg) (immX : Imm) (s : State) : Result :=
  loadInd 1 (sext 8) firstReg secondReg immX s

/-- `load_ind_u16` (R391): `x[secondReg] <- zext_16(MemRead(u32(x[firstReg] + immX), 2))`. -/
def execLoadIndU16 (firstReg secondReg : Reg) (immX : Imm) (s : State) : Result :=
  loadInd 2 zext firstReg secondReg immX s

/-- `load_ind_i16` (R392): `x[secondReg] <- sext_16(MemRead(u32(x[firstReg] + immX), 2))`. -/
def execLoadIndI16 (firstReg secondReg : Reg) (immX : Imm) (s : State) : Result :=
  loadInd 2 (sext 16) firstReg secondReg immX s

/-- `load_ind_u32` (R393): `x[secondReg] <- MemRead(u32(x[firstReg] + immX), 4)`. -/
def execLoadIndU32 (firstReg secondReg : Reg) (immX : Imm) (s : State) : Result :=
  loadInd 4 zext firstReg secondReg immX s

end Sys2Proof.Machine
end

