-- ==== Sys2Proof/Machine/Math.lean ====
section
/-! DEFINITION. The math operations (spec/41_math.md R200 to R216). Each operation works on exact integers and is narrowed to 32 bits at
the end, or is the BitVec operation that wraps modulo 2^32. -/

namespace Sys2Proof.Machine

/-- `u32(a + b)` (R201, R211). -/
def addW (a b : Word) : Word := a + b

/-- `u32(a - b)` (R202). -/
def subW (a b : Word) : Word := a - b

/-- `u32(a * b)`, the low 32 bits of the product (R203, R212). -/
def mulW (a b : Word) : Word := a * b

/-- `u32(floor(s32(a) * s32(b) / 2^32))` (R204, R213); `/` by a positive number rounds toward minus infinity. -/
def mulUpperSSW (a b : Word) : Word := u32 (s32 a * s32 b / 2 ^ 32)

/-- `floor(a * b / 2^32)` of the unsigned readings (R205, R214). -/
def mulUpperUUW (a b : Word) : Word := BitVec.ofNat 32 (a.toNat * b.toNat / 2 ^ 32)

/-- `u32(floor(s32(a) * b / 2^32))`: the first operand is signed, the second unsigned (R206). -/
def mulUpperSUW (a b : Word) : Word := u32 (s32 a * b.toNat / 2 ^ 32)

/-- Unsigned division; by zero it is 0xFFFFFFFF (R207, R216). -/
def divUW (a b : Word) : Word := if b = 0#32 then 0xFFFFFFFF#32 else BitVec.ofNat 32 (a.toNat / b.toNat)

/-- Signed division, rounded toward zero; by zero it is -1, and `MIN / -1` is MIN (R208, R216). -/
def divSW (a b : Word) : Word :=
  if s32 b = 0 then 0xFFFFFFFF#32
  else if s32 a = -2 ^ 31 ∧ s32 b = -1 then 0x80000000#32
  else u32 ((s32 a).tdiv (s32 b))

/-- Unsigned remainder; by zero it is the dividend (R209, R216). -/
def remUW (a b : Word) : Word := if b = 0#32 then a else BitVec.ofNat 32 (a.toNat % b.toNat)

/-- Signed remainder, with the sign of the dividend; by zero it is the dividend, and `MIN rem -1` is 0 (R210, R216). -/
def remSW (a b : Word) : Word :=
  if s32 b = 0 then a
  else if s32 a = -2 ^ 31 ∧ s32 b = -1 then 0#32
  else u32 ((s32 a).sign * ((s32 a).natAbs % (s32 b).natAbs : Nat))

/-- `u32(immX - x[firstReg])` (R215). -/
def negAddW (a b : Word) : Word := b - a

/-- `add` (R201): `x[thirdReg] <- u32(x[secondReg] + x[firstReg])`. -/
def execAdd (firstReg secondReg thirdReg : Reg) (s : State) : Result :=
  threeRegsOp addW firstReg secondReg thirdReg s

/-- `sub` (R202): `x[thirdReg] <- u32(x[secondReg] - x[firstReg])`. -/
def execSub (firstReg secondReg thirdReg : Reg) (s : State) : Result :=
  threeRegsOp subW firstReg secondReg thirdReg s

/-- `mul` (R203): `x[thirdReg] <- u32(x[secondReg] * x[firstReg])`. -/
def execMul (firstReg secondReg thirdReg : Reg) (s : State) : Result :=
  threeRegsOp mulW firstReg secondReg thirdReg s

/-- `mul_upper_s_s` (R204): the high 32 bits of the signed product. -/
def execMulUpperSS (firstReg secondReg thirdReg : Reg) (s : State) : Result :=
  threeRegsOp mulUpperSSW firstReg secondReg thirdReg s

/-- `mul_upper_u_u` (R205): the high 32 bits of the unsigned product. -/
def execMulUpperUU (firstReg secondReg thirdReg : Reg) (s : State) : Result :=
  threeRegsOp mulUpperUUW firstReg secondReg thirdReg s

/-- `mul_upper_s_u` (R206): the high 32 bits of signed `x[secondReg]` times unsigned `x[firstReg]`. -/
def execMulUpperSU (firstReg secondReg thirdReg : Reg) (s : State) : Result :=
  threeRegsOp mulUpperSUW firstReg secondReg thirdReg s

/-- `div_u` (R207): `x[secondReg]` divided by `x[firstReg]`, unsigned. -/
def execDivU (firstReg secondReg thirdReg : Reg) (s : State) : Result :=
  threeRegsOp divUW firstReg secondReg thirdReg s

/-- `div_s` (R208): `xs[secondReg]` divided by `xs[firstReg]`. -/
def execDivS (firstReg secondReg thirdReg : Reg) (s : State) : Result :=
  threeRegsOp divSW firstReg secondReg thirdReg s

/-- `rem_u` (R209): the remainder of `x[secondReg]` by `x[firstReg]`, unsigned. -/
def execRemU (firstReg secondReg thirdReg : Reg) (s : State) : Result :=
  threeRegsOp remUW firstReg secondReg thirdReg s

/-- `rem_s` (R210): the remainder of `xs[secondReg]` by `xs[firstReg]`. -/
def execRemS (firstReg secondReg thirdReg : Reg) (s : State) : Result :=
  threeRegsOp remSW firstReg secondReg thirdReg s

/-- `add_imm` (R211): `x[secondReg] <- u32(x[firstReg] + immX)`. -/
def execAddImm (firstReg secondReg : Reg) (immX : Imm) (s : State) : Result :=
  twoRegs1ImmOp addW firstReg secondReg immX s

/-- `mul_imm` (R212): `x[secondReg] <- u32(x[firstReg] * immX)`. -/
def execMulImm (firstReg secondReg : Reg) (immX : Imm) (s : State) : Result :=
  twoRegs1ImmOp mulW firstReg secondReg immX s

/-- `mul_upper_s_s_imm` (R213): the high 32 bits of `xs[firstReg] * s32(immX)`. -/
def execMulUpperSSImm (firstReg secondReg : Reg) (immX : Imm) (s : State) : Result :=
  twoRegs1ImmOp mulUpperSSW firstReg secondReg immX s

/-- `mul_upper_u_u_imm` (R214): the high 32 bits of `x[firstReg] * immX`. -/
def execMulUpperUUImm (firstReg secondReg : Reg) (immX : Imm) (s : State) : Result :=
  twoRegs1ImmOp mulUpperUUW firstReg secondReg immX s

/-- `neg_add_imm` (R215): `x[secondReg] <- u32(immX - x[firstReg])`. -/
def execNegAddImm (firstReg secondReg : Reg) (immX : Imm) (s : State) : Result :=
  twoRegs1ImmOp negAddW firstReg secondReg immX s

end Sys2Proof.Machine
end

