-- ==== Sys2Proof/Machine/Move.lean ====
section
/-! DEFINITION. The move operations (spec/45_move.md R310 to R315). -/

namespace Sys2Proof.Machine

/-- `move_reg` (R311): `x[secondReg] <- x[firstReg]`. -/
def execMoveReg (firstReg secondReg : Reg) (s : State) : Result :=
  twoRegsMove firstReg secondReg s

/-- `cmov_iz` (R312): `if x[firstReg] = 0 then x[thirdReg] <- x[secondReg]`. -/
def execCmovIz (firstReg secondReg thirdReg : Reg) (s : State) : Result :=
  threeRegsMoveIf (fun c => condEq c 0#32) firstReg secondReg thirdReg s

/-- `cmov_nz` (R313): `if x[firstReg] != 0 then x[thirdReg] <- x[secondReg]`. -/
def execCmovNz (firstReg secondReg thirdReg : Reg) (s : State) : Result :=
  threeRegsMoveIf (fun c => condNe c 0#32) firstReg secondReg thirdReg s

/-- `cmov_iz_imm` (R314): `if x[firstReg] = 0 then x[secondReg] <- immX`. -/
def execCmovIzImm (firstReg secondReg : Reg) (immX : Imm) (s : State) : Result :=
  twoRegs1ImmMoveIf (fun c => condEq c 0#32) firstReg secondReg immX s

/-- `cmov_nz_imm` (R315): `if x[firstReg] != 0 then x[secondReg] <- immX`. -/
def execCmovNzImm (firstReg secondReg : Reg) (immX : Imm) (s : State) : Result :=
  twoRegs1ImmMoveIf (fun c => condNe c 0#32) firstReg secondReg immX s

end Sys2Proof.Machine
end

