-- ==== Sys2Proof/Machine/Shift.lean ====
section
/-! DEFINITION. The shift operations (spec/43_shift.md R260 to R269). -/

namespace Sys2Proof.Machine

/-- The shift amount, `amount mod 32` (R260). -/
def shiftAmount (amount : Word) : Nat := amount.toNat % 32

/-- Left shift, zeros in, the low 32 bits kept (R260). -/
def shloLW (v amount : Word) : Word := v <<< shiftAmount amount

/-- Logical right shift, zeros in (R260). -/
def shloRW (v amount : Word) : Word := v >>> shiftAmount amount

/-- Arithmetic right shift, `u32(floor(s32(v) / 2^sh))`, copies of bit 31 in (R260). -/
def sharRW (v amount : Word) : Word := v.sshiftRight (shiftAmount amount)

/-- `shlo_l` (R261): value `x[secondReg]`, amount `x[firstReg]`. -/
def execShloL (firstReg secondReg thirdReg : Reg) (s : State) : Result :=
  threeRegsOp shloLW firstReg secondReg thirdReg s

/-- `shlo_r` (R262): value `x[secondReg]`, amount `x[firstReg]`. -/
def execShloR (firstReg secondReg thirdReg : Reg) (s : State) : Result :=
  threeRegsOp shloRW firstReg secondReg thirdReg s

/-- `shar_r` (R263): value `x[secondReg]`, amount `x[firstReg]`. -/
def execSharR (firstReg secondReg thirdReg : Reg) (s : State) : Result :=
  threeRegsOp sharRW firstReg secondReg thirdReg s

/-- `shlo_l_imm` (R264): value `x[firstReg]`, amount `immX`. -/
def execShloLImm (firstReg secondReg : Reg) (immX : Imm) (s : State) : Result :=
  twoRegs1ImmOp shloLW firstReg secondReg immX s

/-- `shlo_r_imm` (R265): value `x[firstReg]`, amount `immX`. -/
def execShloRImm (firstReg secondReg : Reg) (immX : Imm) (s : State) : Result :=
  twoRegs1ImmOp shloRW firstReg secondReg immX s

/-- `shar_r_imm` (R266): value `x[firstReg]`, amount `immX`. -/
def execSharRImm (firstReg secondReg : Reg) (immX : Imm) (s : State) : Result :=
  twoRegs1ImmOp sharRW firstReg secondReg immX s

/-- `shlo_l_imm_alt` (R267): value `immX`, amount `x[firstReg]`. -/
def execShloLImmAlt (firstReg secondReg : Reg) (immX : Imm) (s : State) : Result :=
  twoRegs1ImmOp (fun amount v => shloLW v amount) firstReg secondReg immX s

/-- `shlo_r_imm_alt` (R268): value `immX`, amount `x[firstReg]`. -/
def execShloRImmAlt (firstReg secondReg : Reg) (immX : Imm) (s : State) : Result :=
  twoRegs1ImmOp (fun amount v => shloRW v amount) firstReg secondReg immX s

/-- `shar_r_imm_alt` (R269): value `immX`, amount `x[firstReg]`. -/
def execSharRImmAlt (firstReg secondReg : Reg) (immX : Imm) (s : State) : Result :=
  twoRegs1ImmOp (fun amount v => sharRW v amount) firstReg secondReg immX s

end Sys2Proof.Machine
end

