-- ==== Sys2Proof/Machine/System.lean ====
section
/-! DEFINITION. The system operations (spec/48_system.md R410 to R415). -/

namespace Sys2Proof.Machine

/-- `trap` (R411): `status <- Trapped`; the pc is not advanced (spec/40_dispatch.md R176). -/
def execTrap (s : State) : Result :=
  .next (s.withStatus .trapped)

/-- `ecalli` (R412): `hostCall <- immX; status <- Host`, and the pc advances past it. -/
def execEcalli (immX : Imm) (s : State) : Result :=
  .next (((s.setHostCall immX.val).withStatus .host).advance (Args.oneImm immX).skip .seq)

/-- `fallthrough` (R413): nothing but the pc advance. -/
def execFallthrough (s : State) : Result :=
  .next (s.advance Args.noArgs.skip .seq)

/-- `sbrk` (R414): refused by rule: the source has no heap and no allocation rule. -/
def execSbrk (_firstReg _secondReg : Reg) (_s : State) : Result :=
  refuseOp

end Sys2Proof.Machine
end

