-- ==== Sys2Proof/Machine/Dispatch.lean ====
section
/-! DEFINITION. The execution of one instruction: one arm per mnemonic and no wildcard, the form spec/40_dispatch.md R177 asks for.
`exec` is the dispatch and the pc advance of R171; the gas charge before it and the fault record after it are in Machine/Cycle.lean. -/

namespace Sys2Proof.Machine

def exec (i : Instr) (s : State) : Host.Outcome State Fault Refusal :=
  match i with
  | .trap => Sys2Proof.Machine.execTrap s
  | .loadIndU32 firstReg secondReg immX => Sys2Proof.Machine.execLoadIndU32 firstReg secondReg immX s
  | .addImm firstReg secondReg immX => Sys2Proof.Machine.execAddImm firstReg secondReg immX s
  | .storeIndU32 firstReg secondReg immX => Sys2Proof.Machine.execStoreIndU32 firstReg secondReg immX s
  | .loadImm reg immX => Sys2Proof.Machine.execLoadImm reg immX s
  | .jump offset => Sys2Proof.Machine.execJump offset s
  | .loadImmJump reg immX offset => Sys2Proof.Machine.execLoadImmJump reg immX offset s
  | .branchEqImm reg immX offset => Sys2Proof.Machine.execBranchEqImm reg immX offset s
  | .add firstReg secondReg thirdReg => Sys2Proof.Machine.execAdd firstReg secondReg thirdReg s
  | .shloLImm firstReg secondReg immX => Sys2Proof.Machine.execShloLImm firstReg secondReg immX s
  | .loadU32 reg immX => Sys2Proof.Machine.execLoadU32 reg immX s
  | .loadIndU8 firstReg secondReg immX => Sys2Proof.Machine.execLoadIndU8 firstReg secondReg immX s
  | .or firstReg secondReg thirdReg => Sys2Proof.Machine.execOr firstReg secondReg thirdReg s
  | .storeImmIndU32 reg immX immY => Sys2Proof.Machine.execStoreImmIndU32 reg immX immY s
  | .shloRImm firstReg secondReg immX => Sys2Proof.Machine.execShloRImm firstReg secondReg immX s
  | .branchNeImm reg immX offset => Sys2Proof.Machine.execBranchNeImm reg immX offset s
  | .storeIndU8 firstReg secondReg immX => Sys2Proof.Machine.execStoreIndU8 firstReg secondReg immX s
  | .fallthrough => Sys2Proof.Machine.execFallthrough s
  | .andImm firstReg secondReg immX => Sys2Proof.Machine.execAndImm firstReg secondReg immX s
  | .jumpInd reg immX => Sys2Proof.Machine.execJumpInd reg immX s
  | .sub firstReg secondReg thirdReg => Sys2Proof.Machine.execSub firstReg secondReg thirdReg s
  | .loadIndI8 firstReg secondReg immX => Sys2Proof.Machine.execLoadIndI8 firstReg secondReg immX s
  | .storeU32 reg immX => Sys2Proof.Machine.execStoreU32 reg immX s
  | .and firstReg secondReg thirdReg => Sys2Proof.Machine.execAnd firstReg secondReg thirdReg s
  | .branchEq firstReg secondReg offset => Sys2Proof.Machine.execBranchEq firstReg secondReg offset s
  | .sharRImm firstReg secondReg immX => Sys2Proof.Machine.execSharRImm firstReg secondReg immX s
  | .storeImmIndU8 reg immX immY => Sys2Proof.Machine.execStoreImmIndU8 reg immX immY s
  | .setLtUImm firstReg secondReg immX => Sys2Proof.Machine.execSetLtUImm firstReg secondReg immX s
  | .xor firstReg secondReg thirdReg => Sys2Proof.Machine.execXor firstReg secondReg thirdReg s
  | .storeIndU16 firstReg secondReg immX => Sys2Proof.Machine.execStoreIndU16 firstReg secondReg immX s
  | .branchNe firstReg secondReg offset => Sys2Proof.Machine.execBranchNe firstReg secondReg offset s
  | .xorImm firstReg secondReg immX => Sys2Proof.Machine.execXorImm firstReg secondReg immX s
  | .branchLtSImm reg immX offset => Sys2Proof.Machine.execBranchLtSImm reg immX offset s
  | .loadIndI16 firstReg secondReg immX => Sys2Proof.Machine.execLoadIndI16 firstReg secondReg immX s
  | .mul firstReg secondReg thirdReg => Sys2Proof.Machine.execMul firstReg secondReg thirdReg s
  | .mulImm firstReg secondReg immX => Sys2Proof.Machine.execMulImm firstReg secondReg immX s
  | .setLtU firstReg secondReg thirdReg => Sys2Proof.Machine.execSetLtU firstReg secondReg thirdReg s
  | .loadIndU16 firstReg secondReg immX => Sys2Proof.Machine.execLoadIndU16 firstReg secondReg immX s
  | .storeImmU32 immX immY => Sys2Proof.Machine.execStoreImmU32 immX immY s
  | .setGtUImm firstReg secondReg immX => Sys2Proof.Machine.execSetGtUImm firstReg secondReg immX s
  | .negAddImm firstReg secondReg immX => Sys2Proof.Machine.execNegAddImm firstReg secondReg immX s
  | .branchGeU firstReg secondReg offset => Sys2Proof.Machine.execBranchGeU firstReg secondReg offset s
  | .loadImmJumpInd firstReg secondReg immX immY => Sys2Proof.Machine.execLoadImmJumpInd firstReg secondReg immX immY s
  | .branchGeS firstReg secondReg offset => Sys2Proof.Machine.execBranchGeS firstReg secondReg offset s
  | .branchLtUImm reg immX offset => Sys2Proof.Machine.execBranchLtUImm reg immX offset s
  | .branchGeSImm reg immX offset => Sys2Proof.Machine.execBranchGeSImm reg immX offset s
  | .branchLeSImm reg immX offset => Sys2Proof.Machine.execBranchLeSImm reg immX offset s
  | .branchLtU firstReg secondReg offset => Sys2Proof.Machine.execBranchLtU firstReg secondReg offset s
  | .branchLtS firstReg secondReg offset => Sys2Proof.Machine.execBranchLtS firstReg secondReg offset s
  | .orImm firstReg secondReg immX => Sys2Proof.Machine.execOrImm firstReg secondReg immX s
  | .branchGtUImm reg immX offset => Sys2Proof.Machine.execBranchGtUImm reg immX offset s
  | .shloR firstReg secondReg thirdReg => Sys2Proof.Machine.execShloR firstReg secondReg thirdReg s
  | .branchGeUImm reg immX offset => Sys2Proof.Machine.execBranchGeUImm reg immX offset s
  | .branchGtSImm reg immX offset => Sys2Proof.Machine.execBranchGtSImm reg immX offset s
  | .storeImmIndU16 reg immX immY => Sys2Proof.Machine.execStoreImmIndU16 reg immX immY s
  | .shloL firstReg secondReg thirdReg => Sys2Proof.Machine.execShloL firstReg secondReg thirdReg s
  | .setLtSImm firstReg secondReg immX => Sys2Proof.Machine.execSetLtSImm firstReg secondReg immX s
  | .mulUpperUU firstReg secondReg thirdReg => Sys2Proof.Machine.execMulUpperUU firstReg secondReg thirdReg s
  | .setLtS firstReg secondReg thirdReg => Sys2Proof.Machine.execSetLtS firstReg secondReg thirdReg s
  | .branchLeUImm reg immX offset => Sys2Proof.Machine.execBranchLeUImm reg immX offset s
  | .loadU8 reg immX => Sys2Proof.Machine.execLoadU8 reg immX s
  | .setGtSImm firstReg secondReg immX => Sys2Proof.Machine.execSetGtSImm firstReg secondReg immX s
  | .storeImmU8 immX immY => Sys2Proof.Machine.execStoreImmU8 immX immY s
  | .mulUpperUUImm firstReg secondReg immX => Sys2Proof.Machine.execMulUpperUUImm firstReg secondReg immX s
  | .divS firstReg secondReg thirdReg => Sys2Proof.Machine.execDivS firstReg secondReg thirdReg s
  | .mulUpperSSImm firstReg secondReg immX => Sys2Proof.Machine.execMulUpperSSImm firstReg secondReg immX s
  | .loadI16 reg immX => Sys2Proof.Machine.execLoadI16 reg immX s
  | .mulUpperSS firstReg secondReg thirdReg => Sys2Proof.Machine.execMulUpperSS firstReg secondReg thirdReg s
  | .divU firstReg secondReg thirdReg => Sys2Proof.Machine.execDivU firstReg secondReg thirdReg s
  | .storeU16 reg immX => Sys2Proof.Machine.execStoreU16 reg immX s
  | .remS firstReg secondReg thirdReg => Sys2Proof.Machine.execRemS firstReg secondReg thirdReg s
  | .storeU8 reg immX => Sys2Proof.Machine.execStoreU8 reg immX s
  | .shloRImmAlt firstReg secondReg immX => Sys2Proof.Machine.execShloRImmAlt firstReg secondReg immX s
  | .remU firstReg secondReg thirdReg => Sys2Proof.Machine.execRemU firstReg secondReg thirdReg s
  | .loadI8 reg immX => Sys2Proof.Machine.execLoadI8 reg immX s
  | .shloLImmAlt firstReg secondReg immX => Sys2Proof.Machine.execShloLImmAlt firstReg secondReg immX s
  | .loadU16 reg immX => Sys2Proof.Machine.execLoadU16 reg immX s
  | .sharR firstReg secondReg thirdReg => Sys2Proof.Machine.execSharR firstReg secondReg thirdReg s
  | .ecalli immX => Sys2Proof.Machine.execEcalli immX s
  | .storeImmU16 immX immY => Sys2Proof.Machine.execStoreImmU16 immX immY s
  | .sharRImmAlt firstReg secondReg immX => Sys2Proof.Machine.execSharRImmAlt firstReg secondReg immX s
  | .mulUpperSU firstReg secondReg thirdReg => Sys2Proof.Machine.execMulUpperSU firstReg secondReg thirdReg s
  | .moveReg firstReg secondReg => Sys2Proof.Machine.execMoveReg firstReg secondReg s
  | .cmovIz firstReg secondReg thirdReg => Sys2Proof.Machine.execCmovIz firstReg secondReg thirdReg s
  | .cmovNz firstReg secondReg thirdReg => Sys2Proof.Machine.execCmovNz firstReg secondReg thirdReg s
  | .cmovIzImm firstReg secondReg immX => Sys2Proof.Machine.execCmovIzImm firstReg secondReg immX s
  | .cmovNzImm firstReg secondReg immX => Sys2Proof.Machine.execCmovNzImm firstReg secondReg immX s
  | .sbrk firstReg secondReg => Sys2Proof.Machine.execSbrk firstReg secondReg s

end Sys2Proof.Machine
end

