-- ==== Sys2Proof/Machine/Cycle.lean ====
section
/-! DEFINITION. The execution cycle of spec/40_dispatch.md: when a step exists (R170), and its phases in order (R171 to R176). -/

namespace Sys2Proof.Machine

/-- Why a state has no step: a recorded model fault, or a status that is not Running (R170). -/
def noStep (s : State) : Option Fault :=
  match s.fault with
  | some r => some (.faultRecorded r)
  | none =>
    match s.status with
    | .running => none
    | .trapped => some (.notRunning .trapped)
    | .outOfGas => some (.notRunning .outOfGas)
    | .host => some (.notRunning .host)

/-- `GAS_COST(op)` (R173, spec/00_scope.md R17). -/
def gasCostOf (cfg : Config) (op : Byte) : Nat := cfg.gasCost[op.toNat]

/-- The decode phase: the instruction at the pc, and the opcode byte there (R171: `d <- decode(code, mask, pc)`, `op <- code[pc]`). -/
def fetchDecode (s : State) : Decoded (Byte × Instr) :=
  (decode s.config s.program s.pc.toNat).bind fun i =>
  (codeByte s.program s.pc.toNat).bind fun op => .ok (op, i)

/-- The charge for the decoded opcode (R173; log entry 19). -/
def chargeGas (op : Byte) (s : State) : State := s.spendGas (gasCostOf s.config op)

/-- The gas is negative and the policy ends the run (R173, R433). -/
def outOfGas (s : State) : Bool := decide (s.gas < 0) && decide (s.config.gasPolicy = .halt)

/-- The end of the execute phase: a model fault is recorded in the state before the step, so that the whole step, the gas charge
included, is undone; any other answer stands (R171, R174, spec/60_exceptions.md R436). A refusal by rule is recorded with the decoded
opcode (R437). -/
def settle (before : State) (op : Byte) (r : Result) : Result :=
  match r with
  | .next t => .next t
  | .fault (.model reason) => .next (before.recordFault reason)
  | .fault .refusedByRule => .next (before.recordFault (.refused op))
  | .fault (.notRunning st) => .fault (.notRunning st)
  | .fault (.faultRecorded reason) => .fault (.faultRecorded reason)
  | .refused why => .refused why

/-- The phases after a successful decode: charge gas, end in OutOfGas or dispatch and advance the pc (R171, R173 to R176). -/
def runInstr (op : Byte) (i : Instr) (s : State) : Result :=
  if outOfGas (chargeGas op s) then .next ((chargeGas op s).withStatus .outOfGas) else settle s op (exec i (chargeGas op s))

/-- One step (R171): decode; a DecodeError ends in Trapped with no gas charged, a model fault of the decoder is recorded (R172). -/
def cycle (s : State) : Result :=
  match noStep s with
  | some why => .fault why
  | none =>
    match fetchDecode s with
    | .ok d => runInstr d.1 d.2 s
    | .decodeError => .next (s.withStatus .trapped)
    | .modelFault r => .next (s.recordFault r)

end Sys2Proof.Machine
end

