-- ==== Sys2Proof/Machine/Step.lean ====
section
/-! DEFINITION. The step of the machine, and how one instruction is placed where the step fetches. -/

namespace Sys2Proof.Machine

/-- One step of the core (spec/40_dispatch.md R170, R171). -/
def step (s : State) : Host.Outcome State Fault Refusal := cycle s

/-- The state with the instruction whose bits are w placed at the pc of its program (log entry 1): the program's bytes and mask
bits there, and nothing else. -/
def State.withFetchWord (s : State) (nbits w : Nat) : State :=
  { s with program := s.program.withInstrAt s.pc.toNat (fetchBytes nbits w) }

end Sys2Proof.Machine
end

