-- ==== Sys2Proof/Machine/HostInterface.lean ====
section
/-! DEFINITION. What the core offers its surroundings besides step and reset: loading a program (spec/30_encoding.md R100), the
report of a step (spec/40_dispatch.md R178), and the disassembler (spec/30_encoding.md R145). The resume of a host call is
`State.resume` in Machine/Ops.lean. -/

namespace Sys2Proof.Machine

/-- `MalformedProgram` (spec/60_exceptions.md R435): the load fails, and no core state is built. -/
inductive LoadError where
  | malformedProgram
deriving DecidableEq, Repr

/-- A `(code, mask)` pair as a program, or MalformedProgram when the mask does not cover the code (R100, R435). -/
def loadProgram (code mask : List Byte) : Except LoadError Program :=
  if Program.covered ⟨code, mask⟩ then .ok ⟨code, mask⟩ else .error .malformedProgram

/-- The program decoder: the blob is split as `PROGRAM_FORMAT` says, which the spec leaves OPEN (R100; log entry 12). -/
def loadBlob (raw : List Byte) : Except LoadError Program :=
  match Config.programFormat raw with
  | some (code, mask) => loadProgram code mask
  | none => .error .malformedProgram

/-- The boot sequence (spec/70_reset_and_hazards.md R474): load, then reset. -/
def boot (raw : List Byte) (init : InitialState) (config : Config) (hostCall : Word) : Except LoadError State :=
  match loadBlob raw with
  | .ok p => .ok (State.resetWith p init config hostCall)
  | .error e => .error e

/-- What the step interface returns (R178): pc, registers, gas and status, and the model's fault record beside them. -/
structure StepReport where
  pc : Word
  registers : Vector Word 13
  gas : Int
  status : Status
  fault : Option ModelFault
deriving DecidableEq, Repr

/-- The report of a state (R178). -/
def State.report (s : State) : StepReport := ⟨s.pc, s.regs, s.gas, s.status, s.fault⟩

/-- A record of the disassembler (R145): address, mnemonic, decoded arguments and the instruction's own bytes. -/
structure DisasmRecord where
  address : Nat
  name : String
  args : Args
  bytes : List Byte
deriving DecidableEq, Repr

/-- The record of an instruction decoded at pc (R145). Its name is `OPCODE_MAP(code[pc]).mnemonic`, which is the mnemonic of the
decoded instruction. -/
def disasmRecord (p : Program) (pc : Nat) (i : Instr) : DisasmRecord :=
  ⟨pc, i.mnemonic.text, i.args, (p.code.drop pc).take i.skip⟩

/-- The disassembler's loop from pc on: it stops at the end of the code or at the first decode failure, and reports a model fault
beside the list (R145). The fuel is the code's length, which bounds the loop because every skip is at least 1. -/
def disasmFrom (cfg : Config) (p : Program) : Nat → Nat → List DisasmRecord × Option ModelFault
  | 0, _ => ([], none)
  | fuel + 1, pc =>
    if pc < p.code.length then
      match decode cfg p pc with
      | .ok i =>
        let rest := disasmFrom cfg p fuel (pc + i.skip)
        (disasmRecord p pc i :: rest.1, rest.2)
      | .decodeError => ([], none)
      | .modelFault r => ([], some r)
    else ([], none)

/-- `disassemble(code, mask)` (R145). -/
def disassemble (cfg : Config) (p : Program) : List DisasmRecord × Option ModelFault := disasmFrom cfg p p.code.length 0

end Sys2Proof.Machine
end

