-- ==== Sys2Proof/Safety.lean ====
section
/-! DEFINITION. The terms the statements use: what an instruction leaves unchanged, the effects of the instruction forms, which
bytes a load or a store reaches, where an instruction stands in a program, and what a good state is. -/

namespace Sys2Proof.Machine

/-! ### Frames -/

/-- Status, gas, host-call register, fault record, program and configuration are as before. -/
structure SameControl (s t : State) : Prop where
  status : t.status = s.status
  gas : t.gas = s.gas
  hostCall : t.hostCall = s.hostCall
  fault : t.fault = s.fault
  program : t.program = s.program
  config : t.config = s.config

/-- Every register reads as before. -/
def SameRegs (s t : State) : Prop := ∀ r : Reg, t.reg r = s.reg r

/-- Every byte of the data space reads as before. -/
def SameBytes (s t : State) : Prop := ∀ a : Word, t.byteAt a = s.byteAt a

/-- The whole effect is `x[d] <- v` and the pc: every other register, every byte and all control state are as before. -/
structure WritesReg (s t : State) (d : Reg) (v pc : Word) : Prop where
  value : t.reg d = v
  others : ∀ r : Reg, r ≠ d → t.reg r = s.reg r
  pc : t.pc = pc
  bytes : SameBytes s t
  control : SameControl s t

/-- The whole effect is the pc. -/
structure MovesPc (s t : State) (pc : Word) : Prop where
  regs : SameRegs s t
  pc : t.pc = pc
  bytes : SameBytes s t
  control : SameControl s t

/-- The whole effect is the n bytes of v, low byte first, at `u32(a + k)`, and the pc. -/
structure StoresBytes (s t : State) (a : Word) (n : Nat) (v pc : Word) : Prop where
  stored : ∀ k < n, t.byteAt (a + BitVec.ofNat 32 k) = some (BitVec.ofNat 8 (v.toNat / 256 ^ k))
  others : ∀ x : Word, (∀ k < n, x ≠ a + BitVec.ofNat 32 k) → t.byteAt x = s.byteAt x
  regs : SameRegs s t
  pc : t.pc = pc
  control : SameControl s t

/-! ### Memory accesses -/

/-- Each of the n bytes from a on may be read, and byte k holds `b k`. -/
def Readable (s : State) (a : Word) (n : Nat) (b : Nat → Byte) : Prop :=
  ∀ k < n, s.accessOf (a + BitVec.ofNat 32 k) ≠ .noAccess ∧ s.byteAt (a + BitVec.ofNat 32 k) = some (b k)

/-- Each of the n bytes from a on may be written. -/
def Writable (s : State) (a : Word) (n : Nat) : Prop := ∀ k < n, s.accessOf (a + BitVec.ofNat 32 k) = .write

/-- The address and the width of a load (spec/47_load_store.md R372 to R376, R389 to R393); none for another instruction. -/
def loadAccess (i : Instr) (s : State) : Option (Word × Nat) :=
  match i with
  | .loadU8 _ x | .loadI8 _ x => some (effAddr absBase x, 1)
  | .loadU16 _ x | .loadI16 _ x => some (effAddr absBase x, 2)
  | .loadU32 _ x => some (effAddr absBase x, 4)
  | .loadIndU8 r _ x | .loadIndI8 r _ x => some (effAddr (s.reg r) x, 1)
  | .loadIndU16 r _ x | .loadIndI16 r _ x => some (effAddr (s.reg r) x, 2)
  | .loadIndU32 r _ x => some (effAddr (s.reg r) x, 4)
  | _ => none

/-- The address, the width and the value of a store (spec/47_load_store.md R377 to R388); none for another instruction. -/
def storeAccess (i : Instr) (s : State) : Option (Word × Nat × Word) :=
  match i with
  | .storeU8 r x => some (effAddr absBase x, 1, s.reg r)
  | .storeU16 r x => some (effAddr absBase x, 2, s.reg r)
  | .storeU32 r x => some (effAddr absBase x, 4, s.reg r)
  | .storeImmU8 x y => some (effAddr absBase x, 1, y.val)
  | .storeImmU16 x y => some (effAddr absBase x, 2, y.val)
  | .storeImmU32 x y => some (effAddr absBase x, 4, y.val)
  | .storeImmIndU8 r x y => some (effAddr (s.reg r) x, 1, y.val)
  | .storeImmIndU16 r x y => some (effAddr (s.reg r) x, 2, y.val)
  | .storeImmIndU32 r x y => some (effAddr (s.reg r) x, 4, y.val)
  | .storeIndU8 r q x => some (effAddr (s.reg r) x, 1, s.reg q)
  | .storeIndU16 r q x => some (effAddr (s.reg r) x, 2, s.reg q)
  | .storeIndU32 r q x => some (effAddr (s.reg r) x, 4, s.reg q)
  | _ => none

/-! ### Instruction forms

Each form says that the default `OPCODE_MAP` gives the opcode byte the mnemonic of the instruction (spec/30_encoding.md R150), and
what the instruction does. The second part holds under every map, since execution is by mnemonic. -/

/-- An instruction of shape ThreeRegs with this opcode always completes, with `x[thirdReg] <- f x[secondReg] x[firstReg]`. -/
def RunsThreeRegs (mk : Reg → Reg → Reg → Instr) (op : Byte) (f : Word → Word → Word) : Prop :=
  ∀ (s : State) (firstReg secondReg thirdReg : Reg),
    OpcodeMap.standard.lookup op = some (mk firstReg secondReg thirdReg).mnemonic ∧
    ∃ t, exec (mk firstReg secondReg thirdReg) s = .next t ∧
      WritesReg s t thirdReg (f (s.reg secondReg) (s.reg firstReg)) (s.pc + 3#32)

/-- An instruction of shape TwoRegs1Imm with this opcode always completes, with `x[secondReg] <- f x[firstReg] immX`. -/
def RunsTwoRegs1Imm (mk : Reg → Reg → Imm → Instr) (op : Byte) (f : Word → Word → Word) : Prop :=
  ∀ (s : State) (firstReg secondReg : Reg) (immX : Imm),
    OpcodeMap.standard.lookup op = some (mk firstReg secondReg immX).mnemonic ∧
    ∃ t, exec (mk firstReg secondReg immX) s = .next t ∧
      WritesReg s t secondReg (f (s.reg firstReg) immX.val) (s.pc + BitVec.ofNat 32 (2 + immX.len))

/-- A OneReg1Imm1Offset branch with this opcode always completes: to `u32(pc + offset)` when the condition holds of `x[reg]` and
`immX`, to the next instruction otherwise. -/
def RunsBranchImm (mk : Reg → Imm → Imm → Instr) (op : Byte) (cond : Word → Word → Prop) : Prop :=
  ∀ (s : State) (reg : Reg) (immX offset : Imm),
    OpcodeMap.standard.lookup op = some (mk reg immX offset).mnemonic ∧
    ∃ t, exec (mk reg immX offset) s = .next t ∧
      (cond (s.reg reg) immX.val → MovesPc s t (s.pc + offset.val)) ∧
      (¬ cond (s.reg reg) immX.val → MovesPc s t (s.pc + BitVec.ofNat 32 (2 + immX.len + offset.len)))

/-- A TwoRegs1Offset branch with this opcode always completes: to `u32(pc + offset)` when the condition holds of `x[secondReg]` and
`x[firstReg]`, to the next instruction otherwise. -/
def RunsBranchReg (mk : Reg → Reg → Imm → Instr) (op : Byte) (cond : Word → Word → Prop) : Prop :=
  ∀ (s : State) (firstReg secondReg : Reg) (offset : Imm),
    OpcodeMap.standard.lookup op = some (mk firstReg secondReg offset).mnemonic ∧
    ∃ t, exec (mk firstReg secondReg offset) s = .next t ∧
      (cond (s.reg secondReg) (s.reg firstReg) → MovesPc s t (s.pc + offset.val)) ∧
      (¬ cond (s.reg secondReg) (s.reg firstReg) → MovesPc s t (s.pc + BitVec.ofNat 32 (2 + offset.len)))

/-- An absolute load with this opcode completes when its n bytes are readable, with the value of the bytes in `x[reg]`. -/
def RunsLoadAbs (mk : Reg → Imm → Instr) (op : Byte) (n : Nat) (value : (Nat → Byte) → Word) : Prop :=
  ∀ (s : State) (reg : Reg) (immX : Imm) (b : Nat → Byte),
    OpcodeMap.standard.lookup op = some (mk reg immX).mnemonic ∧
    (Readable s (effAddr absBase immX) n b →
      ∃ t, exec (mk reg immX) s = .next t ∧ WritesReg s t reg (value b) (s.pc + BitVec.ofNat 32 (2 + immX.len)))

/-- An indirect load with this opcode completes when its n bytes are readable, with the value of the bytes in `x[secondReg]`. -/
def RunsLoadInd (mk : Reg → Reg → Imm → Instr) (op : Byte) (n : Nat) (value : (Nat → Byte) → Word) : Prop :=
  ∀ (s : State) (firstReg secondReg : Reg) (immX : Imm) (b : Nat → Byte),
    OpcodeMap.standard.lookup op = some (mk firstReg secondReg immX).mnemonic ∧
    (Readable s (effAddr (s.reg firstReg) immX) n b →
      ∃ t, exec (mk firstReg secondReg immX) s = .next t ∧
        WritesReg s t secondReg (value b) (s.pc + BitVec.ofNat 32 (2 + immX.len)))

/-- An absolute store with this opcode completes when its n bytes are writable, storing the low n bytes of `x[reg]`. -/
def RunsStoreAbs (mk : Reg → Imm → Instr) (op : Byte) (n : Nat) : Prop :=
  ∀ (s : State) (reg : Reg) (immX : Imm),
    OpcodeMap.standard.lookup op = some (mk reg immX).mnemonic ∧
    (Writable s (effAddr absBase immX) n →
      ∃ t, exec (mk reg immX) s = .next t ∧
        StoresBytes s t (effAddr absBase immX) n (s.reg reg) (s.pc + BitVec.ofNat 32 (2 + immX.len)))

/-- An immediate store with this opcode completes when its n bytes are writable, storing the low n bytes of `immY`. -/
def RunsStoreImmAbs (mk : Imm → Imm → Instr) (op : Byte) (n : Nat) : Prop :=
  ∀ (s : State) (immX immY : Imm),
    OpcodeMap.standard.lookup op = some (mk immX immY).mnemonic ∧
    (Writable s (effAddr absBase immX) n →
      ∃ t, exec (mk immX immY) s = .next t ∧
        StoresBytes s t (effAddr absBase immX) n immY.val (s.pc + BitVec.ofNat 32 (2 + immX.len + immY.len)))

/-- An indirect immediate store with this opcode completes when its n bytes are writable, storing the low n bytes of `immY`. -/
def RunsStoreImmInd (mk : Reg → Imm → Imm → Instr) (op : Byte) (n : Nat) : Prop :=
  ∀ (s : State) (reg : Reg) (immX immY : Imm),
    OpcodeMap.standard.lookup op = some (mk reg immX immY).mnemonic ∧
    (Writable s (effAddr (s.reg reg) immX) n →
      ∃ t, exec (mk reg immX immY) s = .next t ∧
        StoresBytes s t (effAddr (s.reg reg) immX) n immY.val (s.pc + BitVec.ofNat 32 (2 + immX.len + immY.len)))

/-- An indirect register store with this opcode completes when its n bytes are writable, storing the low n bytes of
`x[secondReg]`. -/
def RunsStoreInd (mk : Reg → Reg → Imm → Instr) (op : Byte) (n : Nat) : Prop :=
  ∀ (s : State) (firstReg secondReg : Reg) (immX : Imm),
    OpcodeMap.standard.lookup op = some (mk firstReg secondReg immX).mnemonic ∧
    (Writable s (effAddr (s.reg firstReg) immX) n →
      ∃ t, exec (mk firstReg secondReg immX) s = .next t ∧
        StoresBytes s t (effAddr (s.reg firstReg) immX) n (s.reg secondReg) (s.pc + BitVec.ofNat 32 (2 + immX.len)))

/-! ### Programs -/

/-- The byte length that the length nibble of an encoding gives; 0 for a shape with none (spec/30_encoding.md R108). -/
def nibbleLen : Args → Nat
  | .twoImm immX _ => immX.len
  | .oneReg2Imm _ immX _ => immX.len
  | .oneReg1Imm1Offset _ immX _ => immX.len
  | .twoRegs2Imm _ _ immX _ => immX.len
  | .noArgs | .oneImm _ | .oneOffset _ | .oneReg1Imm _ _ | .twoRegs _ _ | .twoRegs1Imm _ _ _ | .twoRegs1Offset _ _ _
  | .threeRegs _ _ _ => 0

/-- The encoding stands in the code at pc, and the mask marks an instruction start at pc, at the byte after the encoding, and at no
byte between: the convention of the spec's examples (spec/41_math.md). -/
structure StandsAt (cfg : Config) (p : Program) (pc : Nat) (encoding : List Byte) : Prop where
  bytes : (p.code.drop pc).take encoding.length = encoding
  start : isInstruction cfg p pc = true
  inside : ∀ k, 0 < k → k < encoding.length → isInstruction cfg p (pc + k) = false
  stop : isInstruction cfg p (pc + encoding.length) = true

/-! ### Good states -/

/-- The invariant of the core: the memory has its canonical form, the mask covers the code (spec/10_state.md R42), and under
`GAS_POLICY = halt` a negative gas is found only with status OutOfGas (spec/40_dispatch.md R173). -/
structure Inv (s : State) : Prop where
  memWf : Memory.wf s.mem = true
  covered : s.program.covered = true
  gasHalt : s.config.gasPolicy = .halt → s.gas < 0 → s.status = .outOfGas

/-- The state answers a step in which no model fault is recorded. -/
def SafeStep (s : State) : Prop := ∃ t, step s = .next t ∧ t.fault = none

/-- Two states agree on everything but gas and the host-call register. -/
structure AgreeButGas (s t : State) : Prop where
  regs : t.regs = s.regs
  pc : t.pc = s.pc
  status : t.status = s.status
  mem : t.mem = s.mem
  fault : t.fault = s.fault
  program : t.program = s.program
  config : t.config = s.config

end Sys2Proof.Machine
end

