-- ==== Sys2Proof/Certificates/Slice0/Obligations.lean ====
section
/-! DEFINITION. The statements for the provers. Each docstring names the rules of spec/ it formalises; the terms are in Safety.lean.
An instruction's result is stated as a next state of `exec` together with its frame. -/

open Sys2Proof Sys2Proof.Machine

/-! ### Encoding and decoding -/

/-- Words written out from the spec's encodings decode to their instructions, one or more for each argument shape
(spec/95_test_vectors.md S9, S10, V13 to V36). The mask marks a start at 0 and at the byte after the instruction. -/
def Obligations.SpecWordsDecodeToTheirInstructions : Prop :=
  decode (Config.standard []) ⟨[0x00#8], [0x03#8]⟩ 0 = .ok .trap ∧
  decode (Config.standard []) ⟨[0x4E#8, 0x05#8], [0x05#8]⟩ 0 = .ok (.ecalli ⟨1, 5#32⟩) ∧
  decode (Config.standard []) ⟨[0x3E#8, 0x01#8, 0x10#8, 0x20#8, 0x30#8], [0x21#8]⟩ 0
    = .ok (.storeImmU8 ⟨1, 0x10#32⟩ ⟨2, 0x3020#32⟩) ∧
  decode (Config.standard []) ⟨[0x05#8, 0xFF#8, 0xFF#8, 0xFF#8, 0xFF#8], [0x21#8]⟩ 0 = .ok (.jump ⟨4, 0xFFFFFFFF#32⟩) ∧
  decode (Config.standard []) ⟨[0x04#8, 0xF3#8, 0x01#8], [0x09#8]⟩ 0 = .ok (.loadImm 3 ⟨1, 1#32⟩) ∧
  decode (Config.standard []) ⟨[0x1A#8, 0x21#8, 0x34#8, 0x12#8, 0x56#8], [0x21#8]⟩ 0
    = .ok (.storeImmIndU8 1 ⟨2, 0x1234#32⟩ ⟨1, 0x56#32⟩) ∧
  decode (Config.standard []) ⟨[0x07#8, 0x10#8, 0x05#8, 0xFA#8], [0x11#8]⟩ 0
    = .ok (.branchEqImm 0 ⟨1, 5#32⟩ ⟨1, 0xFFFFFFFA#32⟩) ∧
  decode (Config.standard []) ⟨[0x52#8, 0x12#8], [0x05#8]⟩ 0 = .ok (.moveReg 1 2) ∧
  decode (Config.standard []) ⟨[0x02#8, 0x12#8, 0xFF#8], [0xF9#8]⟩ 0 = .ok (.addImm 1 2 ⟨1, 0xFFFFFFFF#32⟩) ∧
  decode (Config.standard []) ⟨[0x18#8, 0x12#8, 0x06#8], [0x09#8]⟩ 0 = .ok (.branchEq 1 2 ⟨1, 6#32⟩) ∧
  decode (Config.standard []) ⟨[0x2A#8, 0x12#8, 0x02#8, 0x07#8, 0x00#8, 0x09#8], [0x41#8]⟩ 0
    = .ok (.loadImmJumpInd 1 2 ⟨2, 7#32⟩ ⟨1, 9#32⟩) ∧
  decode (Config.standard []) ⟨[0x08#8, 0x12#8, 0x03#8], [0xF9#8]⟩ 0 = .ok (.add 1 2 3)

/-- Decoding undoes encoding: an instruction that some encoding holds, placed in any program at any index with the mask marking its
start and its end, decodes to itself, whatever the configuration: under every opcode byte that `OPCODE_MAP` gives its mnemonic
(spec/00_scope.md R16), among them the one that `encode` picks, which exists when any does. A length nibble above 4 means its own
value only under `LEN_NIBBLE_HIGH = min8` (spec/30_encoding.md R108), so a first immediate of more than 4 bytes asks for that value.
That an entry with the mnemonic has its shape is the model's reading (log entry 11, DEDUCED). -/
def Obligations.DecodeOfEncodeIsTheInstruction : Prop :=
  ∀ (cfg : Config) (p : Program) (pc : Nat) (i : Instr),
    i.wf = true → (nibbleLen i.args ≤ 4 ∨ cfg.lenNibbleHigh = .min8) →
    (∀ op, cfg.opcodeMap.lookup op = some i.mnemonic → StandsAt cfg p pc (encodeAs op i) → decode cfg p pc = .ok i) ∧
    (∀ bytes, encode cfg.opcodeMap i = some bytes → StandsAt cfg p pc bytes → decode cfg p pc = .ok i) ∧
    ((∃ op, cfg.opcodeMap.lookup op = some i.mnemonic) → ∃ bytes, encode cfg.opcodeMap i = some bytes)

/-- What the decoder answers is an instruction that an encoding holds: its lengths and values are in range, its mnemonic is the entry
of the code byte at the pc, the mask marks a start there, and its bytes lie within the code (spec/30_encoding.md R112 to R114). -/
def Obligations.DecodedInstructionsAreWellFormed : Prop :=
  ∀ (cfg : Config) (p : Program) (pc : Nat) (i : Instr), decode cfg p pc = .ok i →
    i.wf = true ∧ isInstruction cfg p pc = true ∧ pc + i.skip ≤ p.code.length ∧
    ∃ op, p.code[pc]? = some op ∧ cfg.opcodeMap.lookup op = some i.mnemonic ∧ i.skip = (encodeAs op i).length

/-- The first checks of a decode, in order: DecodeError past the code, then NotInstructionStart at an unmarked byte
(spec/30_encoding.md R113 items 1 and 2, R131). -/
def Obligations.DecodeChecksTheIndexThenTheMask : Prop :=
  ∀ (cfg : Config) (p : Program) (pc : Nat),
    (p.code.length ≤ pc → decode cfg p pc = .decodeError) ∧
    (pc < p.code.length → isInstruction cfg p pc = false → decode cfg p pc = .modelFault (.notInstructionStart pc))

/-- An opcode byte with no entry in `OPCODE_MAP` at an instruction start is the model fault UnknownOpcode, and a byte with an entry
never is; in the default map the bytes with no entry are those from 88 on (spec/30_encoding.md R132). -/
def Obligations.OpcodeBytesFrom88AreUnknown : Prop :=
  (∀ (cfg : Config) (p : Program) (pc : Nat) (op : Byte), p.code[pc]? = some op → isInstruction cfg p pc = true →
    (cfg.opcodeMap.lookup op = none → decode cfg p pc = .modelFault (.unknownOpcode op)) ∧
    (cfg.opcodeMap.lookup op ≠ none → ∀ op', decode cfg p pc ≠ .modelFault (.unknownOpcode op'))) ∧
  ∀ op : Byte, OpcodeMap.standard.lookup op = none ↔ 88 ≤ op.toNat

/-- The register and length maps at every value, under each value of their parameters (spec/30_encoding.md R104, R108). -/
def Obligations.RegisterAndLengthMaps : Prop :=
  ∀ (cfg : Config) (n : Nat),
    (∀ h : n < 13, regIdx cfg n = .ok ⟨n, h⟩) ∧
    (13 ≤ n → cfg.regNibbleHigh = .fault → regIdx cfg n = .modelFault (.regIndexUnresolved n)) ∧
    (13 ≤ n → cfg.regNibbleHigh = .clamp → regIdx cfg n = .ok 12) ∧
    (n ≤ 4 → lenIdx cfg n = .ok n) ∧
    (5 ≤ n → cfg.lenNibbleHigh = .fault → lenIdx cfg n = .modelFault (.immLenUnresolved n)) ∧
    (5 ≤ n → cfg.lenNibbleHigh = .min8 → lenIdx cfg n = .ok (min 8 n)) ∧
    (5 ≤ n → cfg.lenNibbleHigh = .gp → lenIdx cfg n = .ok (min 4 (n % 8)))

/-- `btn(i)` is the least k in 1 to 24 with an instruction start at i + k, and 24 when there is none (spec/30_encoding.md R102). -/
def Obligations.ScanFindsTheLeastStart : Prop :=
  ∀ (cfg : Config) (p : Program) (i : Nat),
    1 ≤ btn cfg p i ∧ btn cfg p i ≤ 24 ∧
    (∀ k, 1 ≤ k → k < btn cfg p i → isInstruction cfg p (i + k) = false) ∧
    ((∃ k, 1 ≤ k ∧ k ≤ 24 ∧ isInstruction cfg p (i + k) = true) → isInstruction cfg p (i + btn cfg p i) = true) ∧
    ((∀ k, 1 ≤ k → k ≤ 24 → isInstruction cfg p (i + k) = false) → btn cfg p i = 24)

/-- Bit i of the mask is bit `i mod 8` of byte `floor(i / 8)`, and a bit beyond the bitmap reads as `MASK_TAIL` says: 0, the source's
behaviour (spec/30_encoding.md R101), or 1 in the alternative of spec/93_implementation_defined.md U3. -/
def Obligations.MaskBitsAreReadLsbFirst : Prop :=
  ∀ (cfg : Config) (p : Program) (j b : Nat), b < 8 →
    (∀ h : j < p.mask.length, isInstruction cfg p (8 * j + b) = (p.mask[j]'h).getLsbD b) ∧
    (p.mask.length ≤ j → cfg.maskTail = .zero → isInstruction cfg p (8 * j + b) = false) ∧
    (p.mask.length ≤ j → cfg.maskTail = .one → isInstruction cfg p (8 * j + b) = true)

/-- The immediate of 1 to 4 bytes is the sign extension of their little-endian value, of no byte 0, and of 5 to 8 bytes the value of
the first four (spec/30_encoding.md R107). -/
def Obligations.ImmediatesAreSignExtended : Prop :=
  ∀ (b : List Byte),
    (b = [] → imm b = 0#32) ∧
    (1 ≤ b.length → b.length ≤ 4 → imm b = (BitVec.ofNat (8 * b.length) (le b)).signExtend 32) ∧
    (5 ≤ b.length → b.length ≤ 8 → imm b = BitVec.ofNat 32 (le (b.take 4)))

/-! ### Math (spec/41_math.md) -/

/-- The results of the three-register math instructions (R201 to R210), in the spec's own arithmetic. -/
def Obligations.ThreeRegisterMathResults : Prop :=
  RunsThreeRegs .add 8 (fun a b => BitVec.ofNat 32 (a.toNat + b.toNat)) ∧
  RunsThreeRegs .sub 20 (fun a b => BitVec.ofInt 32 ((a.toNat : Int) - b.toNat)) ∧
  RunsThreeRegs .mul 34 (fun a b => BitVec.ofNat 32 (a.toNat * b.toNat)) ∧
  RunsThreeRegs .mulUpperSS 67 (fun a b => BitVec.ofInt 32 (Int.fdiv (a.toInt * b.toInt) (2 ^ 32))) ∧
  RunsThreeRegs .mulUpperUU 57 (fun a b => BitVec.ofNat 32 (a.toNat * b.toNat / 2 ^ 32)) ∧
  RunsThreeRegs .mulUpperSU 81 (fun a b => BitVec.ofInt 32 (Int.fdiv (a.toInt * b.toNat) (2 ^ 32))) ∧
  RunsThreeRegs .divU 68 (fun a b => if b.toNat = 0 then 0xFFFFFFFF#32 else BitVec.ofNat 32 (a.toNat / b.toNat)) ∧
  RunsThreeRegs .divS 64 (fun a b => if b.toInt = 0 then 0xFFFFFFFF#32
    else if a.toInt = -2 ^ 31 ∧ b.toInt = -1 then 0x80000000#32 else BitVec.ofInt 32 (Int.tdiv a.toInt b.toInt)) ∧
  RunsThreeRegs .remU 73 (fun a b => if b.toNat = 0 then a else BitVec.ofNat 32 (a.toNat % b.toNat)) ∧
  RunsThreeRegs .remS 70 (fun a b => if b.toInt = 0 then a
    else if a.toInt = -2 ^ 31 ∧ b.toInt = -1 then 0#32
    else BitVec.ofInt 32 (a.toInt.sign * (a.toInt.natAbs % b.toInt.natAbs : Nat)))

/-- The results of the register-immediate math instructions (R211 to R215), in the spec's own arithmetic. -/
def Obligations.ImmediateMathResults : Prop :=
  RunsTwoRegs1Imm .addImm 2 (fun a x => BitVec.ofNat 32 (a.toNat + x.toNat)) ∧
  RunsTwoRegs1Imm .mulImm 35 (fun a x => BitVec.ofNat 32 (a.toNat * x.toNat)) ∧
  RunsTwoRegs1Imm .mulUpperSSImm 65 (fun a x => BitVec.ofInt 32 (Int.fdiv (a.toInt * x.toInt) (2 ^ 32))) ∧
  RunsTwoRegs1Imm .mulUpperUUImm 63 (fun a x => BitVec.ofNat 32 (a.toNat * x.toNat / 2 ^ 32)) ∧
  RunsTwoRegs1Imm .negAddImm 40 (fun a x => BitVec.ofInt 32 ((x.toNat : Int) - a.toNat))

/-- The upper-half multiply and `mul` of the same operands are the two halves of the 64-bit product, of unsigned, of signed, and of
signed with unsigned operands ("the high 32 bits of the signed 64-bit product", R204; R203, R205, R206). -/
def Obligations.ProductHalvesJoinToTheProduct : Prop :=
  ∀ (s : State) (firstReg secondReg thirdReg : Reg), ∃ low highU highS highSU,
    exec (.mul firstReg secondReg thirdReg) s = .next low ∧
    exec (.mulUpperUU firstReg secondReg thirdReg) s = .next highU ∧
    exec (.mulUpperSS firstReg secondReg thirdReg) s = .next highS ∧
    exec (.mulUpperSU firstReg secondReg thirdReg) s = .next highSU ∧
    highU.reg thirdReg ++ low.reg thirdReg = (s.reg secondReg).setWidth 64 * (s.reg firstReg).setWidth 64 ∧
    highS.reg thirdReg ++ low.reg thirdReg = (s.reg secondReg).signExtend 64 * (s.reg firstReg).signExtend 64 ∧
    highSU.reg thirdReg ++ low.reg thirdReg = (s.reg secondReg).signExtend 64 * (s.reg firstReg).setWidth 64

/-- Quotient and remainder of the same operands fit together: `q * b + r = a` modulo 2^32 for every operand pair, and for a divisor
that is not 0 the unsigned remainder is below it, the signed one is smaller in size and, when not 0, has the dividend's sign
(R207 to R210, R216). -/
def Obligations.QuotientAndRemainderFitTogether : Prop :=
  ∀ (s : State) (firstReg secondReg thirdReg : Reg), ∃ qu ru qs rs,
    exec (.divU firstReg secondReg thirdReg) s = .next qu ∧ exec (.remU firstReg secondReg thirdReg) s = .next ru ∧
    exec (.divS firstReg secondReg thirdReg) s = .next qs ∧ exec (.remS firstReg secondReg thirdReg) s = .next rs ∧
    qu.reg thirdReg * s.reg firstReg + ru.reg thirdReg = s.reg secondReg ∧
    qs.reg thirdReg * s.reg firstReg + rs.reg thirdReg = s.reg secondReg ∧
    (s.reg firstReg ≠ 0#32 → (ru.reg thirdReg).toNat < (s.reg firstReg).toNat ∧
      (rs.sreg thirdReg).natAbs < (s.sreg firstReg).natAbs ∧
      (rs.sreg thirdReg ≠ 0 → (rs.sreg thirdReg).sign = (s.sreg secondReg).sign))

/-! ### Bit, shift, boolean and move -/

/-- The results of the bitwise instructions (spec/42_bit.md R241 to R246), bit by bit. -/
def Obligations.BitwiseResults : Prop :=
  RunsThreeRegs .and 23 (fun a b => a &&& b) ∧
  RunsThreeRegs .xor 28 (fun a b => a ^^^ b) ∧
  RunsThreeRegs .or 12 (fun a b => a ||| b) ∧
  RunsTwoRegs1Imm .andImm 18 (fun a x => a &&& x) ∧
  RunsTwoRegs1Imm .xorImm 31 (fun a x => a ^^^ x) ∧
  RunsTwoRegs1Imm .orImm 49 (fun a x => a ||| x)

/-- The results of the shifts (spec/43_shift.md R261 to R269), in the spec's own arithmetic, the amount taken mod 32. -/
def Obligations.ShiftResults : Prop :=
  RunsThreeRegs .shloL 55 (fun a b => BitVec.ofNat 32 (a.toNat * 2 ^ (b.toNat % 32))) ∧
  RunsThreeRegs .shloR 51 (fun a b => BitVec.ofNat 32 (a.toNat / 2 ^ (b.toNat % 32))) ∧
  RunsThreeRegs .sharR 77 (fun a b => BitVec.ofInt 32 (Int.fdiv a.toInt (2 ^ (b.toNat % 32)))) ∧
  RunsTwoRegs1Imm .shloLImm 9 (fun a x => BitVec.ofNat 32 (a.toNat * 2 ^ (x.toNat % 32))) ∧
  RunsTwoRegs1Imm .shloRImm 14 (fun a x => BitVec.ofNat 32 (a.toNat / 2 ^ (x.toNat % 32))) ∧
  RunsTwoRegs1Imm .sharRImm 25 (fun a x => BitVec.ofInt 32 (Int.fdiv a.toInt (2 ^ (x.toNat % 32)))) ∧
  RunsTwoRegs1Imm .shloLImmAlt 75 (fun a x => BitVec.ofNat 32 (x.toNat * 2 ^ (a.toNat % 32))) ∧
  RunsTwoRegs1Imm .shloRImmAlt 72 (fun a x => BitVec.ofNat 32 (x.toNat / 2 ^ (a.toNat % 32))) ∧
  RunsTwoRegs1Imm .sharRImmAlt 80 (fun a x => BitVec.ofInt 32 (Int.fdiv x.toInt (2 ^ (a.toNat % 32))))

/-- The results of the set instructions (spec/44_boolean.md R291 to R296): 1 when the comparison holds, else 0. -/
def Obligations.SetResults : Prop :=
  RunsThreeRegs .setLtU 36 (fun a b => if a.toNat < b.toNat then 1#32 else 0#32) ∧
  RunsThreeRegs .setLtS 58 (fun a b => if a.toInt < b.toInt then 1#32 else 0#32) ∧
  RunsTwoRegs1Imm .setLtUImm 27 (fun a x => if a.toNat < x.toNat then 1#32 else 0#32) ∧
  RunsTwoRegs1Imm .setLtSImm 56 (fun a x => if a.toInt < x.toInt then 1#32 else 0#32) ∧
  RunsTwoRegs1Imm .setGtUImm 39 (fun a x => if a.toNat > x.toNat then 1#32 else 0#32) ∧
  RunsTwoRegs1Imm .setGtSImm 61 (fun a x => if a.toInt > x.toInt then 1#32 else 0#32)

/-- The results of the moves (spec/45_move.md R311 to R315): a conditional move whose test fails writes no register. -/
def Obligations.MoveResults : Prop :=
  (∀ (s : State) (firstReg secondReg : Reg), OpcodeMap.standard.lookup 82 = some (Instr.moveReg firstReg secondReg).mnemonic ∧
    ∃ t, exec (.moveReg firstReg secondReg) s = .next t ∧ WritesReg s t secondReg (s.reg firstReg) (s.pc + 2#32)) ∧
  (∀ (s : State) (firstReg secondReg thirdReg : Reg),
    OpcodeMap.standard.lookup 83 = some (Instr.cmovIz firstReg secondReg thirdReg).mnemonic ∧
    ∃ t, exec (.cmovIz firstReg secondReg thirdReg) s = .next t ∧
      (s.reg firstReg = 0#32 → WritesReg s t thirdReg (s.reg secondReg) (s.pc + 3#32)) ∧
      (s.reg firstReg ≠ 0#32 → MovesPc s t (s.pc + 3#32))) ∧
  (∀ (s : State) (firstReg secondReg thirdReg : Reg),
    OpcodeMap.standard.lookup 84 = some (Instr.cmovNz firstReg secondReg thirdReg).mnemonic ∧
    ∃ t, exec (.cmovNz firstReg secondReg thirdReg) s = .next t ∧
      (s.reg firstReg ≠ 0#32 → WritesReg s t thirdReg (s.reg secondReg) (s.pc + 3#32)) ∧
      (s.reg firstReg = 0#32 → MovesPc s t (s.pc + 3#32))) ∧
  (∀ (s : State) (firstReg secondReg : Reg) (immX : Imm),
    OpcodeMap.standard.lookup 85 = some (Instr.cmovIzImm firstReg secondReg immX).mnemonic ∧
    ∃ t, exec (.cmovIzImm firstReg secondReg immX) s = .next t ∧
      (s.reg firstReg = 0#32 → WritesReg s t secondReg immX.val (s.pc + BitVec.ofNat 32 (2 + immX.len))) ∧
      (s.reg firstReg ≠ 0#32 → MovesPc s t (s.pc + BitVec.ofNat 32 (2 + immX.len)))) ∧
  (∀ (s : State) (firstReg secondReg : Reg) (immX : Imm),
    OpcodeMap.standard.lookup 86 = some (Instr.cmovNzImm firstReg secondReg immX).mnemonic ∧
    ∃ t, exec (.cmovNzImm firstReg secondReg immX) s = .next t ∧
      (s.reg firstReg ≠ 0#32 → WritesReg s t secondReg immX.val (s.pc + BitVec.ofNat 32 (2 + immX.len))) ∧
      (s.reg firstReg = 0#32 → MovesPc s t (s.pc + BitVec.ofNat 32 (2 + immX.len))))

/-! ### Branches (spec/46_branch.md) -/

/-- The unconditional jumps (R331, R332): the target is `u32(pc + offset)`, and `load_imm_jump` writes its register as well. -/
def Obligations.JumpResults : Prop :=
  (∀ (s : State) (offset : Imm), OpcodeMap.standard.lookup 5 = some (Instr.jump offset).mnemonic ∧
    ∃ t, exec (.jump offset) s = .next t ∧ MovesPc s t (s.pc + offset.val)) ∧
  (∀ (s : State) (reg : Reg) (immX offset : Imm), OpcodeMap.standard.lookup 6 = some (Instr.loadImmJump reg immX offset).mnemonic ∧
    ∃ t, exec (.loadImmJump reg immX offset) s = .next t ∧ WritesReg s t reg immX.val (s.pc + offset.val))

/-- The register-immediate branches (R333 to R342). -/
def Obligations.ImmediateBranchResults : Prop :=
  RunsBranchImm .branchEqImm 7 (fun a x => a = x) ∧
  RunsBranchImm .branchNeImm 15 (fun a x => a ≠ x) ∧
  RunsBranchImm .branchLtUImm 44 (fun a x => a.toNat < x.toNat) ∧
  RunsBranchImm .branchLeUImm 59 (fun a x => a.toNat ≤ x.toNat) ∧
  RunsBranchImm .branchGeUImm 52 (fun a x => a.toNat ≥ x.toNat) ∧
  RunsBranchImm .branchGtUImm 50 (fun a x => a.toNat > x.toNat) ∧
  RunsBranchImm .branchLtSImm 32 (fun a x => a.toInt < x.toInt) ∧
  RunsBranchImm .branchLeSImm 46 (fun a x => a.toInt ≤ x.toInt) ∧
  RunsBranchImm .branchGeSImm 45 (fun a x => a.toInt ≥ x.toInt) ∧
  RunsBranchImm .branchGtSImm 53 (fun a x => a.toInt > x.toInt)

/-- The two-register branches (R343 to R348): the left operand is `x[secondReg]`. -/
def Obligations.RegisterBranchResults : Prop :=
  RunsBranchReg .branchEq 24 (fun a b => a = b) ∧
  RunsBranchReg .branchNe 30 (fun a b => a ≠ b) ∧
  RunsBranchReg .branchLtU 47 (fun a b => a.toNat < b.toNat) ∧
  RunsBranchReg .branchLtS 48 (fun a b => a.toInt < b.toInt) ∧
  RunsBranchReg .branchGeU 41 (fun a b => a.toNat ≥ b.toNat) ∧
  RunsBranchReg .branchGeS 43 (fun a b => a.toInt ≥ b.toInt)

/-! ### Loads and stores (spec/47_load_store.md, spec/20_memory.md) -/

/-- `load_imm` (R371). -/
def Obligations.LoadImmediateResult : Prop :=
  ∀ (s : State) (reg : Reg) (immX : Imm), OpcodeMap.standard.lookup 4 = some (Instr.loadImm reg immX).mnemonic ∧
    ∃ t, exec (.loadImm reg immX) s = .next t ∧ WritesReg s t reg immX.val (s.pc + BitVec.ofNat 32 (2 + immX.len))

/-- The absolute loads (R372 to R376) of readable bytes: the bytes joined with the first lowest, then zero- or sign-extended. -/
def Obligations.AbsoluteLoadResults : Prop :=
  RunsLoadAbs .loadU8 60 1 (fun b => (b 0).setWidth 32) ∧
  RunsLoadAbs .loadI8 74 1 (fun b => (b 0).signExtend 32) ∧
  RunsLoadAbs .loadU16 76 2 (fun b => (b 1 ++ b 0).setWidth 32) ∧
  RunsLoadAbs .loadI16 66 2 (fun b => (b 1 ++ b 0).signExtend 32) ∧
  RunsLoadAbs .loadU32 10 4 (fun b => b 3 ++ b 2 ++ b 1 ++ b 0)

/-- The indirect loads (R389 to R393) of readable bytes at `u32(x[firstReg] + immX)`. -/
def Obligations.IndirectLoadResults : Prop :=
  RunsLoadInd .loadIndU8 11 1 (fun b => (b 0).setWidth 32) ∧
  RunsLoadInd .loadIndI8 21 1 (fun b => (b 0).signExtend 32) ∧
  RunsLoadInd .loadIndU16 37 2 (fun b => (b 1 ++ b 0).setWidth 32) ∧
  RunsLoadInd .loadIndI16 33 2 (fun b => (b 1 ++ b 0).signExtend 32) ∧
  RunsLoadInd .loadIndU32 1 4 (fun b => b 3 ++ b 2 ++ b 1 ++ b 0)

/-- The absolute stores (R377 to R379) to writable bytes. -/
def Obligations.AbsoluteStoreResults : Prop :=
  RunsStoreAbs .storeU8 71 1 ∧ RunsStoreAbs .storeU16 69 2 ∧ RunsStoreAbs .storeU32 22 4

/-- The immediate stores (R380 to R382) to writable bytes. -/
def Obligations.ImmediateStoreResults : Prop :=
  RunsStoreImmAbs .storeImmU8 62 1 ∧ RunsStoreImmAbs .storeImmU16 79 2 ∧ RunsStoreImmAbs .storeImmU32 38 4

/-- The indirect immediate stores (R383 to R385) to writable bytes. -/
def Obligations.IndirectImmediateStoreResults : Prop :=
  RunsStoreImmInd .storeImmIndU8 26 1 ∧ RunsStoreImmInd .storeImmIndU16 54 2 ∧ RunsStoreImmInd .storeImmIndU32 13 4

/-- The indirect register stores (R386 to R388) to writable bytes. -/
def Obligations.IndirectStoreResults : Prop :=
  RunsStoreInd .storeIndU8 16 1 ∧ RunsStoreInd .storeIndU16 29 2 ∧ RunsStoreInd .storeIndU32 3 4

/-- Where a load stops: at its first byte with no access right; when every byte has one, at its first byte with no value
(spec/20_memory.md R70). -/
def Obligations.LoadsFaultAtTheFirstBadByte : Prop :=
  ∀ (i : Instr) (s : State) (a : Word) (n k : Nat), loadAccess i s = some (a, n) → k < n →
    (s.accessOf (a + BitVec.ofNat 32 k) = .noAccess → (∀ j < k, s.accessOf (a + BitVec.ofNat 32 j) ≠ .noAccess) →
      exec i s = .fault (.model (.memoryInaccessible (a + BitVec.ofNat 32 k)))) ∧
    ((∀ j < n, s.accessOf (a + BitVec.ofNat 32 j) ≠ .noAccess) → s.byteAt (a + BitVec.ofNat 32 k) = none →
      (∀ j < k, s.byteAt (a + BitVec.ofNat 32 j) ≠ none) →
      exec i s = .fault (.model (.memoryUninitialised (a + BitVec.ofNat 32 k))))

/-- Where a store stops: at its first byte that may not be written; and the step then leaves every byte and register as it was, so
that nothing is stored (spec/20_memory.md R71, spec/40_dispatch.md R174). -/
def Obligations.StoresFaultAtTheFirstBadByte : Prop :=
  ∀ (i : Instr) (s : State) (a : Word) (n : Nat) (v : Word) (k : Nat), storeAccess i s = some (a, n, v) → k < n →
    s.accessOf (a + BitVec.ofNat 32 k) ≠ .write → (∀ j < k, s.accessOf (a + BitVec.ofNat 32 j) = .write) →
    exec i s = .fault (.model (.memoryInaccessible (a + BitVec.ofNat 32 k))) ∧
    (∀ op, s.status = .running → s.fault = none → fetchDecode s = .ok (op, i) → outOfGas (chargeGas op s) = false →
      step s = .next { s with fault := some (.memoryInaccessible (a + BitVec.ofNat 32 k)) })

/-- A load reads what the last store to its bytes wrote: after a 4-, 2- or 1-byte store, a load of the same width at the same address
gives the stored bits, and a 1-byte load at k bytes further gives bits 8k+7 to 8k of a 4-byte store (spec/20_memory.md R65, R73). -/
def Obligations.LoadsReadWhatStoresWrote : Prop :=
  ∀ (s : State) (base src dst : Reg) (immX : Imm),
    (Writable s (effAddr (s.reg base) immX) 4 → ∃ t, exec (.storeIndU32 base src immX) s = .next t ∧
      (∃ u, exec (.loadIndU32 base dst immX) t = .next u ∧ u.reg dst = s.reg src) ∧
      ∀ k < 4, ∃ u, exec (.loadIndU8 base dst ⟨immX.len, immX.val + BitVec.ofNat 32 k⟩) t = .next u ∧
        u.reg dst = ((s.reg src).extractLsb' (8 * k) 8).setWidth 32) ∧
    (Writable s (effAddr (s.reg base) immX) 2 → ∃ t, exec (.storeIndU16 base src immX) s = .next t ∧
      ∃ u, exec (.loadIndI16 base dst immX) t = .next u ∧ u.reg dst = ((s.reg src).setWidth 16).signExtend 32) ∧
    (Writable s (effAddr (s.reg base) immX) 1 → ∃ t, exec (.storeIndU8 base src immX) s = .next t ∧
      ∃ u, exec (.loadIndI8 base dst immX) t = .next u ∧ u.reg dst = ((s.reg src).setWidth 8).signExtend 32)

/-! ### System (spec/48_system.md) -/

/-- `trap`, `ecalli` and `fallthrough` (R411 to R413) with their frames. -/
def Obligations.SystemResults : Prop :=
  (∀ s : State, OpcodeMap.standard.lookup 0 = some Instr.trap.mnemonic ∧ exec .trap s = .next { s with status := .trapped }) ∧
  (∀ (s : State) (immX : Imm), OpcodeMap.standard.lookup 78 = some (Instr.ecalli immX).mnemonic ∧
    exec (.ecalli immX) s = .next { s with
      hostCall := immX.val
      status := .host
      pc := s.pc + BitVec.ofNat 32 (1 + immX.len) }) ∧
  (∀ s : State,
    OpcodeMap.standard.lookup 17 = some Instr.fallthrough.mnemonic ∧
    ∃ t, exec .fallthrough s = .next t ∧ MovesPc s t (s.pc + 1#32))

/-- The three refused instructions (spec/60_exceptions.md R437; spec/46_branch.md R349, R350; spec/48_system.md R414), with their default
opcodes: their execution is refused by rule, and a step that does not run out of gas records `Refused(op)` with the decoded opcode
byte and undoes everything else, the gas charge included; a step that runs out of gas ends in OutOfGas with no fault. -/
def Obligations.RefusedInstructionsStop : Prop :=
  ∀ (i : Instr) (standardOp : Byte),
    ((∃ reg immX, i = .jumpInd reg immX ∧ standardOp = 19) ∨
      (∃ firstReg secondReg immX immY, i = .loadImmJumpInd firstReg secondReg immX immY ∧ standardOp = 42) ∨
      (∃ firstReg secondReg, i = .sbrk firstReg secondReg ∧ standardOp = 87)) →
    OpcodeMap.standard.lookup standardOp = some i.mnemonic ∧
    ∀ s : State, exec i s = .fault .refusedByRule ∧
      ∀ op, s.status = .running → s.fault = none → fetchDecode s = .ok (op, i) →
        (outOfGas (chargeGas op s) = false → step s = .next { s with fault := some (.refused op) }) ∧
        (outOfGas (chargeGas op s) = true →
          step s = .next { s with gas := s.gas - gasCostOf s.config op, status := .outOfGas })

/-! ### The step (spec/40_dispatch.md, spec/60_exceptions.md) -/

/-- A step runs the decoded instruction (R171, R173): the cost of the opcode byte at the pc is charged; when that leaves the gas
negative under `GAS_POLICY = halt` the step ends in OutOfGas and nothing else changes; otherwise the step answers what `exec` answers
in the charged state, and a model fault is recorded in the state as it was before the step, a refusal with the opcode byte. -/
def Obligations.StepRunsTheDecodedInstruction : Prop :=
  ∀ (s : State) (op : Byte) (i : Instr) (c : State), s.status = .running → s.fault = none →
    s.program.code[s.pc.toNat]? = some op → decode s.config s.program s.pc.toNat = .ok i →
    c = { s with gas := s.gas - (s.config.gasCost[op.toNat] : Nat) } →
    (c.gas < 0 ∧ s.config.gasPolicy = .halt → step s = .next { c with status := .outOfGas }) ∧
    (¬ (c.gas < 0 ∧ s.config.gasPolicy = .halt) →
      (∀ t, exec i c = .next t → step s = .next t) ∧
      (∀ r, exec i c = .fault (.model r) → step s = .next { s with fault := some r }) ∧
      (exec i c = .fault .refusedByRule → step s = .next { s with fault := some (.refused op) }))

/-- A step whose decode fails (R172): a DecodeError ends in Trapped with nothing else changed, no gas charged; a model fault of the
decoder is recorded with nothing else changed. -/
def Obligations.StepWithAFailedDecode : Prop :=
  ∀ s : State, s.status = .running → s.fault = none →
    (decode s.config s.program s.pc.toNat = .decodeError → step s = .next { s with status := .trapped }) ∧
    (∀ r, decode s.config s.program s.pc.toNat = .modelFault r → step s = .next { s with fault := some r })

/-- A step is defined exactly when the status is Running and no model fault is recorded (R170): there it always has a next state,
whatever the program, and elsewhere it never has one. -/
def Obligations.StepDefinedExactlyWhenRunning : Prop :=
  ∀ s : State, (∃ t, step s = .next t) ↔ (s.status = .running ∧ s.fault = none)

/-- Every outcome is precise (spec/60_exceptions.md R436, R439): a recorded model fault leaves all else as before the step; a step into
Trapped or OutOfGas leaves the registers, the bytes and the pc; a step into Host is a completed `ecalli`, with the pc after it. -/
def Obligations.EveryOutcomeIsPrecise : Prop :=
  ∀ s t : State, step s = .next t →
    (∀ r, t.fault = some r → t = { s with fault := some r }) ∧
    (t.status = .trapped ∨ t.status = .outOfGas → SameRegs s t ∧ SameBytes s t ∧ t.pc = s.pc ∧ t.hostCall = s.hostCall) ∧
    (t.status = .host → ∃ op immX, fetchDecode s = .ok (op, .ecalli immX) ∧ t.hostCall = immX.val ∧
      t.pc = s.pc + BitVec.ofNat 32 (1 + immX.len) ∧ SameRegs s t ∧ SameBytes s t)

/-- Gas: a step charges the decoded opcode's cost exactly once, whatever the operands, and charges nothing when the decode fails or
a model fault undoes the step (R172 to R174, spec/70_reset_and_hazards.md R482). -/
def Obligations.EachStepChargesItsOpcodeOnce : Prop :=
  ∀ s t : State, step s = .next t →
    (t.fault = none → ∀ op i, fetchDecode s = .ok (op, i) → t.gas = s.gas - (s.config.gasCost[op.toNat] : Nat)) ∧
    ((∀ op i, fetchDecode s ≠ .ok (op, i)) ∨ t.fault ≠ none → t.gas = s.gas)

/-- Only `ecalli` writes the host-call register (spec/10_state.md R41, R50). -/
def Obligations.OnlyEcalliWritesHostCall : Prop :=
  ∀ s t : State, step s = .next t → t.hostCall ≠ s.hostCall →
    ∃ op immX, fetchDecode s = .ok (op, .ecalli immX) ∧ t.hostCall = immX.val

/-- A byte that a step changes is one that the decoded instruction, a store, stores to, and it may be written; no other instruction
touches memory (spec/20_memory.md R61, R62, R71). -/
def Obligations.OnlyStoresChangeMemory : Prop :=
  ∀ (s t : State) (x : Word), step s = .next t → t.byteAt x ≠ s.byteAt x →
    ∃ op i a n v k, fetchDecode s = .ok (op, i) ∧ storeAccess i s = some (a, n, v) ∧ k < n ∧ x = a + BitVec.ofNat 32 k ∧
      s.accessOf x = .write ∧ t.byteAt x = some (BitVec.ofNat 8 (v.toNat / 256 ^ k))

/-- Over a run of any length, a byte without the right `write` keeps its value, and neither the program nor the configuration, the
access rights among it, ever changes (spec/10_state.md R42, R47; spec/20_memory.md R62, R76). -/
def Obligations.RunsKeepProgramAndProtectedBytes : Prop :=
  ∀ (n : Nat) (s t : State), Host.Core.run Sys2Proof.core n s = .next t →
    t.program = s.program ∧ t.config = s.config ∧ ∀ x : Word, s.accessOf x ≠ .write → t.byteAt x = s.byteAt x

/-- Every step keeps the invariant: canonical memory, a mask that covers the code, and a negative gas under `GAS_POLICY = halt` only
with status OutOfGas (spec/10_state.md R42, spec/40_dispatch.md R173). -/
def Obligations.StepKeepsTheInvariant : Prop :=
  ∀ s t : State, Inv s → step s = .next t → Inv t

/-- The invariant holds of the model's state right after reset. That state rests on the model's choices (log entries 1 to 9). -/
def Obligations.InvariantHoldsAtReset : Prop := Inv State.reset

/-- Under `GAS_POLICY = halt` with every cost positive, a run takes at most `gas + 1` steps before it has no step (spec/60_exceptions.md
R452), from every state: by `gas + 2` steps the model's step has answered that there is none. That it answers a fault there is the
model's reading (log entry 14, DEDUCED): the spec says only that the core has no step (spec/40_dispatch.md R170). -/
def Obligations.RunsEndWithinTheirGas : Prop :=
  ∀ s : State, s.config.gasPolicy = .halt → (∀ op : Byte, 0 < (s.config.gasCost[op.toNat] : Nat)) →
    ∃ why, Host.Core.run Sys2Proof.core (s.gas.toNat + 2) s = .fault why

/-- No instruction reads gas or the host-call register (spec/10_state.md R40, R50): two states that agree on everything else step to
states that do, unless the gas runs out in one of them, and they spend the same gas. -/
def Obligations.GasAndHostCallAreNeverRead : Prop :=
  ∀ s s' t t' : State, AgreeButGas s s' → step s = .next t → step s' = .next t' →
    t.status ≠ .outOfGas → t'.status ≠ .outOfGas → AgreeButGas t t' ∧ t.gas - s.gas = t'.gas - s'.gas

/-- A well-placed instruction runs safely (spec/60_exceptions.md R436): in a Running state with no fault recorded, a well-formed
instruction that stands at the pc under an opcode byte of its mnemonic, is not one of the three refused ones, and loads and stores
only where it may, steps with no model fault recorded. That an entry with the mnemonic has its shape is the model's reading (log
entry 11, DEDUCED). -/
def Obligations.WellPlacedInstructionsRunSafely : Prop :=
  ∀ (s : State) (op : Byte) (i : Instr), s.status = .running → s.fault = none → i.wf = true →
    (nibbleLen i.args ≤ 4 ∨ s.config.lenNibbleHigh = .min8) → s.config.opcodeMap.lookup op = some i.mnemonic →
    StandsAt s.config s.program s.pc.toNat (encodeAs op i) →
    (∀ reg immX, i ≠ .jumpInd reg immX) →
    (∀ firstReg secondReg immX immY, i ≠ .loadImmJumpInd firstReg secondReg immX immY) →
    (∀ firstReg secondReg, i ≠ .sbrk firstReg secondReg) →
    (∀ a n, loadAccess i s = some (a, n) → ∃ b, Readable s a n b) →
    (∀ a n v, storeAccess i s = some (a, n, v) → Writable s a n) →
    SafeStep s

/-! ### Reset, load, resume and the disassembler -/

/-- What reset leaves (spec/70_reset_and_hazards.md R471): the caller's registers, pc, gas and memory, Running, no fault, and the
program and the parameters as the configuration. `hostCall` is the unspecified value given; nothing is said of it. -/
def Obligations.ResetBuildsTheInitialState : Prop :=
  ∀ (p : Program) (init : InitialState) (cfg : Config) (h : Word) (s : State), s = State.resetWith p init cfg h →
    (∀ r : Reg, s.reg r = init.regs[r]) ∧ s.pc = init.pc ∧ s.gas = init.gas ∧
    (∀ a : Word, s.byteAt a = Memory.read init.mem a.toNat) ∧ s.status = .running ∧ s.fault = none ∧
    s.program = p ∧ s.config = cfg

/-- The return from a host call (spec/60_exceptions.md R445): defined only in Host with no fault recorded; it gives the state the
host's registers, memory and gas and the status Running, and leaves all else, the pc among it. -/
def Obligations.ResumeReturnsFromHost : Prop :=
  ∀ (s : State) (regs : Vector Word 13) (mem : Memory) (gas : Int),
    (s.status = .host → s.fault = none →
      s.resume regs mem gas = some { s with regs := regs, mem := mem, gas := gas, status := .running }) ∧
    (s.status ≠ .host ∨ s.fault ≠ none → s.resume regs mem gas = none)

/-- A load fails with MalformedProgram exactly when the mask does not cover the code (spec/60_exceptions.md R435), and otherwise gives the
code and the mask as they are. -/
def Obligations.LoadRejectsUncoveredCode : Prop :=
  ∀ code mask : List Byte,
    (code.length ≤ 8 * mask.length → loadProgram code mask = .ok ⟨code, mask⟩) ∧
    (8 * mask.length < code.length → loadProgram code mask = .error .malformedProgram)

/-- The disassembler lists exactly what the decoder reads (spec/30_encoding.md R145): each record's arguments are those of the decode at
its address, its name the mnemonic of the opcode byte there and its bytes the instruction's own; a record's address is where the
bytes of the records before it end, and all the bytes joined are the code from its first byte on; and the list ends where the code
ends or at the first failed decode, whose model fault is reported beside the list. The loop's bound is the model's (log entry 23, DEDUCED). -/
def Obligations.DisassemblyIsTheDecodedPrefix : Prop :=
  ∀ (cfg : Config) (p : Program) (out : List DisasmRecord) (why : Option ModelFault) (stop : Nat),
    disassemble cfg p = (out, why) → stop = (out.flatMap (·.bytes)).length →
    (∀ r ∈ out, ∃ op m i, p.code[r.address]? = some op ∧ cfg.opcodeMap.lookup op = some m ∧ r.name = m.text ∧
      decode cfg p r.address = .ok i ∧ r.args = i.args ∧ r.bytes = (p.code.drop r.address).take r.args.skip ∧
      r.bytes.length = r.args.skip) ∧
    (∀ before r after, out = before ++ r :: after → r.address = (before.flatMap (·.bytes)).length) ∧
    out.flatMap (·.bytes) = p.code.take stop ∧
    ((stop = p.code.length ∧ why = none) ∨ (decode cfg p stop = .decodeError ∧ why = none) ∨
      ∃ f, decode cfg p stop = .modelFault f ∧ why = some f)

/-! ### The opcode map as configuration -/

/-- The opcode byte matters to the decode only through the mnemonic that `OPCODE_MAP` gives it: where the byte op of one map and the
byte op' of another have the same mnemonic, replacing the map and that byte of the program leaves the decode as it was, whatever it
answers. This is the model's reading (log entry 11, DEDUCED): an entry's shape is that of its mnemonic. The spec says only that the
map is configuration and gives each opcode byte a mnemonic and a shape (spec/00_scope.md R16), and that the decode runs the rule of
the entry's shape (spec/30_encoding.md R113); it does not say that entries with one mnemonic have one shape. -/
def Obligations.OpcodeBytesActThroughTheMapAlone : Prop :=
  ∀ (cfg : Config) (map : OpcodeMap) (p : Program) (pc : Nat) (op op' : Byte) (m : Mnemonic),
    p.code[pc]? = some op → cfg.opcodeMap.lookup op = some m → map.lookup op' = some m →
    decode { cfg with opcodeMap := map } { p with code := p.code.set pc op' } pc = decode cfg p pc

/-- A step under another opcode map: where the two bytes have the same mnemonic and the same cost, the step of the state with the map
and the byte replaced answers the same registers, pc, gas, status, host-call register and bytes, and records a fault exactly when the
step under the first map does. This is the model's reading (log entry 11, DEDUCED): an entry's shape is that of its mnemonic, and an
instruction runs by its mnemonic. The spec says only that the map is configuration (spec/00_scope.md R16), and it selects the
operation by shape and opcode (spec/40_dispatch.md R174). -/
def Obligations.StepsActThroughTheMapAlone : Prop :=
  ∀ (s s' t t' : State) (op op' : Byte) (map : OpcodeMap) (m : Mnemonic),
    s.program.code[s.pc.toNat]? = some op → s.config.opcodeMap.lookup op = some m → map.lookup op' = some m →
    gasCostOf s.config op' = gasCostOf s.config op →
    s' = { s with
      config := { s.config with opcodeMap := map }
      program := { s.program with code := s.program.code.set s.pc.toNat op' } } →
    step s = .next t → step s' = .next t' →
    t'.regs = t.regs ∧ t'.pc = t.pc ∧ t'.gas = t.gas ∧ t'.status = t.status ∧ t'.hostCall = t.hostCall ∧ t'.mem = t.mem ∧
    (t'.fault = none ↔ t.fault = none)
end

