-- ==== Sys2Proof/Laws/Decode.lean ====
section
/-! SUPPORT. The pieces of the decoder, said once each: outcomes, code reads, lengths, immediates and the argument shapes. -/

namespace Sys2Proof

/-! ### Outcomes -/

@[simp] theorem Decoded.bind_of_ok {α β : Type} (a : α) (f : α → Decoded β) : (Decoded.ok a).bind f = f a := rfl

/-- A sequence of decode steps answers exactly when each of them does. -/
theorem Decoded.bind_eq_ok {α β : Type} (d : Decoded α) (f : α → Decoded β) (b : β) :
    d.bind f = .ok b ↔ ∃ a, d = .ok a ∧ f a = .ok b := by
  cases d <;> simp [Decoded.bind]

/-! ### Code reads -/

theorem codeByte_ok (p : Program) (i : Nat) (b : Byte) : codeByte p i = .ok b ↔ p.code[i]? = some b := by
  unfold codeByte
  split <;> simp_all

theorem codeByte_past (p : Program) (i : Nat) : codeByte p i = .decodeError ↔ p.code.length ≤ i := by
  rw [← List.getElem?_eq_none_iff, codeByte]
  split <;> simp_all

theorem codeByte_not_modelFault (p : Program) (i : Nat) (r : ModelFault) : codeByte p i ≠ .modelFault r := by
  unfold codeByte
  split <;> simp

theorem codeBytes_ok (p : Program) (i n : Nat) (b : List Byte) :
    codeBytes p i n = .ok b ↔ (n = 0 ∨ i + n ≤ p.code.length) ∧ b = (p.code.drop i).take n := by
  unfold codeBytes
  split <;> rename_i h
  · simp only [reduceCtorEq, false_iff, not_and]
    omega
  · simp only [Decoded.ok.injEq]
    constructor
    · rintro rfl
      exact ⟨by omega, rfl⟩
    · rintro ⟨-, rfl⟩
      rfl

/-- An immediate that is read has the length asked for and the value of its bytes, which lie within the code. -/
theorem codeImm_ok (p : Program) (i n : Nat) (x : Imm) :
    codeImm p i n = .ok x ↔ (n = 0 ∨ i + n ≤ p.code.length) ∧ x = ⟨n, imm ((p.code.drop i).take n)⟩ := by
  simp only [codeImm, Decoded.bind_eq_ok, codeBytes_ok, Decoded.ok.injEq]
  constructor
  · rintro ⟨b, ⟨h, rfl⟩, rfl⟩
    exact ⟨h, rfl⟩
  · rintro ⟨h, rfl⟩
    exact ⟨_, ⟨h, rfl⟩, rfl⟩

/-! ### Lengths -/

theorem regIdx_val (cfg : Config) (r : Reg) : regIdx cfg r.val = .ok r := by
  simp [regIdx, r.isLt]

theorem lenIdx_of_le (cfg : Config) (n : Nat) (h : n ≤ 4) : lenIdx cfg n = .ok n := by
  simp [lenIdx, h]

theorem lenIdx_min8 (cfg : Config) (n : Nat) (hn : n ≤ 8) (h : cfg.lenNibbleHigh = .min8) : lenIdx cfg n = .ok n := by
  unfold lenIdx
  rw [h]
  split <;> simp [hn]

/-- A length nibble gives 0 to 8 bytes. -/
theorem lenIdx_ok_le (cfg : Config) (n l : Nat) (h : lenIdx cfg n = .ok l) : l ≤ 8 := by
  unfold lenIdx at h
  split at h
  · simp only [Decoded.ok.injEq] at h
    omega
  · split at h <;> simp only [Decoded.ok.injEq, reduceCtorEq] at h <;> omega

theorem btn_pos (cfg : Config) (p : Program) (i : Nat) : 1 ≤ btn cfg p i := by
  unfold btn
  cases h : (List.range' 1 scanCap).find? fun k => isInstruction cfg p (i + k) with
  | none => simp [scanCap]
  | some k =>
    have := List.mem_of_find?_eq_some h
    simp [List.mem_range'] at this
    simp only [Option.getD_some]
    omega

/-- The scan stops at an instruction start with none before it. -/
theorem btn_eq (cfg : Config) (p : Program) (i n : Nat) (h1 : 1 ≤ n) (h24 : n ≤ 24)
    (stop : isInstruction cfg p (i + n) = true) (inside : ∀ k, 1 ≤ k → k < n → isInstruction cfg p (i + k) = false) :
    btn cfg p i = n := by
  have split24 : List.range' 1 scanCap = List.range' 1 (n - 1) ++ n :: List.range' (n + 1) (24 - n) := by
    have e : List.range' n (25 - n) = n :: List.range' (n + 1) (24 - n) := by
      rw [show 25 - n = (24 - n) + 1 by omega, List.range'_succ]
    rw [← e, scanCap]
    have := List.range'_append_1 (s := 1) (m := n - 1) (n := 25 - n)
    rw [show 1 + (n - 1) = n by omega, show n - 1 + (25 - n) = 24 by omega] at this
    exact this.symm
  have none : (List.range' 1 (n - 1)).find? (fun k => isInstruction cfg p (i + k)) = none := by
    rw [List.find?_eq_none]
    intro k hk
    rw [List.mem_range'_1] at hk
    simp [inside k hk.1 (by omega)]
  rw [btn, split24, List.find?_append, none]
  simp [stop]

theorem maskLen_pos (cfg : Config) (p : Program) (i : Nat) : 1 ≤ maskLen cfg p i := by
  have := btn_pos cfg p i
  simp only [maskLen, immMax]
  omega

theorem maskLen_le (cfg : Config) (p : Program) (i : Nat) : maskLen cfg p i ≤ 4 := Nat.min_le_left _ _

theorem secondLen_le (cfg : Config) (p : Program) (pc hdr lX : Nat) : secondLen cfg p pc hdr lX ≤ 4 := Nat.min_le_left _ _

/-! ### The opcode map -/

/-- The default map gives an opcode byte the mnemonic at its place in the table of R150, and a byte past the table none. -/
theorem OpcodeMap.lookup_standard (op : Byte) : OpcodeMap.standard.lookup op = standardMnemonics[op.toNat]? := by
  have len : standardMnemonics.length = 88 := rfl
  simp only [OpcodeMap.lookup, OpcodeMap.standard, Vector.getElem_mk, List.getElem_toArray]
  rw [List.getElem_append]
  split <;> rename_i h <;> rw [List.length_map] at h
  · rw [List.getElem_map, List.getElem?_eq_getElem h]
  · rw [List.getElem_replicate, List.getElem?_eq_none (by omega)]

/-- The opcode byte found for a mnemonic has that mnemonic. -/
theorem OpcodeMap.lookup_opcodeOf (map : OpcodeMap) (m : Mnemonic) (op : Byte) (h : map.opcodeOf m = some op) :
    map.lookup op = some m := by
  simpa using List.find?_some h

/-- A mnemonic that some byte has is found. -/
theorem OpcodeMap.opcodeOf_of_lookup (map : OpcodeMap) (m : Mnemonic) (op : Byte) (h : map.lookup op = some m) :
    ∃ op', map.opcodeOf m = some op' := by
  refine Option.isSome_iff_exists.1 (List.find?_isSome.2 ⟨op, ?_, by simp [h]⟩)
  exact List.mem_map.2 ⟨op.toNat, List.mem_range.2 op.isLt, by simp⟩

/-- The opcode read at a place whose decode succeeds has the mnemonic of an entry, and the decode is that of its shape (R113). -/
theorem decode_ok (cfg : Config) (p : Program) (pc : Nat) (i : Instr) : decode cfg p pc = .ok i ↔
    ∃ op m, p.code[pc]? = some op ∧ isInstruction cfg p pc = true ∧ cfg.opcodeMap.lookup op = some m ∧
      decodeFormat cfg p pc m.format = .ok i := by
  simp only [decode, Decoded.bind_eq_ok, codeByte_ok]
  constructor
  · rintro ⟨op, hop, h⟩
    split at h
    · rename_i hm
      split at h
      · rename_i m hl
        exact ⟨op, m, hop, hm, hl, h⟩
      · cases h
    · cases h
  · rintro ⟨op, m, hop, hm, hl, h⟩
    exact ⟨op, hop, by simp [hm, hl, h]⟩

/-! ### Nibbles -/

theorem lo_nibbles (high low : Nat) (hl : low < 16) : lo (nibbles high low) = low := by
  simp only [lo, nibbles, BitVec.toNat_ofNat]
  omega

theorem hi_nibbles (high low : Nat) (hl : low < 16) (hh : high < 16) : hi (nibbles high low) = high := by
  simp only [hi, nibbles, BitVec.toNat_ofNat]
  omega

/-! ### Immediates -/

@[simp] theorem immBytes_length (x : Imm) : (immBytes x).length = x.len := by simp [immBytes]

theorem nibbleWf_of_maskWf (x : Imm) (h : x.maskWf = true) : x.nibbleWf = true := by
  simp only [Imm.maskWf, Imm.nibbleWf, Bool.and_eq_true, decide_eq_true_eq] at h ⊢
  exact ⟨by omega, h.2⟩

theorem nibbleWf_of_secondWf (x : Imm) (h : x.secondWf = true) : x.nibbleWf = true := by
  simp only [Imm.secondWf, Imm.nibbleWf, Bool.and_eq_true, decide_eq_true_eq] at h ⊢
  exact ⟨by omega, h.2⟩

end Sys2Proof
end

