-- ==== Sys2Proof/Laws/State.lean ====
section
/-! SUPPORT. What each update of the state does to each field, one lemma per field and update, all by rfl; and the register and
byte reads after an update. -/

namespace Sys2Proof.Machine

variable (s : State)

@[simp] theorem setReg_regs (r : Reg) (v : Word) : (s.setReg r v).regs = s.regs.set r v := rfl
@[simp] theorem setReg_pc (r : Reg) (v : Word) : (s.setReg r v).pc = s.pc := rfl
@[simp] theorem setReg_status (r : Reg) (v : Word) : (s.setReg r v).status = s.status := rfl
@[simp] theorem setReg_gas (r : Reg) (v : Word) : (s.setReg r v).gas = s.gas := rfl
@[simp] theorem setReg_hostCall (r : Reg) (v : Word) : (s.setReg r v).hostCall = s.hostCall := rfl
@[simp] theorem setReg_mem (r : Reg) (v : Word) : (s.setReg r v).mem = s.mem := rfl
@[simp] theorem setReg_fault (r : Reg) (v : Word) : (s.setReg r v).fault = s.fault := rfl
@[simp] theorem setReg_program (r : Reg) (v : Word) : (s.setReg r v).program = s.program := rfl
@[simp] theorem setReg_config (r : Reg) (v : Word) : (s.setReg r v).config = s.config := rfl
@[simp] theorem setReg_byteAt (r : Reg) (v : Word) (x : Word) : (s.setReg r v).byteAt x = s.byteAt x := rfl
@[simp] theorem setReg_accessOf (r : Reg) (v : Word) (x : Word) : (s.setReg r v).accessOf x = s.accessOf x := rfl

@[simp] theorem setMem_regs (m : Memory) : (s.setMem m).regs = s.regs := rfl
@[simp] theorem setMem_pc (m : Memory) : (s.setMem m).pc = s.pc := rfl
@[simp] theorem setMem_status (m : Memory) : (s.setMem m).status = s.status := rfl
@[simp] theorem setMem_gas (m : Memory) : (s.setMem m).gas = s.gas := rfl
@[simp] theorem setMem_hostCall (m : Memory) : (s.setMem m).hostCall = s.hostCall := rfl
@[simp] theorem setMem_mem (m : Memory) : (s.setMem m).mem = m := rfl
@[simp] theorem setMem_fault (m : Memory) : (s.setMem m).fault = s.fault := rfl
@[simp] theorem setMem_program (m : Memory) : (s.setMem m).program = s.program := rfl
@[simp] theorem setMem_config (m : Memory) : (s.setMem m).config = s.config := rfl
@[simp] theorem setMem_reg (m : Memory) (q : Reg) : (s.setMem m).reg q = s.reg q := rfl
@[simp] theorem setMem_accessOf (m : Memory) (x : Word) : (s.setMem m).accessOf x = s.accessOf x := rfl

@[simp] theorem withStatus_regs (st : Status) : (s.withStatus st).regs = s.regs := rfl
@[simp] theorem withStatus_pc (st : Status) : (s.withStatus st).pc = s.pc := rfl
@[simp] theorem withStatus_status (st : Status) : (s.withStatus st).status = st := rfl
@[simp] theorem withStatus_gas (st : Status) : (s.withStatus st).gas = s.gas := rfl
@[simp] theorem withStatus_hostCall (st : Status) : (s.withStatus st).hostCall = s.hostCall := rfl
@[simp] theorem withStatus_mem (st : Status) : (s.withStatus st).mem = s.mem := rfl
@[simp] theorem withStatus_fault (st : Status) : (s.withStatus st).fault = s.fault := rfl
@[simp] theorem withStatus_program (st : Status) : (s.withStatus st).program = s.program := rfl
@[simp] theorem withStatus_config (st : Status) : (s.withStatus st).config = s.config := rfl
@[simp] theorem withStatus_reg (st : Status) (q : Reg) : (s.withStatus st).reg q = s.reg q := rfl
@[simp] theorem withStatus_byteAt (st : Status) (x : Word) : (s.withStatus st).byteAt x = s.byteAt x := rfl
@[simp] theorem withStatus_accessOf (st : Status) (x : Word) : (s.withStatus st).accessOf x = s.accessOf x := rfl

@[simp] theorem recordFault_regs (r : ModelFault) : (s.recordFault r).regs = s.regs := rfl
@[simp] theorem recordFault_pc (r : ModelFault) : (s.recordFault r).pc = s.pc := rfl
@[simp] theorem recordFault_status (r : ModelFault) : (s.recordFault r).status = s.status := rfl
@[simp] theorem recordFault_gas (r : ModelFault) : (s.recordFault r).gas = s.gas := rfl
@[simp] theorem recordFault_hostCall (r : ModelFault) : (s.recordFault r).hostCall = s.hostCall := rfl
@[simp] theorem recordFault_mem (r : ModelFault) : (s.recordFault r).mem = s.mem := rfl
@[simp] theorem recordFault_fault (r : ModelFault) : (s.recordFault r).fault = some r := rfl
@[simp] theorem recordFault_program (r : ModelFault) : (s.recordFault r).program = s.program := rfl
@[simp] theorem recordFault_config (r : ModelFault) : (s.recordFault r).config = s.config := rfl
@[simp] theorem recordFault_reg (r : ModelFault) (q : Reg) : (s.recordFault r).reg q = s.reg q := rfl
@[simp] theorem recordFault_byteAt (r : ModelFault) (x : Word) : (s.recordFault r).byteAt x = s.byteAt x := rfl
@[simp] theorem recordFault_accessOf (r : ModelFault) (x : Word) : (s.recordFault r).accessOf x = s.accessOf x := rfl

@[simp] theorem setHostCall_regs (v : Word) : (s.setHostCall v).regs = s.regs := rfl
@[simp] theorem setHostCall_pc (v : Word) : (s.setHostCall v).pc = s.pc := rfl
@[simp] theorem setHostCall_status (v : Word) : (s.setHostCall v).status = s.status := rfl
@[simp] theorem setHostCall_gas (v : Word) : (s.setHostCall v).gas = s.gas := rfl
@[simp] theorem setHostCall_hostCall (v : Word) : (s.setHostCall v).hostCall = v := rfl
@[simp] theorem setHostCall_mem (v : Word) : (s.setHostCall v).mem = s.mem := rfl
@[simp] theorem setHostCall_fault (v : Word) : (s.setHostCall v).fault = s.fault := rfl
@[simp] theorem setHostCall_program (v : Word) : (s.setHostCall v).program = s.program := rfl
@[simp] theorem setHostCall_config (v : Word) : (s.setHostCall v).config = s.config := rfl
@[simp] theorem setHostCall_reg (v : Word) (q : Reg) : (s.setHostCall v).reg q = s.reg q := rfl
@[simp] theorem setHostCall_byteAt (v : Word) (x : Word) : (s.setHostCall v).byteAt x = s.byteAt x := rfl
@[simp] theorem setHostCall_accessOf (v : Word) (x : Word) : (s.setHostCall v).accessOf x = s.accessOf x := rfl

@[simp] theorem spendGas_regs (cost : Nat) : (s.spendGas cost).regs = s.regs := rfl
@[simp] theorem spendGas_pc (cost : Nat) : (s.spendGas cost).pc = s.pc := rfl
@[simp] theorem spendGas_status (cost : Nat) : (s.spendGas cost).status = s.status := rfl
@[simp] theorem spendGas_gas (cost : Nat) : (s.spendGas cost).gas = s.gas - cost := rfl
@[simp] theorem spendGas_hostCall (cost : Nat) : (s.spendGas cost).hostCall = s.hostCall := rfl
@[simp] theorem spendGas_mem (cost : Nat) : (s.spendGas cost).mem = s.mem := rfl
@[simp] theorem spendGas_fault (cost : Nat) : (s.spendGas cost).fault = s.fault := rfl
@[simp] theorem spendGas_program (cost : Nat) : (s.spendGas cost).program = s.program := rfl
@[simp] theorem spendGas_config (cost : Nat) : (s.spendGas cost).config = s.config := rfl
@[simp] theorem spendGas_reg (cost : Nat) (q : Reg) : (s.spendGas cost).reg q = s.reg q := rfl
@[simp] theorem spendGas_byteAt (cost : Nat) (x : Word) : (s.spendGas cost).byteAt x = s.byteAt x := rfl
@[simp] theorem spendGas_accessOf (cost : Nat) (x : Word) : (s.spendGas cost).accessOf x = s.accessOf x := rfl

@[simp] theorem advance_regs (skip : Nat) (ir : InstructionResult) : (s.advance skip ir).regs = s.regs := by
  cases ir <;> rfl
@[simp] theorem advance_seq_pc (skip : Nat) : (s.advance skip .seq).pc = u32 (s.pc.toNat + skip) := rfl
@[simp] theorem advance_jump_pc (skip : Nat) (t : Word) : (s.advance skip (.jump t)).pc = t := rfl
@[simp] theorem advance_status (skip : Nat) (ir : InstructionResult) : (s.advance skip ir).status = s.status := by
  cases ir <;> rfl
@[simp] theorem advance_gas (skip : Nat) (ir : InstructionResult) : (s.advance skip ir).gas = s.gas := by
  cases ir <;> rfl
@[simp] theorem advance_hostCall (skip : Nat) (ir : InstructionResult) : (s.advance skip ir).hostCall = s.hostCall := by
  cases ir <;> rfl
@[simp] theorem advance_mem (skip : Nat) (ir : InstructionResult) : (s.advance skip ir).mem = s.mem := by
  cases ir <;> rfl
@[simp] theorem advance_fault (skip : Nat) (ir : InstructionResult) : (s.advance skip ir).fault = s.fault := by
  cases ir <;> rfl
@[simp] theorem advance_program (skip : Nat) (ir : InstructionResult) : (s.advance skip ir).program = s.program := by
  cases ir <;> rfl
@[simp] theorem advance_config (skip : Nat) (ir : InstructionResult) : (s.advance skip ir).config = s.config := by
  cases ir <;> rfl
@[simp] theorem advance_reg (skip : Nat) (ir : InstructionResult) (q : Reg) : (s.advance skip ir).reg q = s.reg q := by
  cases ir <;> rfl
@[simp] theorem advance_byteAt (skip : Nat) (ir : InstructionResult) (x : Word) :
    (s.advance skip ir).byteAt x = s.byteAt x := by
  cases ir <;> rfl

/-- A register reads back what was written to it. -/
@[simp] theorem setReg_reg_same (r : Reg) (v : Word) : (s.setReg r v).reg r = v := by
  simp [State.reg, State.setReg]

/-- Writing a register leaves the others. -/
theorem setReg_reg_other (r q : Reg) (v : Word) (h : q ≠ r) : (s.setReg r v).reg q = s.reg q := by
  have h' : r.val ≠ q.val := fun e => h (Fin.ext e.symm)
  simp [State.reg, State.setReg, Vector.getElem_set_ne, h']

/-- A narrowed sum of two unsigned readings is the wrapping sum. -/
theorem u32_add_nat (a : Word) (n : Nat) : u32 (a.toNat + n) = a + BitVec.ofNat 32 n := by
  apply BitVec.eq_of_toNat_eq
  rw [u32, ← Int.natCast_add, BitVec.ofInt_natCast]
  simp

end Sys2Proof.Machine
end

