-- ==== Sys2Proof/Laws/Memory.lean ====
section
/-! SUPPORT. The data memory: a read after a write, and the canonical form under every memory operation. -/

namespace Sys2Proof.Machine

/-- The byte just written reads back. -/
@[simp] theorem read_write_same (m : Memory) (x : Nat) (v : Byte) : Memory.read (Memory.write m x v) x = some v := by
  induction m with
  | nil => simp [Memory.write, Memory.read]
  | cons c m ih =>
    obtain ⟨a, b⟩ := c
    unfold Memory.write
    split
    · simp [Memory.read]
    · split
      · simp [Memory.read]
      · rename_i h
        simp [Memory.read, h, ih]

/-- A write leaves every other byte alone. -/
theorem read_write_other (m : Memory) (x y : Nat) (v : Byte) (h : y ≠ x) :
    Memory.read (Memory.write m x v) y = Memory.read m y := by
  induction m with
  | nil => simp [Memory.write, Memory.read, h]
  | cons c m ih =>
    obtain ⟨a, b⟩ := c
    unfold Memory.write
    split
    · simp [Memory.read, h]
    · split
      · rename_i e
        subst e
        simp [Memory.read, h]
      · simp [Memory.read, ih]

theorem wfFrom_mono {m : Memory} {low low' : Nat} (h : low' ≤ low) (hm : Memory.wfFrom low m = true) :
    Memory.wfFrom low' m = true := by
  cases m with
  | nil => rfl
  | cons c m =>
    obtain ⟨a, b⟩ := c
    simp only [Memory.wfFrom, Bool.and_eq_true, decide_eq_true_eq] at hm ⊢
    exact ⟨⟨h.trans hm.1.1, hm.1.2⟩, hm.2⟩

theorem wfFrom_write (m : Memory) (low x : Nat) (v : Byte) (hl : low ≤ x) (hx : x < 2 ^ 32)
    (hm : Memory.wfFrom low m = true) : Memory.wfFrom low (Memory.write m x v) = true := by
  induction m generalizing low with
  | nil => simpa [Memory.write, Memory.wfFrom, hl] using hx
  | cons c m ih =>
    obtain ⟨a, b⟩ := c
    simp only [Memory.wfFrom, Bool.and_eq_true, decide_eq_true_eq] at hm
    unfold Memory.write
    split
    · rename_i hlt
      simp only [Memory.wfFrom, Bool.and_eq_true, decide_eq_true_eq]
      exact ⟨⟨hl, hx⟩, ⟨hlt, hm.1.2⟩, hm.2⟩
    · split
      · rename_i e
        subst e
        simp only [Memory.wfFrom, Bool.and_eq_true, decide_eq_true_eq]
        exact ⟨⟨hl, hx⟩, hm.2⟩
      · simp only [Memory.wfFrom, Bool.and_eq_true, decide_eq_true_eq]
        exact ⟨hm.1, ih (a + 1) (by omega) hm.2⟩

/-- A write keeps the canonical form. -/
theorem wf_write (m : Memory) (x : Word) (v : Byte) (hm : Memory.wf m = true) :
    Memory.wf (Memory.write m x.toNat v) = true :=
  wfFrom_write m 0 x.toNat v (Nat.zero_le _) x.isLt hm

theorem wf_foldl_write (ks : List Nat) (m : Memory) (a : Word) (v : Word) (hm : Memory.wf m = true) :
    Memory.wf (ks.foldl (fun m k => Memory.write m (a + BitVec.ofNat 32 k).toNat (byteOf v k)) m) = true := by
  induction ks generalizing m with
  | nil => exact hm
  | cons k ks ih => exact ih _ (wf_write m _ _ hm)

/-- Storing a value keeps the canonical form. -/
theorem wf_writeBytes (m : Memory) (a : Word) (n : Nat) (v : Word) (hm : Memory.wf m = true) :
    Memory.wf (writeBytes m a n v) = true := wf_foldl_write _ m a v hm

/-- The memory right after reset has the canonical form. -/
theorem wf_reset : Memory.wf State.reset.mem = true := rfl

/-- Storing one more byte. -/
theorem writeBytes_succ (m : Memory) (a : Word) (n : Nat) (v : Word) :
    writeBytes m a (n + 1) v = Memory.write (writeBytes m a n v) (a + BitVec.ofNat 32 n).toNat (byteOf v n) := by
  simp [writeBytes, List.range_succ]

/-- Storing leaves every byte outside the stored ones alone. -/
theorem read_writeBytes_other (m : Memory) (a : Word) (n : Nat) (v x : Word)
    (h : ∀ k < n, x ≠ a + BitVec.ofNat 32 k) :
    Memory.read (writeBytes m a n v) x.toNat = Memory.read m x.toNat := by
  induction n with
  | zero => simp [writeBytes]
  | succ n ih =>
    rw [writeBytes_succ, read_write_other, ih fun k hk => h k (Nat.lt_succ_of_lt hk)]
    exact fun e => h n (Nat.lt_succ_self n) (BitVec.eq_of_toNat_eq e)

theorem addr_inj (a : Word) {j k : Nat} (hj : j < 2 ^ 32) (hk : k < 2 ^ 32)
    (h : a + BitVec.ofNat 32 j = a + BitVec.ofNat 32 k) : j = k := by
  have h' := congrArg BitVec.toNat (add_left_cancel h)
  rwa [BitVec.toNat_ofNat, BitVec.toNat_ofNat, Nat.mod_eq_of_lt hj, Nat.mod_eq_of_lt hk] at h'

/-- Each stored byte reads back: byte k of the value at `u32(a + k)`. -/
theorem read_writeBytes_stored (m : Memory) (a : Word) (n : Nat) (v : Word) (hn : n ≤ 2 ^ 32) (k : Nat) (hk : k < n) :
    Memory.read (writeBytes m a n v) (a + BitVec.ofNat 32 k).toNat = some (byteOf v k) := by
  induction n with
  | zero => omega
  | succ n ih =>
    rw [writeBytes_succ]
    by_cases e : k = n
    · subst e
      exact read_write_same _ _ _
    · rw [read_write_other, ih (by omega) (by omega)]
      intro h
      exact e (addr_inj a (by omega) (by omega) (BitVec.eq_of_toNat_eq h))

end Sys2Proof.Machine
end

