-- ==== Sys2Proof/Laws/Ops.lean ====
section
/-! SUPPORT. One lemma for each shared operation that says once everything it can do: the memory primitives, the operand forms,
the gas charge and the settling of a step. -/

namespace Sys2Proof.Machine

/-! ### The byte addresses of an access -/

theorem mem_byteAddrs (a : Word) (n : Nat) (x : Word) : x ∈ byteAddrs a n ↔ ∃ k < n, a + BitVec.ofNat 32 k = x := by
  simp [byteAddrs]

theorem byteAddrs_succ (a : Word) (n : Nat) : byteAddrs a (n + 1) = byteAddrs a n ++ [a + BitVec.ofNat 32 n] := by
  simp [byteAddrs, List.range_succ]

/-- A search of the byte addresses finds nothing exactly when no byte of the access meets the test. -/
theorem find_byteAddrs_none (a : Word) (n : Nat) (p : Word → Bool) :
    (byteAddrs a n).find? p = none ↔ ∀ k < n, p (a + BitVec.ofNat 32 k) = false := by
  simp only [List.find?_eq_none, mem_byteAddrs]
  constructor
  · intro h k hk
    simpa using h _ ⟨k, hk, rfl⟩
  · rintro h x ⟨k, hk, rfl⟩
    simp [h k hk]

/-- A search of the byte addresses finds the first byte that meets the test. -/
theorem find_byteAddrs_first (a : Word) (n : Nat) (p : Word → Bool) (k : Nat) (hk : k < n)
    (hp : p (a + BitVec.ofNat 32 k) = true) (hj : ∀ j < k, p (a + BitVec.ofNat 32 j) = false) :
    (byteAddrs a n).find? p = some (a + BitVec.ofNat 32 k) := by
  induction n with
  | zero => omega
  | succ n ih =>
    rw [byteAddrs_succ, List.find?_append]
    by_cases e : k = n
    · subst e
      rw [(find_byteAddrs_none a k p).2 hj]
      simp [hp]
    · rw [ih (by omega)]
      simp

theorem find_byteAddrs_some (a : Word) (n : Nat) (p : Word → Bool) (x : Word) (h : (byteAddrs a n).find? p = some x) :
    (∃ k < n, a + BitVec.ofNat 32 k = x) ∧ p x = true :=
  ⟨(mem_byteAddrs a n x).1 (List.mem_of_find?_eq_some h), List.find?_some h⟩

/-! ### MemRead and MemWrite -/

theorem filterMap_byteAddrs (s : State) (a : Word) (n : Nat) (b : Nat → Byte)
    (h : ∀ k < n, s.byteAt (a + BitVec.ofNat 32 k) = some (b k)) :
    (byteAddrs a n).filterMap s.byteAt = (List.range n).map b := by
  induction n with
  | zero => rfl
  | succ n ih =>
    rw [byteAddrs_succ, List.filterMap_append, ih fun k hk => h k (by omega), List.range_succ, List.map_append]
    simp [h n (by omega)]

/-- A read of readable bytes gives their little-endian value. -/
theorem memRead_readable (s : State) (a : Word) (n : Nat) (b : Nat → Byte) (h : Readable s a n b) :
    memRead s a n = .ok (le ((List.range n).map b)) := by
  have h1 : (byteAddrs a n).find? (fun x => decide (s.accessOf x = .noAccess)) = none :=
    (find_byteAddrs_none _ _ _).2 fun k hk => by simpa using (h k hk).1
  have h2 : (byteAddrs a n).find? (fun x => (s.byteAt x).isNone) = none :=
    (find_byteAddrs_none _ _ _).2 fun k hk => by simp [(h k hk).2]
  rw [memRead, h1]
  simp only [h2, filterMap_byteAddrs s a n b fun k hk => (h k hk).2]

/-- A read that answers found every byte readable. -/
theorem memRead_ok (s : State) (a : Word) (n v : Nat) (h : memRead s a n = .ok v) : ∃ b, Readable s a n b := by
  unfold memRead at h
  split at h
  · cases h
  · rename_i h1
    split at h
    · cases h
    · rename_i h2
      rw [find_byteAddrs_none] at h1 h2
      refine ⟨fun k => (s.byteAt (a + BitVec.ofNat 32 k)).getD 0#8, fun k hk => ⟨by simpa using h1 k hk, ?_⟩⟩
      have := h2 k hk
      cases e : s.byteAt (a + BitVec.ofNat 32 k) <;> simp_all

/-- A read faults at the first byte with no right. -/
theorem memRead_inaccessible (s : State) (a : Word) (n k : Nat) (hk : k < n)
    (h : s.accessOf (a + BitVec.ofNat 32 k) = .noAccess)
    (hj : ∀ j < k, s.accessOf (a + BitVec.ofNat 32 j) ≠ .noAccess) :
    memRead s a n = .error (.memoryInaccessible (a + BitVec.ofNat 32 k)) := by
  rw [memRead, find_byteAddrs_first a n _ k hk (by simpa using h) fun j hj' => by simpa using hj j hj']

/-- A read of bytes that all have a right faults at the first one with no value. -/
theorem memRead_uninitialised (s : State) (a : Word) (n k : Nat) (hk : k < n)
    (hr : ∀ j < n, s.accessOf (a + BitVec.ofNat 32 j) ≠ .noAccess)
    (h : s.byteAt (a + BitVec.ofNat 32 k) = none) (hj : ∀ j < k, s.byteAt (a + BitVec.ofNat 32 j) ≠ none) :
    memRead s a n = .error (.memoryUninitialised (a + BitVec.ofNat 32 k)) := by
  have h1 : (byteAddrs a n).find? (fun x => decide (s.accessOf x = .noAccess)) = none :=
    (find_byteAddrs_none _ _ _).2 fun j hj => by simpa using hr j hj
  have h2 : (byteAddrs a n).find? (fun x => (s.byteAt x).isNone) = some (a + BitVec.ofNat 32 k) :=
    find_byteAddrs_first a n _ k hk (by simp [h]) fun j hj' => by
      cases e : s.byteAt (a + BitVec.ofNat 32 j) with
      | none => exact absurd e (hj j hj')
      | some b => rfl
  rw [memRead, h1]
  simp only [h2]

/-- A store to writable bytes stores them all. -/
theorem memWrite_writable (s : State) (a : Word) (n : Nat) (v : Word) (h : Writable s a n) :
    memWrite s a n v = .ok (s.setMem (writeBytes s.mem a n v)) := by
  rw [memWrite, (find_byteAddrs_none _ _ _).2 fun k hk => by simp [h k hk]]

/-- A store that answers found every byte writable and stored them all. -/
theorem memWrite_ok (s : State) (a : Word) (n : Nat) (v : Word) (t : State) (h : memWrite s a n v = .ok t) :
    Writable s a n ∧ t = s.setMem (writeBytes s.mem a n v) := by
  unfold memWrite at h
  split at h
  · cases h
  · rename_i h1
    rw [find_byteAddrs_none] at h1
    cases h
    exact ⟨fun k hk => by simpa using h1 k hk, rfl⟩

/-- A store faults at the first byte that may not be written. -/
theorem memWrite_inaccessible (s : State) (a : Word) (n : Nat) (v : Word) (k : Nat) (hk : k < n)
    (h : s.accessOf (a + BitVec.ofNat 32 k) ≠ .write) (hj : ∀ j < k, s.accessOf (a + BitVec.ofNat 32 j) = .write) :
    memWrite s a n v = .error (.memoryInaccessible (a + BitVec.ofNat 32 k)) := by
  rw [memWrite, find_byteAddrs_first a n _ k hk (by simpa using h) fun j hj' => by simpa using hj j hj']

/-- A byte of a value, by arithmetic. -/
theorem byteOf_eq (v : Word) (k : Nat) : byteOf v k = BitVec.ofNat 8 (v.toNat / 256 ^ k) := by
  apply BitVec.eq_of_toNat_eq
  have e : (2 : Nat) ^ (8 * k) = 256 ^ k := by rw [Nat.pow_mul]
  simp [byteOf, Nat.shiftRight_eq_div_pow, e]

/-- What a store leaves: the stored bytes read back, every other byte reads as before. -/
theorem setMem_writeBytes_stores (s : State) (a : Word) (n : Nat) (v : Word) (hn : n ≤ 2 ^ 32) :
    (∀ k < n, (s.setMem (writeBytes s.mem a n v)).byteAt (a + BitVec.ofNat 32 k) =
      some (BitVec.ofNat 8 (v.toNat / 256 ^ k))) ∧
    ∀ x : Word, (∀ k < n, x ≠ a + BitVec.ofNat 32 k) →
      (s.setMem (writeBytes s.mem a n v)).byteAt x = s.byteAt x :=
  ⟨fun k hk => by rw [← byteOf_eq]; exact read_writeBytes_stored s.mem a n v hn k hk,
   fun x hx => read_writeBytes_other s.mem a n v x hx⟩

/-- A memory primitive's answer goes on, or its fault is raised. -/
theorem afterMem_next {α : Type} (r : Except ModelFault α) (go : α → State) (t : State) (h : afterMem r go = .next t) :
    ∃ x, r = .ok x ∧ t = go x := by
  cases r with
  | ok x => exact ⟨x, rfl, by cases h; rfl⟩
  | error f => cases h

theorem afterMem_cases {α : Type} (r : Except ModelFault α) (go : α → State) :
    (∃ x, r = .ok x ∧ afterMem r go = .next (go x)) ∨ ∃ f, r = .error f ∧ afterMem r go = .fault (.model f) := by
  cases r with
  | ok x => exact .inl ⟨x, rfl, rfl⟩
  | error f => exact .inr ⟨f, rfl, rfl⟩

/-! ### The operand forms -/

theorem sameControl_setReg_advance (s : State) (d : Reg) (v : Word) (skip : Nat) (ir : InstructionResult) :
    SameControl s ((s.setReg d v).advance skip ir) := ⟨by simp, by simp, by simp, by simp, by simp, by simp⟩

/-- A register write followed by the sequential pc advance is the whole effect. -/
theorem writesReg_setReg_advance (s : State) (d : Reg) (v : Word) (skip : Nat) :
    WritesReg s ((s.setReg d v).advance skip .seq) d v (s.pc + BitVec.ofNat 32 skip) :=
  ⟨by simp, fun r hr => by simp [setReg_reg_other s d r v hr], by simp [u32_add_nat], fun a => by simp,
    sameControl_setReg_advance s d v skip .seq⟩

/-- The pc advance alone is the whole effect. -/
theorem movesPc_advance (s : State) (skip : Nat) (ir : InstructionResult) :
    MovesPc s (s.advance skip ir) (s.advance skip ir).pc :=
  ⟨fun r => by simp, rfl, fun a => by simp, ⟨by simp, by simp, by simp, by simp, by simp, by simp⟩⟩

/-- A narrowed sum of a word and a signed reading is the wrapping sum. -/
theorem u32_add_s32 (a b : Word) : u32 (a.toNat + s32 b) = a + b := by
  apply BitVec.eq_of_toInt_eq
  simp only [u32, s32, BitVec.toInt_ofInt, BitVec.toInt_add, BitVec.toInt_eq_toNat_bmod a, Int.bmod_add_bmod]

/-- The branch target is `pc + offset` with wrap. -/
theorem branchTarget_eq (s : State) (offset : Imm) : branchTarget s offset = s.pc + offset.val := u32_add_s32 _ _

/-- The effective address is `base + immX` with wrap. -/
theorem effAddr_eq (base : Word) (immX : Imm) : effAddr base immX = base + immX.val := by
  apply BitVec.eq_of_toNat_eq
  rw [effAddr, u32, ← Int.natCast_add, BitVec.ofInt_natCast]
  simp

/-- What a store form can do. -/
theorem storesBytes_setMem_advance (s : State) (a : Word) (n : Nat) (v : Word) (skip : Nat) (hn : n ≤ 2 ^ 32) :
    StoresBytes s ((s.setMem (writeBytes s.mem a n v)).advance skip .seq) a n v (s.pc + BitVec.ofNat 32 skip) :=
  ⟨fun k hk => by simpa using (setMem_writeBytes_stores s a n v hn).1 k hk,
   fun x hx => by simpa using (setMem_writeBytes_stores s a n v hn).2 x hx,
   fun r => by simp, by simp [u32_add_nat], ⟨by simp, by simp, by simp, by simp, by simp, by simp⟩⟩

/-! ### What each operand form can do -/

/-- The sequential pc advance alone. -/
theorem movesPc_advance_seq (s : State) (skip : Nat) : MovesPc s (s.advance skip .seq) (s.pc + BitVec.ofNat 32 skip) := by
  have h := movesPc_advance s skip .seq
  rwa [advance_seq_pc, u32_add_nat] at h

/-- A jump alone. -/
theorem movesPc_advance_jump (s : State) (skip : Nat) (target : Word) : MovesPc s (s.advance skip (.jump target)) target :=
  movesPc_advance s skip (.jump target)

theorem threeRegsOp_next (f : Word → Word → Word) (firstReg secondReg thirdReg : Reg) (s t : State)
    (h : threeRegsOp f firstReg secondReg thirdReg s = .next t) :
    WritesReg s t thirdReg (f (s.reg secondReg) (s.reg firstReg)) (s.pc + 3#32) := by
  cases h
  exact writesReg_setReg_advance s thirdReg _ 3

theorem twoRegs1ImmOp_next (f : Word → Word → Word) (firstReg secondReg : Reg) (immX : Imm) (s t : State)
    (h : twoRegs1ImmOp f firstReg secondReg immX s = .next t) :
    WritesReg s t secondReg (f (s.reg firstReg) immX.val) (s.pc + BitVec.ofNat 32 (2 + immX.len)) := by
  cases h
  exact writesReg_setReg_advance s secondReg _ _

theorem twoRegsMove_next (firstReg secondReg : Reg) (s t : State) (h : twoRegsMove firstReg secondReg s = .next t) :
    WritesReg s t secondReg (s.reg firstReg) (s.pc + 2#32) := by
  cases h
  exact writesReg_setReg_advance s secondReg _ 2

theorem threeRegsMoveIf_next (test : Word → Bool) (firstReg secondReg thirdReg : Reg) (s t : State)
    (h : threeRegsMoveIf test firstReg secondReg thirdReg s = .next t) :
    (test (s.reg firstReg) = true ∧ WritesReg s t thirdReg (s.reg secondReg) (s.pc + 3#32)) ∨
    (test (s.reg firstReg) = false ∧ MovesPc s t (s.pc + 3#32)) := by
  unfold threeRegsMoveIf at h
  cases e : test (s.reg firstReg) <;> rw [e] at h <;> cases h
  · exact .inr ⟨rfl, movesPc_advance_seq s 3⟩
  · exact .inl ⟨rfl, writesReg_setReg_advance s thirdReg _ 3⟩

theorem twoRegs1ImmMoveIf_next (test : Word → Bool) (firstReg secondReg : Reg) (immX : Imm) (s t : State)
    (h : twoRegs1ImmMoveIf test firstReg secondReg immX s = .next t) :
    (test (s.reg firstReg) = true ∧ WritesReg s t secondReg immX.val (s.pc + BitVec.ofNat 32 (2 + immX.len))) ∨
    (test (s.reg firstReg) = false ∧ MovesPc s t (s.pc + BitVec.ofNat 32 (2 + immX.len))) := by
  unfold twoRegs1ImmMoveIf at h
  cases e : test (s.reg firstReg) <;> rw [e] at h <;> cases h
  · exact .inr ⟨rfl, movesPc_advance_seq s _⟩
  · exact .inl ⟨rfl, writesReg_setReg_advance s secondReg _ _⟩

theorem branchRegImm_next (cond : Word → Word → Bool) (reg : Reg) (immX offset : Imm) (s t : State)
    (h : branchRegImm cond reg immX offset s = .next t) :
    (cond (s.reg reg) immX.val = true ∧ MovesPc s t (branchTarget s offset)) ∨
    (cond (s.reg reg) immX.val = false ∧ MovesPc s t (s.pc + BitVec.ofNat 32 (2 + immX.len + offset.len))) := by
  unfold branchRegImm at h
  cases e : cond (s.reg reg) immX.val <;> rw [e] at h <;> cases h
  · exact .inr ⟨rfl, movesPc_advance_seq s _⟩
  · exact .inl ⟨rfl, movesPc_advance_jump s _ _⟩

theorem branchRegReg_next (cond : Word → Word → Bool) (firstReg secondReg : Reg) (offset : Imm) (s t : State)
    (h : branchRegReg cond firstReg secondReg offset s = .next t) :
    (cond (s.reg secondReg) (s.reg firstReg) = true ∧ MovesPc s t (branchTarget s offset)) ∨
    (cond (s.reg secondReg) (s.reg firstReg) = false ∧ MovesPc s t (s.pc + BitVec.ofNat 32 (2 + offset.len))) := by
  unfold branchRegReg at h
  cases e : cond (s.reg secondReg) (s.reg firstReg) <;> rw [e] at h <;> cases h
  · exact .inr ⟨rfl, movesPc_advance_seq s _⟩
  · exact .inl ⟨rfl, movesPc_advance_jump s _ _⟩

/-- A load that goes on read bytes it could read, and wrote their value. -/
theorem load_next (s t : State) (a : Word) (n : Nat) (ext : Nat → Word) (d : Reg) (skip : Nat)
    (h : afterMem (memRead s a n) (fun v => (s.setReg d (ext v)).advance skip .seq) = .next t) :
    ∃ b, Readable s a n b ∧ WritesReg s t d (ext (le ((List.range n).map b))) (s.pc + BitVec.ofNat 32 skip) := by
  obtain ⟨v, hv, rfl⟩ := afterMem_next _ _ _ h
  obtain ⟨b, hb⟩ := memRead_ok s a n v hv
  rw [memRead_readable s a n b hb] at hv
  cases hv
  exact ⟨b, hb, writesReg_setReg_advance s d _ skip⟩

/-- A load of readable bytes goes on. -/
theorem load_of_readable (s : State) (a : Word) (n : Nat) (ext : Nat → Word) (d : Reg) (skip : Nat) (b : Nat → Byte)
    (h : Readable s a n b) :
    afterMem (memRead s a n) (fun v => (s.setReg d (ext v)).advance skip .seq) =
      .next ((s.setReg d (ext (le ((List.range n).map b)))).advance skip .seq) := by
  rw [memRead_readable s a n b h]
  rfl

theorem loadAbs_next (n : Nat) (ext : Nat → Word) (reg : Reg) (immX : Imm) (s t : State)
    (h : loadAbs n ext reg immX s = .next t) :
    ∃ b, Readable s (effAddr absBase immX) n b ∧
      WritesReg s t reg (ext (le ((List.range n).map b))) (s.pc + BitVec.ofNat 32 (2 + immX.len)) :=
  load_next s t _ n ext reg _ h

theorem loadInd_next (n : Nat) (ext : Nat → Word) (firstReg secondReg : Reg) (immX : Imm) (s t : State)
    (h : loadInd n ext firstReg secondReg immX s = .next t) :
    ∃ b, Readable s (effAddr (s.reg firstReg) immX) n b ∧
      WritesReg s t secondReg (ext (le ((List.range n).map b))) (s.pc + BitVec.ofNat 32 (2 + immX.len)) :=
  load_next s t _ n ext secondReg _ h

/-- A store that goes on could write its bytes, and stored them. -/
theorem store_next (s t : State) (a : Word) (n : Nat) (v : Word) (skip : Nat) (hn : n ≤ 2 ^ 32)
    (h : afterMem (memWrite s a n v) (fun u => u.advance skip .seq) = .next t) :
    Writable s a n ∧ StoresBytes s t a n v (s.pc + BitVec.ofNat 32 skip) := by
  obtain ⟨u, hu, rfl⟩ := afterMem_next _ _ _ h
  obtain ⟨hw, rfl⟩ := memWrite_ok s a n v u hu
  exact ⟨hw, storesBytes_setMem_advance s a n v skip hn⟩

/-- A store to writable bytes goes on. -/
theorem store_of_writable (s : State) (a : Word) (n : Nat) (v : Word) (skip : Nat) (h : Writable s a n) :
    afterMem (memWrite s a n v) (fun u => u.advance skip .seq) =
      .next ((s.setMem (writeBytes s.mem a n v)).advance skip .seq) := by
  rw [memWrite_writable s a n v h]
  rfl

theorem storeAbs_next (n : Nat) (reg : Reg) (immX : Imm) (s t : State) (hn : n ≤ 2 ^ 32)
    (h : storeAbs n reg immX s = .next t) :
    Writable s (effAddr absBase immX) n ∧
      StoresBytes s t (effAddr absBase immX) n (s.reg reg) (s.pc + BitVec.ofNat 32 (2 + immX.len)) :=
  store_next s t _ n _ _ hn h

theorem storeImmAbs_next (n : Nat) (immX immY : Imm) (s t : State) (hn : n ≤ 2 ^ 32)
    (h : storeImmAbs n immX immY s = .next t) :
    Writable s (effAddr absBase immX) n ∧
      StoresBytes s t (effAddr absBase immX) n immY.val (s.pc + BitVec.ofNat 32 (2 + immX.len + immY.len)) :=
  store_next s t _ n _ _ hn h

theorem storeImmInd_next (n : Nat) (reg : Reg) (immX immY : Imm) (s t : State) (hn : n ≤ 2 ^ 32)
    (h : storeImmInd n reg immX immY s = .next t) :
    Writable s (effAddr (s.reg reg) immX) n ∧
      StoresBytes s t (effAddr (s.reg reg) immX) n immY.val (s.pc + BitVec.ofNat 32 (2 + immX.len + immY.len)) :=
  store_next s t _ n _ _ hn h

theorem storeInd_next (n : Nat) (firstReg secondReg : Reg) (immX : Imm) (s t : State) (hn : n ≤ 2 ^ 32)
    (h : storeInd n firstReg secondReg immX s = .next t) :
    Writable s (effAddr (s.reg firstReg) immX) n ∧
      StoresBytes s t (effAddr (s.reg firstReg) immX) n (s.reg secondReg) (s.pc + BitVec.ofNat 32 (2 + immX.len)) :=
  store_next s t _ n _ _ hn h

/-! ### The settling of a step -/

/-- The execution raises the model fault r under the decoded opcode: a memory fault, or a refusal by rule (spec/60_exceptions.md R437). -/
def Raises (op : Byte) (r : ModelFault) (answer : Result) : Prop :=
  answer = .fault (.model r) ∨ (answer = .fault .refusedByRule ∧ r = .refused op)

@[simp] theorem settle_of_next (before : State) (op : Byte) (t : State) : settle before op (.next t) = .next t := rfl

/-- A model fault that is raised is recorded in the state before the step. -/
theorem settle_of_raises (before : State) (op : Byte) (r : ModelFault) (answer : Result) (h : Raises op r answer) :
    settle before op answer = .next (before.recordFault r) := by
  obtain rfl | ⟨rfl, rfl⟩ := h <;> rfl

/-- A settled answer is the next state of the execution, or the state before with a model fault recorded. -/
theorem settle_next (before : State) (op : Byte) (answer : Result) (t : State) (h : settle before op answer = .next t) :
    answer = .next t ∨ ∃ r, Raises op r answer ∧ t = before.recordFault r := by
  cases answer with
  | next u => exact .inl h
  | fault f =>
    cases f with
    | model r => exact .inr ⟨r, .inl rfl, by cases h; rfl⟩
    | refusedByRule => exact .inr ⟨_, .inr ⟨rfl, rfl⟩, by cases h; rfl⟩
    | notRunning st => cases h
    | faultRecorded r => cases h
  | refused w => cases h

end Sys2Proof.Machine
end

