-- ==== Sys2Proof/Laws/Exec.lean ====
section
/-! SUPPORT. Said once: everything the execution of an instruction can do. Whole-machine facts follow from `execAnswer` by a case
split over its six forms instead of over the 88 instructions. -/

namespace Sys2Proof.Machine

/-- The forms of what `exec i s` can answer. -/
inductive ExecAnswer (i : Instr) (s : State) : Result → Prop where
  /-- New registers and the pc advance; nothing else. -/
  | regs (regs : Vector Word 13) (ir : InstructionResult) (notTrap : i ≠ .trap) (notEcalli : ∀ x, i ≠ .ecalli x) :
      ExecAnswer i s (.next (State.advance { s with regs := regs } i.skip ir))
  /-- `trap`. -/
  | trap (isTrap : i = .trap) : ExecAnswer i s (.next (s.withStatus .trapped))
  /-- `ecalli`. -/
  | ecalli (immX : Imm) (isEcalli : i = .ecalli immX) :
      ExecAnswer i s (.next (((s.setHostCall immX.val).withStatus .host).advance i.skip .seq))
  /-- A store. -/
  | store (a : Word) (n : Nat) (v : Word) (access : storeAccess i s = some (a, n, v)) (width : n ≤ 4)
      (writable : Writable s a n) :
      ExecAnswer i s (.next ((s.setMem (writeBytes s.mem a n v)).advance i.skip .seq))
  /-- A memory fault of execution. -/
  | modelFault (f : ModelFault) : ExecAnswer i s (.fault (.model f))
  /-- A refusal by rule. -/
  | refusedByRule : ExecAnswer i s (.fault .refusedByRule)

/-- A load form answers new registers or a model fault. -/
theorem afterMem_load_answer (i : Instr) (s : State) (r : Except ModelFault Nat) (d : Reg) (ext : Nat → Word)
    (h1 : i ≠ .trap) (h2 : ∀ x, i ≠ .ecalli x) :
    ExecAnswer i s (afterMem r fun v => (s.setReg d (ext v)).advance i.skip .seq) := by
  cases r with
  | ok v => exact .regs (s.regs.set d (ext v)) .seq h1 h2
  | error f => exact .modelFault f

/-- A store form stores its bytes or answers a model fault. -/
theorem afterMem_store_answer (i : Instr) (s : State) (a : Word) (n : Nat) (v : Word)
    (access : storeAccess i s = some (a, n, v)) (hn : n ≤ 4) :
    ExecAnswer i s (afterMem (memWrite s a n v) fun t => t.advance i.skip .seq) := by
  cases e : memWrite s a n v with
  | ok t =>
    obtain ⟨hw, rfl⟩ := memWrite_ok s a n v t e
    exact .store a n v access hn hw
  | error f => exact .modelFault f

/-- A conditional register write is a choice of new registers. -/
theorem moveIf_answer (i : Instr) (s : State) (c : Bool) (d : Reg) (v : Word) (h1 : i ≠ .trap) (h2 : ∀ x, i ≠ .ecalli x) :
    ExecAnswer i s (.next ((if c then s.setReg d v else s).advance i.skip .seq)) := by
  cases c
  · exact .regs s.regs .seq h1 h2
  · exact .regs (s.regs.set d v) .seq h1 h2

/-- What `exec` can answer, for every instruction and state. -/
theorem execAnswer (i : Instr) (s : State) : ExecAnswer i s (exec i s) := by
  cases i with
  | trap => exact .trap rfl
  | loadIndU32 firstReg secondReg immX => exact afterMem_load_answer _ s _ _ _ nofun (fun _ => nofun)
  | addImm firstReg secondReg immX => exact .regs (s.regs.set _ _) _ nofun (fun _ => nofun)
  | storeIndU32 firstReg secondReg immX => exact afterMem_store_answer _ s _ _ _ rfl (by decide)
  | loadImm reg immX => exact .regs (s.regs.set _ _) _ nofun (fun _ => nofun)
  | jump offset => exact .regs s.regs _ nofun (fun _ => nofun)
  | loadImmJump reg immX offset => exact .regs (s.regs.set _ _) _ nofun (fun _ => nofun)
  | branchEqImm reg immX offset => exact .regs s.regs _ nofun (fun _ => nofun)
  | add firstReg secondReg thirdReg => exact .regs (s.regs.set _ _) _ nofun (fun _ => nofun)
  | shloLImm firstReg secondReg immX => exact .regs (s.regs.set _ _) _ nofun (fun _ => nofun)
  | loadU32 reg immX => exact afterMem_load_answer _ s _ _ _ nofun (fun _ => nofun)
  | loadIndU8 firstReg secondReg immX => exact afterMem_load_answer _ s _ _ _ nofun (fun _ => nofun)
  | or firstReg secondReg thirdReg => exact .regs (s.regs.set _ _) _ nofun (fun _ => nofun)
  | storeImmIndU32 reg immX immY => exact afterMem_store_answer _ s _ _ _ rfl (by decide)
  | shloRImm firstReg secondReg immX => exact .regs (s.regs.set _ _) _ nofun (fun _ => nofun)
  | branchNeImm reg immX offset => exact .regs s.regs _ nofun (fun _ => nofun)
  | storeIndU8 firstReg secondReg immX => exact afterMem_store_answer _ s _ _ _ rfl (by decide)
  | fallthrough => exact .regs s.regs _ nofun (fun _ => nofun)
  | andImm firstReg secondReg immX => exact .regs (s.regs.set _ _) _ nofun (fun _ => nofun)
  | jumpInd reg immX => exact .refusedByRule
  | sub firstReg secondReg thirdReg => exact .regs (s.regs.set _ _) _ nofun (fun _ => nofun)
  | loadIndI8 firstReg secondReg immX => exact afterMem_load_answer _ s _ _ _ nofun (fun _ => nofun)
  | storeU32 reg immX => exact afterMem_store_answer _ s _ _ _ rfl (by decide)
  | and firstReg secondReg thirdReg => exact .regs (s.regs.set _ _) _ nofun (fun _ => nofun)
  | branchEq firstReg secondReg offset => exact .regs s.regs _ nofun (fun _ => nofun)
  | sharRImm firstReg secondReg immX => exact .regs (s.regs.set _ _) _ nofun (fun _ => nofun)
  | storeImmIndU8 reg immX immY => exact afterMem_store_answer _ s _ _ _ rfl (by decide)
  | setLtUImm firstReg secondReg immX => exact .regs (s.regs.set _ _) _ nofun (fun _ => nofun)
  | xor firstReg secondReg thirdReg => exact .regs (s.regs.set _ _) _ nofun (fun _ => nofun)
  | storeIndU16 firstReg secondReg immX => exact afterMem_store_answer _ s _ _ _ rfl (by decide)
  | branchNe firstReg secondReg offset => exact .regs s.regs _ nofun (fun _ => nofun)
  | xorImm firstReg secondReg immX => exact .regs (s.regs.set _ _) _ nofun (fun _ => nofun)
  | branchLtSImm reg immX offset => exact .regs s.regs _ nofun (fun _ => nofun)
  | loadIndI16 firstReg secondReg immX => exact afterMem_load_answer _ s _ _ _ nofun (fun _ => nofun)
  | mul firstReg secondReg thirdReg => exact .regs (s.regs.set _ _) _ nofun (fun _ => nofun)
  | mulImm firstReg secondReg immX => exact .regs (s.regs.set _ _) _ nofun (fun _ => nofun)
  | setLtU firstReg secondReg thirdReg => exact .regs (s.regs.set _ _) _ nofun (fun _ => nofun)
  | loadIndU16 firstReg secondReg immX => exact afterMem_load_answer _ s _ _ _ nofun (fun _ => nofun)
  | storeImmU32 immX immY => exact afterMem_store_answer _ s _ _ _ rfl (by decide)
  | setGtUImm firstReg secondReg immX => exact .regs (s.regs.set _ _) _ nofun (fun _ => nofun)
  | negAddImm firstReg secondReg immX => exact .regs (s.regs.set _ _) _ nofun (fun _ => nofun)
  | branchGeU firstReg secondReg offset => exact .regs s.regs _ nofun (fun _ => nofun)
  | loadImmJumpInd firstReg secondReg immX immY => exact .refusedByRule
  | branchGeS firstReg secondReg offset => exact .regs s.regs _ nofun (fun _ => nofun)
  | branchLtUImm reg immX offset => exact .regs s.regs _ nofun (fun _ => nofun)
  | branchGeSImm reg immX offset => exact .regs s.regs _ nofun (fun _ => nofun)
  | branchLeSImm reg immX offset => exact .regs s.regs _ nofun (fun _ => nofun)
  | branchLtU firstReg secondReg offset => exact .regs s.regs _ nofun (fun _ => nofun)
  | branchLtS firstReg secondReg offset => exact .regs s.regs _ nofun (fun _ => nofun)
  | orImm firstReg secondReg immX => exact .regs (s.regs.set _ _) _ nofun (fun _ => nofun)
  | branchGtUImm reg immX offset => exact .regs s.regs _ nofun (fun _ => nofun)
  | shloR firstReg secondReg thirdReg => exact .regs (s.regs.set _ _) _ nofun (fun _ => nofun)
  | branchGeUImm reg immX offset => exact .regs s.regs _ nofun (fun _ => nofun)
  | branchGtSImm reg immX offset => exact .regs s.regs _ nofun (fun _ => nofun)
  | storeImmIndU16 reg immX immY => exact afterMem_store_answer _ s _ _ _ rfl (by decide)
  | shloL firstReg secondReg thirdReg => exact .regs (s.regs.set _ _) _ nofun (fun _ => nofun)
  | setLtSImm firstReg secondReg immX => exact .regs (s.regs.set _ _) _ nofun (fun _ => nofun)
  | mulUpperUU firstReg secondReg thirdReg => exact .regs (s.regs.set _ _) _ nofun (fun _ => nofun)
  | setLtS firstReg secondReg thirdReg => exact .regs (s.regs.set _ _) _ nofun (fun _ => nofun)
  | branchLeUImm reg immX offset => exact .regs s.regs _ nofun (fun _ => nofun)
  | loadU8 reg immX => exact afterMem_load_answer _ s _ _ _ nofun (fun _ => nofun)
  | setGtSImm firstReg secondReg immX => exact .regs (s.regs.set _ _) _ nofun (fun _ => nofun)
  | storeImmU8 immX immY => exact afterMem_store_answer _ s _ _ _ rfl (by decide)
  | mulUpperUUImm firstReg secondReg immX => exact .regs (s.regs.set _ _) _ nofun (fun _ => nofun)
  | divS firstReg secondReg thirdReg => exact .regs (s.regs.set _ _) _ nofun (fun _ => nofun)
  | mulUpperSSImm firstReg secondReg immX => exact .regs (s.regs.set _ _) _ nofun (fun _ => nofun)
  | loadI16 reg immX => exact afterMem_load_answer _ s _ _ _ nofun (fun _ => nofun)
  | mulUpperSS firstReg secondReg thirdReg => exact .regs (s.regs.set _ _) _ nofun (fun _ => nofun)
  | divU firstReg secondReg thirdReg => exact .regs (s.regs.set _ _) _ nofun (fun _ => nofun)
  | storeU16 reg immX => exact afterMem_store_answer _ s _ _ _ rfl (by decide)
  | remS firstReg secondReg thirdReg => exact .regs (s.regs.set _ _) _ nofun (fun _ => nofun)
  | storeU8 reg immX => exact afterMem_store_answer _ s _ _ _ rfl (by decide)
  | shloRImmAlt firstReg secondReg immX => exact .regs (s.regs.set _ _) _ nofun (fun _ => nofun)
  | remU firstReg secondReg thirdReg => exact .regs (s.regs.set _ _) _ nofun (fun _ => nofun)
  | loadI8 reg immX => exact afterMem_load_answer _ s _ _ _ nofun (fun _ => nofun)
  | shloLImmAlt firstReg secondReg immX => exact .regs (s.regs.set _ _) _ nofun (fun _ => nofun)
  | loadU16 reg immX => exact afterMem_load_answer _ s _ _ _ nofun (fun _ => nofun)
  | sharR firstReg secondReg thirdReg => exact .regs (s.regs.set _ _) _ nofun (fun _ => nofun)
  | ecalli immX => exact .ecalli immX rfl
  | storeImmU16 immX immY => exact afterMem_store_answer _ s _ _ _ rfl (by decide)
  | sharRImmAlt firstReg secondReg immX => exact .regs (s.regs.set _ _) _ nofun (fun _ => nofun)
  | mulUpperSU firstReg secondReg thirdReg => exact .regs (s.regs.set _ _) _ nofun (fun _ => nofun)
  | moveReg firstReg secondReg => exact .regs (s.regs.set _ _) _ nofun (fun _ => nofun)
  | cmovIz firstReg secondReg thirdReg => exact moveIf_answer _ s _ _ _ nofun (fun _ => nofun)
  | cmovNz firstReg secondReg thirdReg => exact moveIf_answer _ s _ _ _ nofun (fun _ => nofun)
  | cmovIzImm firstReg secondReg immX => exact moveIf_answer _ s _ _ _ nofun (fun _ => nofun)
  | cmovNzImm firstReg secondReg immX => exact moveIf_answer _ s _ _ _ nofun (fun _ => nofun)
  | sbrk firstReg secondReg => exact .refusedByRule

end Sys2Proof.Machine
end

