-- ==== Sys2Proof/Laws/PerInstr.lean ====
section
/-! SUPPORT. What holds of every instruction as syntax, one lemma per constructor (LAWS.json names the family).
`TableRow`: the shape of the instruction's mnemonic is that of its record, and builds the instruction from its own operands. -/

namespace Sys2Proof

/-- The instruction that a mnemonic's shape builds from a record of that shape; none for a record of another shape. -/
def Format.build : Format → Args → Option Instr
  | .noArgs mk, .noArgs => some mk
  | .oneImm mk, .oneImm immX => some (mk immX)
  | .twoImm mk, .twoImm immX immY => some (mk immX immY)
  | .oneOffset mk, .oneOffset offset => some (mk offset)
  | .oneReg1Imm mk, .oneReg1Imm reg immX => some (mk reg immX)
  | .oneReg2Imm mk, .oneReg2Imm reg immX immY => some (mk reg immX immY)
  | .oneReg1Imm1Offset mk, .oneReg1Imm1Offset reg immX offset => some (mk reg immX offset)
  | .twoRegs mk, .twoRegs firstReg secondReg => some (mk firstReg secondReg)
  | .twoRegs1Imm mk, .twoRegs1Imm firstReg secondReg immX => some (mk firstReg secondReg immX)
  | .twoRegs1Offset mk, .twoRegs1Offset firstReg secondReg offset => some (mk firstReg secondReg offset)
  | .twoRegs2Imm mk, .twoRegs2Imm firstReg secondReg immX immY => some (mk firstReg secondReg immX immY)
  | .threeRegs mk, .threeRegs firstReg secondReg thirdReg => some (mk firstReg secondReg thirdReg)
  | _, _ => none

/-- A record's encoding after the opcode is one byte shorter than what the instruction skips. -/
theorem Args.encode_length (a : Args) : a.encode.length + 1 = a.skip := by
  cases a <;> simp [Args.encode, Args.skip] <;> omega

/-- An instruction's encoding has the length that the pc advance skips (R112, spec/40_dispatch.md R175). -/
theorem encodeAs_length (op : Byte) (i : Instr) : (encodeAs op i).length = i.skip := by
  show i.args.encode.length + 1 = i.args.skip
  exact i.args.encode_length

end Sys2Proof

namespace Sys2Proof.Laws

/-- The shape of the instruction's mnemonic builds the instruction from its record, whose shape tag it is (spec/30_encoding.md R110,
R112, R150). -/
def TableRow.Statement (i : Instr) : Prop :=
  i.mnemonic.format.build i.args = some i ∧ i.args.shape = i.mnemonic.shape

theorem TableRow.trap :
    TableRow.Statement (.trap) := ⟨rfl, rfl⟩
theorem TableRow.loadIndU32 (firstReg secondReg : Reg) (immX : Imm) :
    TableRow.Statement (.loadIndU32 firstReg secondReg immX) := ⟨rfl, rfl⟩
theorem TableRow.addImm (firstReg secondReg : Reg) (immX : Imm) :
    TableRow.Statement (.addImm firstReg secondReg immX) := ⟨rfl, rfl⟩
theorem TableRow.storeIndU32 (firstReg secondReg : Reg) (immX : Imm) :
    TableRow.Statement (.storeIndU32 firstReg secondReg immX) := ⟨rfl, rfl⟩
theorem TableRow.loadImm (reg : Reg) (immX : Imm) :
    TableRow.Statement (.loadImm reg immX) := ⟨rfl, rfl⟩
theorem TableRow.jump (offset : Imm) :
    TableRow.Statement (.jump offset) := ⟨rfl, rfl⟩
theorem TableRow.loadImmJump (reg : Reg) (immX offset : Imm) :
    TableRow.Statement (.loadImmJump reg immX offset) := ⟨rfl, rfl⟩
theorem TableRow.branchEqImm (reg : Reg) (immX offset : Imm) :
    TableRow.Statement (.branchEqImm reg immX offset) := ⟨rfl, rfl⟩
theorem TableRow.add (firstReg secondReg thirdReg : Reg) :
    TableRow.Statement (.add firstReg secondReg thirdReg) := ⟨rfl, rfl⟩
theorem TableRow.shloLImm (firstReg secondReg : Reg) (immX : Imm) :
    TableRow.Statement (.shloLImm firstReg secondReg immX) := ⟨rfl, rfl⟩
theorem TableRow.loadU32 (reg : Reg) (immX : Imm) :
    TableRow.Statement (.loadU32 reg immX) := ⟨rfl, rfl⟩
theorem TableRow.loadIndU8 (firstReg secondReg : Reg) (immX : Imm) :
    TableRow.Statement (.loadIndU8 firstReg secondReg immX) := ⟨rfl, rfl⟩
theorem TableRow.or (firstReg secondReg thirdReg : Reg) :
    TableRow.Statement (.or firstReg secondReg thirdReg) := ⟨rfl, rfl⟩
theorem TableRow.storeImmIndU32 (reg : Reg) (immX immY : Imm) :
    TableRow.Statement (.storeImmIndU32 reg immX immY) := ⟨rfl, rfl⟩
theorem TableRow.shloRImm (firstReg secondReg : Reg) (immX : Imm) :
    TableRow.Statement (.shloRImm firstReg secondReg immX) := ⟨rfl, rfl⟩
theorem TableRow.branchNeImm (reg : Reg) (immX offset : Imm) :
    TableRow.Statement (.branchNeImm reg immX offset) := ⟨rfl, rfl⟩
theorem TableRow.storeIndU8 (firstReg secondReg : Reg) (immX : Imm) :
    TableRow.Statement (.storeIndU8 firstReg secondReg immX) := ⟨rfl, rfl⟩
theorem TableRow.fallthrough :
    TableRow.Statement (.fallthrough) := ⟨rfl, rfl⟩
theorem TableRow.andImm (firstReg secondReg : Reg) (immX : Imm) :
    TableRow.Statement (.andImm firstReg secondReg immX) := ⟨rfl, rfl⟩
theorem TableRow.jumpInd (reg : Reg) (immX : Imm) :
    TableRow.Statement (.jumpInd reg immX) := ⟨rfl, rfl⟩
theorem TableRow.sub (firstReg secondReg thirdReg : Reg) :
    TableRow.Statement (.sub firstReg secondReg thirdReg) := ⟨rfl, rfl⟩
theorem TableRow.loadIndI8 (firstReg secondReg : Reg) (immX : Imm) :
    TableRow.Statement (.loadIndI8 firstReg secondReg immX) := ⟨rfl, rfl⟩
theorem TableRow.storeU32 (reg : Reg) (immX : Imm) :
    TableRow.Statement (.storeU32 reg immX) := ⟨rfl, rfl⟩
theorem TableRow.and (firstReg secondReg thirdReg : Reg) :
    TableRow.Statement (.and firstReg secondReg thirdReg) := ⟨rfl, rfl⟩
theorem TableRow.branchEq (firstReg secondReg : Reg) (offset : Imm) :
    TableRow.Statement (.branchEq firstReg secondReg offset) := ⟨rfl, rfl⟩
theorem TableRow.sharRImm (firstReg secondReg : Reg) (immX : Imm) :
    TableRow.Statement (.sharRImm firstReg secondReg immX) := ⟨rfl, rfl⟩
theorem TableRow.storeImmIndU8 (reg : Reg) (immX immY : Imm) :
    TableRow.Statement (.storeImmIndU8 reg immX immY) := ⟨rfl, rfl⟩
theorem TableRow.setLtUImm (firstReg secondReg : Reg) (immX : Imm) :
    TableRow.Statement (.setLtUImm firstReg secondReg immX) := ⟨rfl, rfl⟩
theorem TableRow.xor (firstReg secondReg thirdReg : Reg) :
    TableRow.Statement (.xor firstReg secondReg thirdReg) := ⟨rfl, rfl⟩
theorem TableRow.storeIndU16 (firstReg secondReg : Reg) (immX : Imm) :
    TableRow.Statement (.storeIndU16 firstReg secondReg immX) := ⟨rfl, rfl⟩
theorem TableRow.branchNe (firstReg secondReg : Reg) (offset : Imm) :
    TableRow.Statement (.branchNe firstReg secondReg offset) := ⟨rfl, rfl⟩
theorem TableRow.xorImm (firstReg secondReg : Reg) (immX : Imm) :
    TableRow.Statement (.xorImm firstReg secondReg immX) := ⟨rfl, rfl⟩
theorem TableRow.branchLtSImm (reg : Reg) (immX offset : Imm) :
    TableRow.Statement (.branchLtSImm reg immX offset) := ⟨rfl, rfl⟩
theorem TableRow.loadIndI16 (firstReg secondReg : Reg) (immX : Imm) :
    TableRow.Statement (.loadIndI16 firstReg secondReg immX) := ⟨rfl, rfl⟩
theorem TableRow.mul (firstReg secondReg thirdReg : Reg) :
    TableRow.Statement (.mul firstReg secondReg thirdReg) := ⟨rfl, rfl⟩
theorem TableRow.mulImm (firstReg secondReg : Reg) (immX : Imm) :
    TableRow.Statement (.mulImm firstReg secondReg immX) := ⟨rfl, rfl⟩
theorem TableRow.setLtU (firstReg secondReg thirdReg : Reg) :
    TableRow.Statement (.setLtU firstReg secondReg thirdReg) := ⟨rfl, rfl⟩
theorem TableRow.loadIndU16 (firstReg secondReg : Reg) (immX : Imm) :
    TableRow.Statement (.loadIndU16 firstReg secondReg immX) := ⟨rfl, rfl⟩
theorem TableRow.storeImmU32 (immX immY : Imm) :
    TableRow.Statement (.storeImmU32 immX immY) := ⟨rfl, rfl⟩
theorem TableRow.setGtUImm (firstReg secondReg : Reg) (immX : Imm) :
    TableRow.Statement (.setGtUImm firstReg secondReg immX) := ⟨rfl, rfl⟩
theorem TableRow.negAddImm (firstReg secondReg : Reg) (immX : Imm) :
    TableRow.Statement (.negAddImm firstReg secondReg immX) := ⟨rfl, rfl⟩
theorem TableRow.branchGeU (firstReg secondReg : Reg) (offset : Imm) :
    TableRow.Statement (.branchGeU firstReg secondReg offset) := ⟨rfl, rfl⟩
theorem TableRow.loadImmJumpInd (firstReg secondReg : Reg) (immX immY : Imm) :
    TableRow.Statement (.loadImmJumpInd firstReg secondReg immX immY) := ⟨rfl, rfl⟩
theorem TableRow.branchGeS (firstReg secondReg : Reg) (offset : Imm) :
    TableRow.Statement (.branchGeS firstReg secondReg offset) := ⟨rfl, rfl⟩
theorem TableRow.branchLtUImm (reg : Reg) (immX offset : Imm) :
    TableRow.Statement (.branchLtUImm reg immX offset) := ⟨rfl, rfl⟩
theorem TableRow.branchGeSImm (reg : Reg) (immX offset : Imm) :
    TableRow.Statement (.branchGeSImm reg immX offset) := ⟨rfl, rfl⟩
theorem TableRow.branchLeSImm (reg : Reg) (immX offset : Imm) :
    TableRow.Statement (.branchLeSImm reg immX offset) := ⟨rfl, rfl⟩
theorem TableRow.branchLtU (firstReg secondReg : Reg) (offset : Imm) :
    TableRow.Statement (.branchLtU firstReg secondReg offset) := ⟨rfl, rfl⟩
theorem TableRow.branchLtS (firstReg secondReg : Reg) (offset : Imm) :
    TableRow.Statement (.branchLtS firstReg secondReg offset) := ⟨rfl, rfl⟩
theorem TableRow.orImm (firstReg secondReg : Reg) (immX : Imm) :
    TableRow.Statement (.orImm firstReg secondReg immX) := ⟨rfl, rfl⟩
theorem TableRow.branchGtUImm (reg : Reg) (immX offset : Imm) :
    TableRow.Statement (.branchGtUImm reg immX offset) := ⟨rfl, rfl⟩
theorem TableRow.shloR (firstReg secondReg thirdReg : Reg) :
    TableRow.Statement (.shloR firstReg secondReg thirdReg) := ⟨rfl, rfl⟩
theorem TableRow.branchGeUImm (reg : Reg) (immX offset : Imm) :
    TableRow.Statement (.branchGeUImm reg immX offset) := ⟨rfl, rfl⟩
theorem TableRow.branchGtSImm (reg : Reg) (immX offset : Imm) :
    TableRow.Statement (.branchGtSImm reg immX offset) := ⟨rfl, rfl⟩
theorem TableRow.storeImmIndU16 (reg : Reg) (immX immY : Imm) :
    TableRow.Statement (.storeImmIndU16 reg immX immY) := ⟨rfl, rfl⟩
theorem TableRow.shloL (firstReg secondReg thirdReg : Reg) :
    TableRow.Statement (.shloL firstReg secondReg thirdReg) := ⟨rfl, rfl⟩
theorem TableRow.setLtSImm (firstReg secondReg : Reg) (immX : Imm) :
    TableRow.Statement (.setLtSImm firstReg secondReg immX) := ⟨rfl, rfl⟩
theorem TableRow.mulUpperUU (firstReg secondReg thirdReg : Reg) :
    TableRow.Statement (.mulUpperUU firstReg secondReg thirdReg) := ⟨rfl, rfl⟩
theorem TableRow.setLtS (firstReg secondReg thirdReg : Reg) :
    TableRow.Statement (.setLtS firstReg secondReg thirdReg) := ⟨rfl, rfl⟩
theorem TableRow.branchLeUImm (reg : Reg) (immX offset : Imm) :
    TableRow.Statement (.branchLeUImm reg immX offset) := ⟨rfl, rfl⟩
theorem TableRow.loadU8 (reg : Reg) (immX : Imm) :
    TableRow.Statement (.loadU8 reg immX) := ⟨rfl, rfl⟩
theorem TableRow.setGtSImm (firstReg secondReg : Reg) (immX : Imm) :
    TableRow.Statement (.setGtSImm firstReg secondReg immX) := ⟨rfl, rfl⟩
theorem TableRow.storeImmU8 (immX immY : Imm) :
    TableRow.Statement (.storeImmU8 immX immY) := ⟨rfl, rfl⟩
theorem TableRow.mulUpperUUImm (firstReg secondReg : Reg) (immX : Imm) :
    TableRow.Statement (.mulUpperUUImm firstReg secondReg immX) := ⟨rfl, rfl⟩
theorem TableRow.divS (firstReg secondReg thirdReg : Reg) :
    TableRow.Statement (.divS firstReg secondReg thirdReg) := ⟨rfl, rfl⟩
theorem TableRow.mulUpperSSImm (firstReg secondReg : Reg) (immX : Imm) :
    TableRow.Statement (.mulUpperSSImm firstReg secondReg immX) := ⟨rfl, rfl⟩
theorem TableRow.loadI16 (reg : Reg) (immX : Imm) :
    TableRow.Statement (.loadI16 reg immX) := ⟨rfl, rfl⟩
theorem TableRow.mulUpperSS (firstReg secondReg thirdReg : Reg) :
    TableRow.Statement (.mulUpperSS firstReg secondReg thirdReg) := ⟨rfl, rfl⟩
theorem TableRow.divU (firstReg secondReg thirdReg : Reg) :
    TableRow.Statement (.divU firstReg secondReg thirdReg) := ⟨rfl, rfl⟩
theorem TableRow.storeU16 (reg : Reg) (immX : Imm) :
    TableRow.Statement (.storeU16 reg immX) := ⟨rfl, rfl⟩
theorem TableRow.remS (firstReg secondReg thirdReg : Reg) :
    TableRow.Statement (.remS firstReg secondReg thirdReg) := ⟨rfl, rfl⟩
theorem TableRow.storeU8 (reg : Reg) (immX : Imm) :
    TableRow.Statement (.storeU8 reg immX) := ⟨rfl, rfl⟩
theorem TableRow.shloRImmAlt (firstReg secondReg : Reg) (immX : Imm) :
    TableRow.Statement (.shloRImmAlt firstReg secondReg immX) := ⟨rfl, rfl⟩
theorem TableRow.remU (firstReg secondReg thirdReg : Reg) :
    TableRow.Statement (.remU firstReg secondReg thirdReg) := ⟨rfl, rfl⟩
theorem TableRow.loadI8 (reg : Reg) (immX : Imm) :
    TableRow.Statement (.loadI8 reg immX) := ⟨rfl, rfl⟩
theorem TableRow.shloLImmAlt (firstReg secondReg : Reg) (immX : Imm) :
    TableRow.Statement (.shloLImmAlt firstReg secondReg immX) := ⟨rfl, rfl⟩
theorem TableRow.loadU16 (reg : Reg) (immX : Imm) :
    TableRow.Statement (.loadU16 reg immX) := ⟨rfl, rfl⟩
theorem TableRow.sharR (firstReg secondReg thirdReg : Reg) :
    TableRow.Statement (.sharR firstReg secondReg thirdReg) := ⟨rfl, rfl⟩
theorem TableRow.ecalli (immX : Imm) :
    TableRow.Statement (.ecalli immX) := ⟨rfl, rfl⟩
theorem TableRow.storeImmU16 (immX immY : Imm) :
    TableRow.Statement (.storeImmU16 immX immY) := ⟨rfl, rfl⟩
theorem TableRow.sharRImmAlt (firstReg secondReg : Reg) (immX : Imm) :
    TableRow.Statement (.sharRImmAlt firstReg secondReg immX) := ⟨rfl, rfl⟩
theorem TableRow.mulUpperSU (firstReg secondReg thirdReg : Reg) :
    TableRow.Statement (.mulUpperSU firstReg secondReg thirdReg) := ⟨rfl, rfl⟩
theorem TableRow.moveReg (firstReg secondReg : Reg) :
    TableRow.Statement (.moveReg firstReg secondReg) := ⟨rfl, rfl⟩
theorem TableRow.cmovIz (firstReg secondReg thirdReg : Reg) :
    TableRow.Statement (.cmovIz firstReg secondReg thirdReg) := ⟨rfl, rfl⟩
theorem TableRow.cmovNz (firstReg secondReg thirdReg : Reg) :
    TableRow.Statement (.cmovNz firstReg secondReg thirdReg) := ⟨rfl, rfl⟩
theorem TableRow.cmovIzImm (firstReg secondReg : Reg) (immX : Imm) :
    TableRow.Statement (.cmovIzImm firstReg secondReg immX) := ⟨rfl, rfl⟩
theorem TableRow.cmovNzImm (firstReg secondReg : Reg) (immX : Imm) :
    TableRow.Statement (.cmovNzImm firstReg secondReg immX) := ⟨rfl, rfl⟩
theorem TableRow.sbrk (firstReg secondReg : Reg) :
    TableRow.Statement (.sbrk firstReg secondReg) := ⟨rfl, rfl⟩

end Sys2Proof.Laws
end

