-- ==== Sys2Proof/Laws/Step.lean ====
section
/-! SUPPORT. Said once: when a step exists, and everything a step can do. -/

namespace Sys2Proof.Machine

/-! ### Comparisons -/

theorem condEq_iff (a b : Word) : condEq a b = true ↔ a = b := decide_eq_true_iff
theorem condNe_iff (a b : Word) : condNe a b = true ↔ a ≠ b := decide_eq_true_iff
theorem condLtU_iff (a b : Word) : condLtU a b = true ↔ a.toNat < b.toNat := decide_eq_true_iff
theorem condLeU_iff (a b : Word) : condLeU a b = true ↔ a.toNat ≤ b.toNat := decide_eq_true_iff
theorem condGeU_iff (a b : Word) : condGeU a b = true ↔ a.toNat ≥ b.toNat := decide_eq_true_iff
theorem condGtU_iff (a b : Word) : condGtU a b = true ↔ a.toNat > b.toNat := decide_eq_true_iff
theorem condLtS_iff (a b : Word) : condLtS a b = true ↔ a.toInt < b.toInt := decide_eq_true_iff
theorem condLeS_iff (a b : Word) : condLeS a b = true ↔ a.toInt ≤ b.toInt := decide_eq_true_iff
theorem condGeS_iff (a b : Word) : condGeS a b = true ↔ a.toInt ≥ b.toInt := decide_eq_true_iff
theorem condGtS_iff (a b : Word) : condGtS a b = true ↔ a.toInt > b.toInt := decide_eq_true_iff

/-! ### The phases -/

/-- A state has no reason against a step exactly when it is Running with no fault recorded. -/
theorem noStep_none_iff (s : State) : noStep s = none ↔ s.status = .running ∧ s.fault = none := by
  unfold noStep
  cases s.fault <;> cases s.status <;> simp

/-- Running out of gas: negative gas under the policy `halt`. -/
theorem outOfGas_iff (s : State) : outOfGas s = true ↔ s.gas < 0 ∧ s.config.gasPolicy = .halt := by
  unfold outOfGas
  rw [Bool.and_eq_true, decide_eq_true_iff, decide_eq_true_iff]

theorem chargeGas_def (op : Byte) (s : State) : chargeGas op s = { s with gas := s.gas - gasCostOf s.config op } := rfl

/-! ### The decode phase -/

/-- The decode phase answers the code byte at the pc and the instruction that the decoder reads there. -/
theorem fetchDecode_ok (s : State) (op : Byte) (i : Instr) : fetchDecode s = .ok (op, i) ↔
    s.program.code[s.pc.toNat]? = some op ∧ decode s.config s.program s.pc.toNat = .ok i := by
  simp only [fetchDecode, Decoded.bind_eq_ok, codeByte_ok, Decoded.ok.injEq, Prod.mk.injEq]
  constructor
  · rintro ⟨j, hj, b, hb, rfl, rfl⟩
    exact ⟨hb, hj⟩
  · rintro ⟨hb, hj⟩
    exact ⟨i, hj, op, hb, rfl, rfl⟩

/-- A decode that succeeds has read the code byte at the pc. -/
theorem fetchDecode_of_decode (s : State) (i : Instr) (h : decode s.config s.program s.pc.toNat = .ok i) :
    ∃ op, fetchDecode s = .ok (op, i) := by
  obtain ⟨op, _, hop, _⟩ := (decode_ok _ _ _ _).1 h
  exact ⟨op, (fetchDecode_ok s op i).2 ⟨hop, h⟩⟩

/-- The decode phase fails as the decode does. -/
theorem fetchDecode_decodeError (s : State) :
    fetchDecode s = .decodeError ↔ decode s.config s.program s.pc.toNat = .decodeError := by
  cases h : decode s.config s.program s.pc.toNat with
  | ok i =>
    obtain ⟨op, e⟩ := fetchDecode_of_decode s i h
    simp [e]
  | decodeError => simp [fetchDecode, h, Decoded.bind]
  | modelFault r => simp [fetchDecode, h, Decoded.bind]

theorem fetchDecode_modelFault (s : State) (r : ModelFault) :
    fetchDecode s = .modelFault r ↔ decode s.config s.program s.pc.toNat = .modelFault r := by
  cases h : decode s.config s.program s.pc.toNat with
  | ok i =>
    obtain ⟨op, e⟩ := fetchDecode_of_decode s i h
    simp [e]
  | decodeError => simp [fetchDecode, h, Decoded.bind]
  | modelFault r => simp [fetchDecode, h, Decoded.bind]

/-! ### Steps -/

/-- The forms of what a step that has a next state does. -/
inductive StepTo (s t : State) : Prop where
  /-- DecodeError: Trapped, and nothing else. -/
  | decodeError (decoded : fetchDecode s = .decodeError) (eq : t = s.withStatus .trapped)
  /-- A model fault of the decoder is recorded, and nothing else. -/
  | decodeFault (r : ModelFault) (decoded : fetchDecode s = .modelFault r) (eq : t = s.recordFault r)
  /-- The gas runs out. -/
  | outOfGas (op : Byte) (i : Instr) (decoded : fetchDecode s = .ok (op, i)) (out : outOfGas (chargeGas op s) = true)
      (eq : t = (chargeGas op s).withStatus .outOfGas)
  /-- The decoded instruction runs in the charged state. -/
  | ran (op : Byte) (i : Instr) (decoded : fetchDecode s = .ok (op, i)) (out : Machine.outOfGas (chargeGas op s) = false)
      (run : exec i (chargeGas op s) = .next t)
  /-- The decoded instruction raises a model fault, which is recorded in the state before the step. -/
  | execFault (op : Byte) (i : Instr) (r : ModelFault) (decoded : fetchDecode s = .ok (op, i))
      (out : Machine.outOfGas (chargeGas op s) = false) (raised : Raises op r (exec i (chargeGas op s)))
      (eq : t = s.recordFault r)

/-- A step that has a next state starts Running with no fault recorded, and is of one of the five forms. -/
theorem step_next (s t : State) (h : step s = .next t) : s.status = .running ∧ s.fault = none ∧ StepTo s t := by
  unfold step cycle at h
  split at h
  · cases h
  · rename_i hn
    obtain ⟨hs, hf⟩ := (noStep_none_iff s).1 hn
    refine ⟨hs, hf, ?_⟩
    split at h
    · rename_i d hd
      unfold runInstr at h
      cases ho : outOfGas (chargeGas d.1 s)
      · rw [ho] at h
        rcases settle_next s d.1 _ t h with hr | ⟨r, hr, rfl⟩
        · exact .ran d.1 d.2 hd ho hr
        · exact .execFault d.1 d.2 r hd ho hr rfl
      · rw [ho] at h
        cases h
        exact .outOfGas d.1 d.2 hd ho rfl
    · rename_i hd
      cases h
      exact .decodeError hd rfl
    · rename_i r hd
      cases h
      exact .decodeFault r hd rfl

/-- A step that starts Running with no fault recorded runs the phases after the decode. -/
theorem step_of_decoded (s : State) (op : Byte) (i : Instr) (hs : s.status = .running) (hf : s.fault = none)
    (hd : fetchDecode s = .ok (op, i)) : step s = runInstr op i s := by
  unfold step cycle
  rw [(noStep_none_iff s).2 ⟨hs, hf⟩, hd]

/-! ### Runs -/

theorem coreRun_succ_of_next (M : Host.Core) (n : Nat) (s t : M.State) (h : M.step s = .next t) : M.run (n + 1) s = M.run n t := by
  rw [Host.Core.run, h]

theorem coreRun_succ_of_fault (M : Host.Core) (n : Nat) (s : M.State) (f : M.Fault) (h : M.step s = .fault f) :
    M.run (n + 1) s = .fault f := by
  rw [Host.Core.run, h]

theorem coreRun_succ_next (M : Host.Core) (n : Nat) (s t : M.State) (h : M.run (n + 1) s = .next t) :
    ∃ u, M.step s = .next u ∧ M.run n u = .next t := by
  rw [Host.Core.run] at h
  split at h
  · rename_i u e
    exact ⟨u, e, h⟩
  · cases h
  · cases h

theorem run_zero (s : State) : Host.Core.run Sys2Proof.core 0 s = .next s := rfl

/-- A run goes on from the next state of its first step. -/
theorem run_succ_of_next (n : Nat) (s t : State) (h : step s = .next t) :
    Host.Core.run Sys2Proof.core (n + 1) s = Host.Core.run Sys2Proof.core n t :=
  coreRun_succ_of_next Sys2Proof.core n s t h

/-- A run ends where a step answers a fault. -/
theorem run_succ_of_fault (n : Nat) (s : State) (f : Fault) (h : step s = .fault f) :
    Host.Core.run Sys2Proof.core (n + 1) s = .fault f :=
  coreRun_succ_of_fault Sys2Proof.core n s f h

/-- A run of one step more that has a next state begins with a step that has one. -/
theorem run_succ_next (n : Nat) (s t : State) (h : Host.Core.run Sys2Proof.core (n + 1) s = .next t) :
    ∃ u, step s = .next u ∧ Host.Core.run Sys2Proof.core n u = .next t :=
  coreRun_succ_next Sys2Proof.core n s t h

/-- A state with no step answers the reason. -/
theorem step_of_noStep (s : State) (f : Fault) (h : noStep s = some f) : step s = .fault f := by
  unfold step cycle
  rw [h]

end Sys2Proof.Machine
end

