-- ==== Sys2Proof/Tests/Slice0.lean ====
section
/-! SUPPORT. The model's own tests. Expected values are the spec's: the examples of the rules named (spec/41_math.md to
48_system.md) and the vectors of spec/95_test_vectors.md. The last part shows, for each statement with hypotheses, that they hold
together of a concrete state. -/

namespace Sys2Proof.Tests

open Sys2Proof Sys2Proof.Machine

/-! ### Helpers -/

def bytes (l : List Nat) : List Byte := l.map (BitVec.ofNat 8)

/-- A program with these bytes at pc, a start marked at pc and right after them (spec/41_math.md). -/
def programAt (pc : Nat) (code : List Nat) : Program := Program.withInstrAt ⟨[], []⟩ pc (bytes code)

/-- The decode of these bytes under the default configuration. -/
def decoded (code : List Nat) : Decoded Instr := decode (Config.standard []) (programAt 0 code) 0

/-- The data of the examples of spec/47_load_store.md. -/
def dataPage : Memory :=
  [(0x20000, 0x81#8), (0x20001, 0x82#8), (0x20002, 0x83#8), (0x20003, 0x84#8),
   (0x20004, 0#8), (0x20005, 0#8), (0x20006, 0#8), (0x20007, 0#8)]

/-- A state at pc with gas 10, these code bytes, these registers, and the data page. -/
def startAt (pc : Nat) (code : List Nat) (regs : List (Reg × Word)) : State :=
  State.resetWith (programAt pc code)
    ⟨BitVec.ofNat 32 pc, regs.foldl (fun v r => v.set r.1 r.2) (Vector.replicate 13 0#32), 10, dataPage⟩
    (Config.standard [⟨0x20000, 0x20FFF, .write⟩]) 0#32

def afterStep {α : Type} (s : State) (f : State → α) : Option α :=
  match step s with
  | .next t => some (f t)
  | .fault _ => none
  | .refused _ => none

def regAfter (s : State) (r : Reg) : Option Word := afterStep s fun t => t.reg r

def pcAfter (s : State) : Option Word := afterStep s fun t => t.pc

def bytesAfter (s : State) (a : Word) (n : Nat) : Option (List Byte) :=
  afterStep s fun t => (byteAddrs a n).filterMap t.byteAt

def controlAfter (s : State) : Option (Status × Option ModelFault × Word × Int) :=
  afterStep s fun t => (t.status, t.fault, t.pc, t.gas)

/-! ### Decoding: a word of each instruction, from the example of its rule -/

theorem test_decode_trap : decoded [0x00] = .ok .trap := by decide
theorem test_decode_loadIndU32 : decoded [0x01, 0x02, 0x00] = .ok (.loadIndU32 0 2 ⟨1, 0x0#32⟩) := by decide
theorem test_decode_addImm : decoded [0x02, 0x12, 0xFF] = .ok (.addImm 1 2 ⟨1, 0xFFFFFFFF#32⟩) := by decide
theorem test_decode_storeIndU32 : decoded [0x03, 0x01, 0x04] = .ok (.storeIndU32 0 1 ⟨1, 0x4#32⟩) := by decide
theorem test_decode_loadImm : decoded [0x04, 0x03, 0x2A] = .ok (.loadImm 3 ⟨1, 0x2A#32⟩) := by decide
theorem test_decode_jump : decoded [0x05, 0xFD] = .ok (.jump ⟨1, 0xFFFFFFFD#32⟩) := by decide
theorem test_decode_loadImmJump : decoded [0x06, 0x13, 0x2A, 0x08] = .ok (.loadImmJump 3 ⟨1, 0x2A#32⟩ ⟨1, 0x8#32⟩) := by decide
theorem test_decode_branchEqImm : decoded [0x07, 0x10, 0x05, 0xFA] = .ok (.branchEqImm 0 ⟨1, 0x5#32⟩ ⟨1, 0xFFFFFFFA#32⟩) := by decide
theorem test_decode_add : decoded [0x08, 0x12, 0x03] = .ok (.add 1 2 3) := by decide
theorem test_decode_shloLImm : decoded [0x09, 0x12, 0x04] = .ok (.shloLImm 1 2 ⟨1, 0x4#32⟩) := by decide
theorem test_decode_loadU32 : decoded [0x0A, 0x03, 0x00, 0x00, 0x02] = .ok (.loadU32 3 ⟨3, 0x20000#32⟩) := by decide
theorem test_decode_loadIndU8 : decoded [0x0B, 0x02, 0x00] = .ok (.loadIndU8 0 2 ⟨1, 0x0#32⟩) := by decide
theorem test_decode_or : decoded [0x0C, 0x12, 0x03] = .ok (.or 1 2 3) := by decide
theorem test_decode_storeImmIndU32 : decoded [0x0D, 0x10, 0x04, 0xFF] = .ok (.storeImmIndU32 0 ⟨1, 0x4#32⟩ ⟨1, 0xFFFFFFFF#32⟩) := by decide
theorem test_decode_shloRImm : decoded [0x0E, 0x12, 0x04] = .ok (.shloRImm 1 2 ⟨1, 0x4#32⟩) := by decide
theorem test_decode_branchNeImm : decoded [0x0F, 0x10, 0x05, 0xFA] = .ok (.branchNeImm 0 ⟨1, 0x5#32⟩ ⟨1, 0xFFFFFFFA#32⟩) := by decide
theorem test_decode_storeIndU8 : decoded [0x10, 0x01, 0x01] = .ok (.storeIndU8 0 1 ⟨1, 0x1#32⟩) := by decide
theorem test_decode_fallthrough : decoded [0x11] = .ok .fallthrough := by decide
theorem test_decode_andImm : decoded [0x12, 0x12, 0x0F] = .ok (.andImm 1 2 ⟨1, 0xF#32⟩) := by decide
theorem test_decode_jumpInd : decoded [0x13, 0x00, 0x04] = .ok (.jumpInd 0 ⟨1, 0x4#32⟩) := by decide
theorem test_decode_sub : decoded [0x14, 0x12, 0x03] = .ok (.sub 1 2 3) := by decide
theorem test_decode_loadIndI8 : decoded [0x15, 0x02, 0x01] = .ok (.loadIndI8 0 2 ⟨1, 0x1#32⟩) := by decide
theorem test_decode_storeU32 : decoded [0x16, 0x03, 0x00, 0x00, 0x02] = .ok (.storeU32 3 ⟨3, 0x20000#32⟩) := by decide
theorem test_decode_and : decoded [0x17, 0x12, 0x03] = .ok (.and 1 2 3) := by decide
theorem test_decode_branchEq : decoded [0x18, 0x12, 0x06] = .ok (.branchEq 1 2 ⟨1, 0x6#32⟩) := by decide
theorem test_decode_sharRImm : decoded [0x19, 0x12, 0x04] = .ok (.sharRImm 1 2 ⟨1, 0x4#32⟩) := by decide
theorem test_decode_storeImmIndU8 : decoded [0x1A, 0x10, 0x01, 0x99] = .ok (.storeImmIndU8 0 ⟨1, 0x1#32⟩ ⟨1, 0xFFFFFF99#32⟩) := by decide
theorem test_decode_setLtUImm : decoded [0x1B, 0x12, 0xFF] = .ok (.setLtUImm 1 2 ⟨1, 0xFFFFFFFF#32⟩) := by decide
theorem test_decode_xor : decoded [0x1C, 0x12, 0x03] = .ok (.xor 1 2 3) := by decide
theorem test_decode_storeIndU16 : decoded [0x1D, 0x01, 0x02] = .ok (.storeIndU16 0 1 ⟨1, 0x2#32⟩) := by decide
theorem test_decode_branchNe : decoded [0x1E, 0x12, 0x06] = .ok (.branchNe 1 2 ⟨1, 0x6#32⟩) := by decide
theorem test_decode_xorImm : decoded [0x1F, 0x12, 0xFF] = .ok (.xorImm 1 2 ⟨1, 0xFFFFFFFF#32⟩) := by decide
theorem test_decode_branchLtSImm : decoded [0x20, 0x10, 0x05, 0xFA] = .ok (.branchLtSImm 0 ⟨1, 0x5#32⟩ ⟨1, 0xFFFFFFFA#32⟩) := by decide
theorem test_decode_loadIndI16 : decoded [0x21, 0x02, 0x00] = .ok (.loadIndI16 0 2 ⟨1, 0x0#32⟩) := by decide
theorem test_decode_mul : decoded [0x22, 0x12, 0x03] = .ok (.mul 1 2 3) := by decide
theorem test_decode_mulImm : decoded [0x23, 0x12, 0x03] = .ok (.mulImm 1 2 ⟨1, 0x3#32⟩) := by decide
theorem test_decode_setLtU : decoded [0x24, 0x12, 0x03] = .ok (.setLtU 1 2 3) := by decide
theorem test_decode_loadIndU16 : decoded [0x25, 0x02, 0x01] = .ok (.loadIndU16 0 2 ⟨1, 0x1#32⟩) := by decide
theorem test_decode_storeImmU32 : decoded [0x26, 0x03, 0x04, 0x00, 0x02, 0x44, 0x33, 0x22, 0x11] = .ok (.storeImmU32 ⟨3, 0x20004#32⟩ ⟨4, 0x11223344#32⟩) := by decide
theorem test_decode_setGtUImm : decoded [0x27, 0x12, 0x05] = .ok (.setGtUImm 1 2 ⟨1, 0x5#32⟩) := by decide
theorem test_decode_negAddImm : decoded [0x28, 0x12, 0x0A] = .ok (.negAddImm 1 2 ⟨1, 0xA#32⟩) := by decide
theorem test_decode_branchGeU : decoded [0x29, 0x12, 0x06] = .ok (.branchGeU 1 2 ⟨1, 0x6#32⟩) := by decide
theorem test_decode_loadImmJumpInd : decoded [0x2A, 0x12, 0x01, 0x07, 0x00] = .ok (.loadImmJumpInd 1 2 ⟨1, 0x7#32⟩ ⟨1, 0x0#32⟩) := by decide
theorem test_decode_branchGeS : decoded [0x2B, 0x12, 0x06] = .ok (.branchGeS 1 2 ⟨1, 0x6#32⟩) := by decide
theorem test_decode_branchLtUImm : decoded [0x2C, 0x10, 0xFF, 0xFA] = .ok (.branchLtUImm 0 ⟨1, 0xFFFFFFFF#32⟩ ⟨1, 0xFFFFFFFA#32⟩) := by decide
theorem test_decode_branchGeSImm : decoded [0x2D, 0x10, 0xFF, 0xFA] = .ok (.branchGeSImm 0 ⟨1, 0xFFFFFFFF#32⟩ ⟨1, 0xFFFFFFFA#32⟩) := by decide
theorem test_decode_branchLeSImm : decoded [0x2E, 0x10, 0xFF, 0xFA] = .ok (.branchLeSImm 0 ⟨1, 0xFFFFFFFF#32⟩ ⟨1, 0xFFFFFFFA#32⟩) := by decide
theorem test_decode_branchLtU : decoded [0x2F, 0x12, 0x06] = .ok (.branchLtU 1 2 ⟨1, 0x6#32⟩) := by decide
theorem test_decode_branchLtS : decoded [0x30, 0x12, 0x06] = .ok (.branchLtS 1 2 ⟨1, 0x6#32⟩) := by decide
theorem test_decode_orImm : decoded [0x31, 0x12, 0x0F] = .ok (.orImm 1 2 ⟨1, 0xF#32⟩) := by decide
theorem test_decode_branchGtUImm : decoded [0x32, 0x10, 0x05, 0xFA] = .ok (.branchGtUImm 0 ⟨1, 0x5#32⟩ ⟨1, 0xFFFFFFFA#32⟩) := by decide
theorem test_decode_shloR : decoded [0x33, 0x12, 0x03] = .ok (.shloR 1 2 3) := by decide
theorem test_decode_branchGeUImm : decoded [0x34, 0x10, 0x05, 0xFA] = .ok (.branchGeUImm 0 ⟨1, 0x5#32⟩ ⟨1, 0xFFFFFFFA#32⟩) := by decide
theorem test_decode_branchGtSImm : decoded [0x35, 0x10, 0x05, 0xFA] = .ok (.branchGtSImm 0 ⟨1, 0x5#32⟩ ⟨1, 0xFFFFFFFA#32⟩) := by decide
theorem test_decode_storeImmIndU16 : decoded [0x36, 0x10, 0x02, 0x34, 0x12] = .ok (.storeImmIndU16 0 ⟨1, 0x2#32⟩ ⟨2, 0x1234#32⟩) := by decide
theorem test_decode_shloL : decoded [0x37, 0x12, 0x03] = .ok (.shloL 1 2 3) := by decide
theorem test_decode_setLtSImm : decoded [0x38, 0x12, 0xFF] = .ok (.setLtSImm 1 2 ⟨1, 0xFFFFFFFF#32⟩) := by decide
theorem test_decode_mulUpperUU : decoded [0x39, 0x12, 0x03] = .ok (.mulUpperUU 1 2 3) := by decide
theorem test_decode_setLtS : decoded [0x3A, 0x12, 0x03] = .ok (.setLtS 1 2 3) := by decide
theorem test_decode_branchLeUImm : decoded [0x3B, 0x10, 0x05, 0xFA] = .ok (.branchLeUImm 0 ⟨1, 0x5#32⟩ ⟨1, 0xFFFFFFFA#32⟩) := by decide
theorem test_decode_loadU8 : decoded [0x3C, 0x03, 0x00, 0x00, 0x02] = .ok (.loadU8 3 ⟨3, 0x20000#32⟩) := by decide
theorem test_decode_setGtSImm : decoded [0x3D, 0x12, 0x05] = .ok (.setGtSImm 1 2 ⟨1, 0x5#32⟩) := by decide
theorem test_decode_storeImmU8 : decoded [0x3E, 0x03, 0x00, 0x00, 0x02, 0xAB] = .ok (.storeImmU8 ⟨3, 0x20000#32⟩ ⟨1, 0xFFFFFFAB#32⟩) := by decide
theorem test_decode_mulUpperUUImm : decoded [0x3F, 0x12, 0xFE] = .ok (.mulUpperUUImm 1 2 ⟨1, 0xFFFFFFFE#32⟩) := by decide
theorem test_decode_divS : decoded [0x40, 0x12, 0x03] = .ok (.divS 1 2 3) := by decide
theorem test_decode_mulUpperSSImm : decoded [0x41, 0x12, 0xFE] = .ok (.mulUpperSSImm 1 2 ⟨1, 0xFFFFFFFE#32⟩) := by decide
theorem test_decode_loadI16 : decoded [0x42, 0x03, 0x00, 0x00, 0x02] = .ok (.loadI16 3 ⟨3, 0x20000#32⟩) := by decide
theorem test_decode_mulUpperSS : decoded [0x43, 0x12, 0x03] = .ok (.mulUpperSS 1 2 3) := by decide
theorem test_decode_divU : decoded [0x44, 0x12, 0x03] = .ok (.divU 1 2 3) := by decide
theorem test_decode_storeU16 : decoded [0x45, 0x03, 0x00, 0x00, 0x02] = .ok (.storeU16 3 ⟨3, 0x20000#32⟩) := by decide
theorem test_decode_remS : decoded [0x46, 0x12, 0x03] = .ok (.remS 1 2 3) := by decide
theorem test_decode_storeU8 : decoded [0x47, 0x03, 0x00, 0x00, 0x02] = .ok (.storeU8 3 ⟨3, 0x20000#32⟩) := by decide
theorem test_decode_shloRImmAlt : decoded [0x48, 0x12, 0x80, 0x00] = .ok (.shloRImmAlt 1 2 ⟨2, 0x80#32⟩) := by decide
theorem test_decode_remU : decoded [0x49, 0x12, 0x03] = .ok (.remU 1 2 3) := by decide
theorem test_decode_loadI8 : decoded [0x4A, 0x03, 0x00, 0x00, 0x02] = .ok (.loadI8 3 ⟨3, 0x20000#32⟩) := by decide
theorem test_decode_shloLImmAlt : decoded [0x4B, 0x12, 0x01] = .ok (.shloLImmAlt 1 2 ⟨1, 0x1#32⟩) := by decide
theorem test_decode_loadU16 : decoded [0x4C, 0x03, 0x00, 0x00, 0x02] = .ok (.loadU16 3 ⟨3, 0x20000#32⟩) := by decide
theorem test_decode_sharR : decoded [0x4D, 0x12, 0x03] = .ok (.sharR 1 2 3) := by decide
theorem test_decode_ecalli : decoded [0x4E, 0x05] = .ok (.ecalli ⟨1, 0x5#32⟩) := by decide
theorem test_decode_storeImmU16 : decoded [0x4F, 0x03, 0x00, 0x00, 0x02, 0x34, 0x12] = .ok (.storeImmU16 ⟨3, 0x20000#32⟩ ⟨2, 0x1234#32⟩) := by decide
theorem test_decode_sharRImmAlt : decoded [0x50, 0x12, 0x80] = .ok (.sharRImmAlt 1 2 ⟨1, 0xFFFFFF80#32⟩) := by decide
theorem test_decode_mulUpperSU : decoded [0x51, 0x12, 0x03] = .ok (.mulUpperSU 1 2 3) := by decide
theorem test_decode_moveReg : decoded [0x52, 0x12] = .ok (.moveReg 1 2) := by decide
theorem test_decode_cmovIz : decoded [0x53, 0x12, 0x03] = .ok (.cmovIz 1 2 3) := by decide
theorem test_decode_cmovNz : decoded [0x54, 0x12, 0x03] = .ok (.cmovNz 1 2 3) := by decide
theorem test_decode_cmovIzImm : decoded [0x55, 0x12, 0x07] = .ok (.cmovIzImm 1 2 ⟨1, 0x7#32⟩) := by decide
theorem test_decode_cmovNzImm : decoded [0x56, 0x12, 0x07] = .ok (.cmovNzImm 1 2 ⟨1, 0x7#32⟩) := by decide
theorem test_decode_sbrk : decoded [0x57, 0x12] = .ok (.sbrk 1 2) := by decide

/-! ### One step of each instruction, from the examples of its rule -/

/-- R393. -/
theorem test_step_loadIndU32 :
    regAfter (startAt 0 [0x01, 0x02, 0x00] [(0, 0x20000#32)]) 2 = some 0x84838281#32 := by decide
/-- R211. -/
theorem test_step_addImm :
    regAfter (startAt 0 [0x02, 0x12, 0xFF] [(1, 0x5#32)]) 2 = some 0x4#32 := by decide
/-- R388. -/
theorem test_step_storeIndU32 :
    bytesAfter (startAt 0 [0x03, 0x01, 0x04] [(0, 0x20000#32), (1, 0x11223344#32)]) 0x20004#32 4 = some [0x44#8, 0x33#8, 0x22#8, 0x11#8] := by decide
/-- R371. -/
theorem test_step_loadImm :
    regAfter (startAt 0 [0x04, 0x03, 0x2A] []) 3 = some 0x2A#32 := by decide
/-- R371. -/
theorem test_step_loadImm_second :
    regAfter (startAt 0 [0x04, 0x00, 0x00, 0x00, 0x02] []) 0 = some 0x20000#32 := by decide
/-- R331. -/
theorem test_step_jump :
    pcAfter (startAt 10 [0x05, 0xFD] []) = some 7#32 := by decide
/-- R332. -/
theorem test_step_loadImmJump :
    regAfter (startAt 0 [0x06, 0x13, 0x2A, 0x08] []) 3 = some 0x2A#32 := by decide
/-- R333. -/
theorem test_step_branchEqImm :
    pcAfter (startAt 100 [0x07, 0x10, 0x05, 0xFA] [(0, 0x5#32)]) = some 94#32 := by decide +kernel
/-- R333. -/
theorem test_step_branchEqImm_second :
    pcAfter (startAt 100 [0x07, 0x10, 0x05, 0xFA] [(0, 0x6#32)]) = some 104#32 := by decide +kernel
/-- R201. -/
theorem test_step_add :
    regAfter (startAt 0 [0x08, 0x12, 0x03] [(1, 0xD#32), (2, 0xFFFFFFFF#32)]) 3 = some 0xC#32 := by decide
/-- R264. -/
theorem test_step_shloLImm :
    regAfter (startAt 0 [0x09, 0x12, 0x04] [(1, 0xF000001#32)]) 2 = some 0xF0000010#32 := by decide
/-- R376. -/
theorem test_step_loadU32 :
    regAfter (startAt 0 [0x0A, 0x03, 0x00, 0x00, 0x02] []) 3 = some 0x84838281#32 := by decide
/-- R389. -/
theorem test_step_loadIndU8 :
    regAfter (startAt 0 [0x0B, 0x02, 0x00] [(0, 0x20000#32)]) 2 = some 0x81#32 := by decide
/-- R243. -/
theorem test_step_or :
    regAfter (startAt 0 [0x0C, 0x12, 0x03] [(1, 0xF0F0F0F#32), (2, 0xFF00FF#32)]) 3 = some 0xFFF0FFF#32 := by decide
/-- R385. -/
theorem test_step_storeImmIndU32 :
    bytesAfter (startAt 0 [0x0D, 0x10, 0x04, 0xFF] [(0, 0x20000#32)]) 0x20004#32 4 = some [0xFF#8, 0xFF#8, 0xFF#8, 0xFF#8] := by decide
/-- R265. -/
theorem test_step_shloRImm :
    regAfter (startAt 0 [0x0E, 0x12, 0x04] [(1, 0xF0000010#32)]) 2 = some 0xF000001#32 := by decide
/-- R334. -/
theorem test_step_branchNeImm :
    pcAfter (startAt 100 [0x0F, 0x10, 0x05, 0xFA] [(0, 0x6#32)]) = some 94#32 := by decide +kernel
/-- R334. -/
theorem test_step_branchNeImm_second :
    pcAfter (startAt 100 [0x0F, 0x10, 0x05, 0xFA] [(0, 0x5#32)]) = some 104#32 := by decide +kernel
/-- R386. -/
theorem test_step_storeIndU8 :
    bytesAfter (startAt 0 [0x10, 0x01, 0x01] [(0, 0x20000#32), (1, 0x81#32)]) 0x20001#32 1 = some [0x81#8] := by decide
/-- R244. -/
theorem test_step_andImm :
    regAfter (startAt 0 [0x12, 0x12, 0x0F] [(1, 0x12345678#32)]) 2 = some 0x8#32 := by decide
/-- R202. -/
theorem test_step_sub :
    regAfter (startAt 0 [0x14, 0x12, 0x03] [(1, 0x7#32), (2, 0x5#32)]) 3 = some 0xFFFFFFFE#32 := by decide
/-- R390. -/
theorem test_step_loadIndI8 :
    regAfter (startAt 0 [0x15, 0x02, 0x01] [(0, 0x20000#32)]) 2 = some 0xFFFFFF82#32 := by decide
/-- R379. -/
theorem test_step_storeU32 :
    bytesAfter (startAt 0 [0x16, 0x03, 0x00, 0x00, 0x02] [(3, 0x11223344#32)]) 0x20000#32 4 = some [0x44#8, 0x33#8, 0x22#8, 0x11#8] := by decide
/-- R241. -/
theorem test_step_and :
    regAfter (startAt 0 [0x17, 0x12, 0x03] [(1, 0xF0F0F0F#32), (2, 0xFF00FF#32)]) 3 = some 0xF000F#32 := by decide
/-- R343. -/
theorem test_step_branchEq :
    pcAfter (startAt 100 [0x18, 0x12, 0x06] [(1, 0x7#32), (2, 0x7#32)]) = some 106#32 := by decide +kernel
/-- R343. -/
theorem test_step_branchEq_second :
    pcAfter (startAt 100 [0x18, 0x12, 0x06] [(1, 0x7#32), (2, 0x8#32)]) = some 103#32 := by decide +kernel
/-- R266. -/
theorem test_step_sharRImm :
    regAfter (startAt 0 [0x19, 0x12, 0x04] [(1, 0xF0000010#32)]) 2 = some 0xFF000001#32 := by decide
/-- R383. -/
theorem test_step_storeImmIndU8 :
    bytesAfter (startAt 0 [0x1A, 0x10, 0x01, 0x99] [(0, 0x20000#32)]) 0x20001#32 1 = some [0x99#8] := by decide
/-- R293. -/
theorem test_step_setLtUImm :
    regAfter (startAt 0 [0x1B, 0x12, 0xFF] [(1, 0x5#32)]) 2 = some 0x1#32 := by decide
/-- R242. -/
theorem test_step_xor :
    regAfter (startAt 0 [0x1C, 0x12, 0x03] [(1, 0xF0F0F0F#32), (2, 0xFF00FF#32)]) 3 = some 0xFF00FF0#32 := by decide
/-- R387. -/
theorem test_step_storeIndU16 :
    bytesAfter (startAt 0 [0x1D, 0x01, 0x02] [(0, 0x20000#32), (1, 0x11223344#32)]) 0x20002#32 2 = some [0x44#8, 0x33#8] := by decide
/-- R344. -/
theorem test_step_branchNe :
    pcAfter (startAt 100 [0x1E, 0x12, 0x06] [(1, 0x1#32), (2, 0x2#32)]) = some 106#32 := by decide +kernel
/-- R344. -/
theorem test_step_branchNe_second :
    pcAfter (startAt 100 [0x1E, 0x12, 0x06] [(1, 0x9#32), (2, 0x9#32)]) = some 103#32 := by decide +kernel
/-- R245. -/
theorem test_step_xorImm :
    regAfter (startAt 0 [0x1F, 0x12, 0xFF] [(1, 0x12345678#32)]) 2 = some 0xEDCBA987#32 := by decide
/-- R339. -/
theorem test_step_branchLtSImm :
    pcAfter (startAt 100 [0x20, 0x10, 0x05, 0xFA] [(0, 0xFFFFFFFF#32)]) = some 94#32 := by decide +kernel
/-- R339. -/
theorem test_step_branchLtSImm_second :
    pcAfter (startAt 100 [0x20, 0x10, 0x05, 0xFA] [(0, 0x5#32)]) = some 104#32 := by decide +kernel
/-- R392. -/
theorem test_step_loadIndI16 :
    regAfter (startAt 0 [0x21, 0x02, 0x00] [(0, 0x20000#32)]) 2 = some 0xFFFF8281#32 := by decide
/-- R203. -/
theorem test_step_mul :
    regAfter (startAt 0 [0x22, 0x12, 0x03] [(1, 0x10001#32), (2, 0x10000#32)]) 3 = some 0x10000#32 := by decide
/-- R212. -/
theorem test_step_mulImm :
    regAfter (startAt 0 [0x23, 0x12, 0x03] [(1, 0x55555556#32)]) 2 = some 0x2#32 := by decide
/-- R291. -/
theorem test_step_setLtU :
    regAfter (startAt 0 [0x24, 0x12, 0x03] [(1, 0xFFFFFFFF#32), (2, 0x1#32)]) 3 = some 0x1#32 := by decide
/-- R391. -/
theorem test_step_loadIndU16 :
    regAfter (startAt 0 [0x25, 0x02, 0x01] [(0, 0x20000#32)]) 2 = some 0x8382#32 := by decide
/-- R382. -/
theorem test_step_storeImmU32 :
    bytesAfter (startAt 0 [0x26, 0x03, 0x04, 0x00, 0x02, 0x44, 0x33, 0x22, 0x11] []) 0x20004#32 4 = some [0x44#8, 0x33#8, 0x22#8, 0x11#8] := by decide
/-- R295. -/
theorem test_step_setGtUImm :
    regAfter (startAt 0 [0x27, 0x12, 0x05] [(1, 0x6#32)]) 2 = some 0x1#32 := by decide
/-- R215. -/
theorem test_step_negAddImm :
    regAfter (startAt 0 [0x28, 0x12, 0x0A] [(1, 0x3#32)]) 2 = some 0x7#32 := by decide
/-- R215. -/
theorem test_step_negAddImm_second :
    regAfter (startAt 0 [0x28, 0x12, 0x0A] [(1, 0xB#32)]) 2 = some 0xFFFFFFFF#32 := by decide
/-- R347. -/
theorem test_step_branchGeU :
    pcAfter (startAt 100 [0x29, 0x12, 0x06] [(1, 0x1#32), (2, 0xFFFFFFFF#32)]) = some 106#32 := by decide +kernel
/-- R348. -/
theorem test_step_branchGeS :
    pcAfter (startAt 100 [0x2B, 0x12, 0x06] [(1, 0x1#32), (2, 0xFFFFFFFF#32)]) = some 103#32 := by decide +kernel
/-- R335. -/
theorem test_step_branchLtUImm :
    pcAfter (startAt 100 [0x2C, 0x10, 0xFF, 0xFA] [(0, 0x5#32)]) = some 94#32 := by decide +kernel
/-- R335. -/
theorem test_step_branchLtUImm_second :
    pcAfter (startAt 100 [0x2C, 0x10, 0xFF, 0xFA] [(0, 0xFFFFFFFF#32)]) = some 104#32 := by decide +kernel
/-- R341. -/
theorem test_step_branchGeSImm :
    pcAfter (startAt 100 [0x2D, 0x10, 0xFF, 0xFA] [(0, 0x0#32)]) = some 94#32 := by decide +kernel
/-- R341. -/
theorem test_step_branchGeSImm_second :
    pcAfter (startAt 100 [0x2D, 0x10, 0xFF, 0xFA] [(0, 0x80000000#32)]) = some 104#32 := by decide +kernel
/-- R340. -/
theorem test_step_branchLeSImm :
    pcAfter (startAt 100 [0x2E, 0x10, 0xFF, 0xFA] [(0, 0xFFFFFFFF#32)]) = some 94#32 := by decide +kernel
/-- R340. -/
theorem test_step_branchLeSImm_second :
    pcAfter (startAt 100 [0x2E, 0x10, 0xFF, 0xFA] [(0, 0x0#32)]) = some 104#32 := by decide +kernel
/-- R345. -/
theorem test_step_branchLtU :
    pcAfter (startAt 100 [0x2F, 0x12, 0x06] [(1, 0xFFFFFFFF#32), (2, 0x1#32)]) = some 106#32 := by decide +kernel
/-- R346. -/
theorem test_step_branchLtS :
    pcAfter (startAt 100 [0x30, 0x12, 0x06] [(1, 0xFFFFFFFF#32), (2, 0x1#32)]) = some 103#32 := by decide +kernel
/-- R346. -/
theorem test_step_branchLtS_second :
    pcAfter (startAt 100 [0x30, 0x12, 0x06] [(1, 0x1#32), (2, 0xFFFFFFFF#32)]) = some 106#32 := by decide +kernel
/-- R246. -/
theorem test_step_orImm :
    regAfter (startAt 0 [0x31, 0x12, 0x0F] [(1, 0x12345670#32)]) 2 = some 0x1234567F#32 := by decide
/-- R338. -/
theorem test_step_branchGtUImm :
    pcAfter (startAt 100 [0x32, 0x10, 0x05, 0xFA] [(0, 0x6#32)]) = some 94#32 := by decide +kernel
/-- R338. -/
theorem test_step_branchGtUImm_second :
    pcAfter (startAt 100 [0x32, 0x10, 0x05, 0xFA] [(0, 0x5#32)]) = some 104#32 := by decide +kernel
/-- R262. -/
theorem test_step_shloR :
    regAfter (startAt 0 [0x33, 0x12, 0x03] [(1, 0x1F#32), (2, 0x80000000#32)]) 3 = some 0x1#32 := by decide
/-- R337. -/
theorem test_step_branchGeUImm :
    pcAfter (startAt 100 [0x34, 0x10, 0x05, 0xFA] [(0, 0xFFFFFFFF#32)]) = some 94#32 := by decide +kernel
/-- R337. -/
theorem test_step_branchGeUImm_second :
    pcAfter (startAt 100 [0x34, 0x10, 0x05, 0xFA] [(0, 0x4#32)]) = some 104#32 := by decide +kernel
/-- R342. -/
theorem test_step_branchGtSImm :
    pcAfter (startAt 100 [0x35, 0x10, 0x05, 0xFA] [(0, 0x6#32)]) = some 94#32 := by decide +kernel
/-- R342. -/
theorem test_step_branchGtSImm_second :
    pcAfter (startAt 100 [0x35, 0x10, 0x05, 0xFA] [(0, 0xFFFFFFFF#32)]) = some 104#32 := by decide +kernel
/-- R384. -/
theorem test_step_storeImmIndU16 :
    bytesAfter (startAt 0 [0x36, 0x10, 0x02, 0x34, 0x12] [(0, 0x20000#32)]) 0x20002#32 2 = some [0x34#8, 0x12#8] := by decide
/-- R261. -/
theorem test_step_shloL :
    regAfter (startAt 0 [0x37, 0x12, 0x03] [(1, 0x21#32), (2, 0x1#32)]) 3 = some 0x2#32 := by decide
/-- R294. -/
theorem test_step_setLtSImm :
    regAfter (startAt 0 [0x38, 0x12, 0xFF] [(1, 0x5#32)]) 2 = some 0x0#32 := by decide
/-- R205. -/
theorem test_step_mulUpperUU :
    regAfter (startAt 0 [0x39, 0x12, 0x03] [(1, 0x2#32), (2, 0xFFFFFFFF#32)]) 3 = some 0x1#32 := by decide
/-- R292. -/
theorem test_step_setLtS :
    regAfter (startAt 0 [0x3A, 0x12, 0x03] [(1, 0xFFFFFFFF#32), (2, 0x1#32)]) 3 = some 0x0#32 := by decide
/-- R336. -/
theorem test_step_branchLeUImm :
    pcAfter (startAt 100 [0x3B, 0x10, 0x05, 0xFA] [(0, 0x5#32)]) = some 94#32 := by decide +kernel
/-- R336. -/
theorem test_step_branchLeUImm_second :
    pcAfter (startAt 100 [0x3B, 0x10, 0x05, 0xFA] [(0, 0x6#32)]) = some 104#32 := by decide +kernel
/-- R372. -/
theorem test_step_loadU8 :
    regAfter (startAt 0 [0x3C, 0x03, 0x00, 0x00, 0x02] []) 3 = some 0x81#32 := by decide
/-- R296. -/
theorem test_step_setGtSImm :
    regAfter (startAt 0 [0x3D, 0x12, 0x05] [(1, 0xFFFFFFFF#32)]) 2 = some 0x0#32 := by decide
/-- R380. -/
theorem test_step_storeImmU8 :
    bytesAfter (startAt 0 [0x3E, 0x03, 0x00, 0x00, 0x02, 0xAB] []) 0x20000#32 1 = some [0xAB#8] := by decide
/-- R214. -/
theorem test_step_mulUpperUUImm :
    regAfter (startAt 0 [0x3F, 0x12, 0xFE] [(1, 0x40000000#32)]) 2 = some 0x3FFFFFFF#32 := by decide
/-- R208. -/
theorem test_step_divS :
    regAfter (startAt 0 [0x40, 0x12, 0x03] [(1, 0x2#32), (2, 0xFFFFFFF9#32)]) 3 = some 0xFFFFFFFD#32 := by decide
/-- R213. -/
theorem test_step_mulUpperSSImm :
    regAfter (startAt 0 [0x41, 0x12, 0xFE] [(1, 0x40000000#32)]) 2 = some 0xFFFFFFFF#32 := by decide
/-- R375. -/
theorem test_step_loadI16 :
    regAfter (startAt 0 [0x42, 0x03, 0x00, 0x00, 0x02] []) 3 = some 0xFFFF8281#32 := by decide
/-- R204. -/
theorem test_step_mulUpperSS :
    regAfter (startAt 0 [0x43, 0x12, 0x03] [(1, 0x2#32), (2, 0xFFFFFFFF#32)]) 3 = some 0xFFFFFFFF#32 := by decide
/-- R207. -/
theorem test_step_divU :
    regAfter (startAt 0 [0x44, 0x12, 0x03] [(1, 0x2#32), (2, 0x7#32)]) 3 = some 0x3#32 := by decide
/-- R207. -/
theorem test_step_divU_second :
    regAfter (startAt 0 [0x44, 0x12, 0x03] [(1, 0x0#32), (2, 0x7#32)]) 3 = some 0xFFFFFFFF#32 := by decide
/-- R378. -/
theorem test_step_storeU16 :
    bytesAfter (startAt 0 [0x45, 0x03, 0x00, 0x00, 0x02] [(3, 0x11223344#32)]) 0x20000#32 2 = some [0x44#8, 0x33#8] := by decide
/-- R210. -/
theorem test_step_remS :
    regAfter (startAt 0 [0x46, 0x12, 0x03] [(1, 0x2#32), (2, 0xFFFFFFF9#32)]) 3 = some 0xFFFFFFFF#32 := by decide
/-- R377. -/
theorem test_step_storeU8 :
    bytesAfter (startAt 0 [0x47, 0x03, 0x00, 0x00, 0x02] [(3, 0x11223344#32)]) 0x20000#32 1 = some [0x44#8] := by decide
/-- R268. -/
theorem test_step_shloRImmAlt :
    regAfter (startAt 0 [0x48, 0x12, 0x80, 0x00] [(1, 0x3#32)]) 2 = some 0x10#32 := by decide
/-- R209. -/
theorem test_step_remU :
    regAfter (startAt 0 [0x49, 0x12, 0x03] [(1, 0x2#32), (2, 0x7#32)]) 3 = some 0x1#32 := by decide
/-- R209. -/
theorem test_step_remU_second :
    regAfter (startAt 0 [0x49, 0x12, 0x03] [(1, 0x0#32), (2, 0x7#32)]) 3 = some 0x7#32 := by decide
/-- R373. -/
theorem test_step_loadI8 :
    regAfter (startAt 0 [0x4A, 0x03, 0x00, 0x00, 0x02] []) 3 = some 0xFFFFFF81#32 := by decide
/-- R267. -/
theorem test_step_shloLImmAlt :
    regAfter (startAt 0 [0x4B, 0x12, 0x01] [(1, 0x23#32)]) 2 = some 0x8#32 := by decide
/-- R374. -/
theorem test_step_loadU16 :
    regAfter (startAt 0 [0x4C, 0x03, 0x00, 0x00, 0x02] []) 3 = some 0x8281#32 := by decide
/-- R263. -/
theorem test_step_sharR :
    regAfter (startAt 0 [0x4D, 0x12, 0x03] [(1, 0x1F#32), (2, 0x80000000#32)]) 3 = some 0xFFFFFFFF#32 := by decide
/-- R381. -/
theorem test_step_storeImmU16 :
    bytesAfter (startAt 0 [0x4F, 0x03, 0x00, 0x00, 0x02, 0x34, 0x12] []) 0x20000#32 2 = some [0x34#8, 0x12#8] := by decide
/-- R269. -/
theorem test_step_sharRImmAlt :
    regAfter (startAt 0 [0x50, 0x12, 0x80] [(1, 0x4#32)]) 2 = some 0xFFFFFFF8#32 := by decide
/-- R206. -/
theorem test_step_mulUpperSU :
    regAfter (startAt 0 [0x51, 0x12, 0x03] [(1, 0x2#32), (2, 0xFFFFFFFF#32)]) 3 = some 0xFFFFFFFF#32 := by decide
/-- R311. -/
theorem test_step_moveReg :
    regAfter (startAt 0 [0x52, 0x12] [(1, 0xDEADBEEF#32)]) 2 = some 0xDEADBEEF#32 := by decide
/-- R312. -/
theorem test_step_cmovIz :
    regAfter (startAt 0 [0x53, 0x12, 0x03] [(1, 0x0#32), (2, 0x9#32), (3, 0x4#32)]) 3 = some 0x9#32 := by decide
/-- R313. -/
theorem test_step_cmovNz :
    regAfter (startAt 0 [0x54, 0x12, 0x03] [(1, 0x1#32), (2, 0x9#32), (3, 0x4#32)]) 3 = some 0x9#32 := by decide
/-- R314. -/
theorem test_step_cmovIzImm :
    regAfter (startAt 0 [0x55, 0x12, 0x07] [(1, 0x0#32)]) 2 = some 0x7#32 := by decide
/-- R315. -/
theorem test_step_cmovNzImm :
    regAfter (startAt 0 [0x56, 0x12, 0x07] [(1, 0x3#32)]) 2 = some 0x7#32 := by decide

/-- R411 and V48: the charge, then Trapped; the pc stays. -/
theorem test_step_trap : controlAfter (startAt 0 [0x00] []) = some (.trapped, none, 0#32, 9) := by decide
/-- V83. -/
theorem test_step_fallthrough : controlAfter (startAt 0 [0x11] []) = some (.running, none, 1#32, 9) := by decide
/-- V82. -/
theorem test_step_ecalli : controlAfter (startAt 0 [0x4E, 0x78, 0x56, 0x34, 0x12] []) = some (.host, none, 5#32, 9) := by decide
/-- V82. -/
theorem test_step_ecalli_hostCall :
    (afterStep (startAt 0 [0x4E, 0x78, 0x56, 0x34, 0x12] []) fun t => t.hostCall) = some 0x12345678#32 := by decide
/-- V75: the fault is recorded and the gas is not charged. -/
theorem test_step_jumpInd :
    controlAfter (startAt 0 [0x13, 0x00, 0x04] []) = some (.running, some (.refused 19), 0#32, 10) := by decide
/-- V76. -/
theorem test_step_loadImmJumpInd :
    controlAfter (startAt 0 [0x2A, 0x12, 0x01, 0x07, 0x00] []) = some (.running, some (.refused 42), 0#32, 10) := by decide
/-- V84. -/
theorem test_step_sbrk :
    controlAfter (startAt 0 [0x57, 0x12] []) = some (.running, some (.refused 87), 0#32, 10) := by decide
/-- V85: with no gas left the charge comes before the refusal. -/
theorem test_step_sbrk_outOfGas :
    controlAfter { startAt 0 [0x57, 0x12] [] with gas := 0 } = some (.outOfGas, none, 0#32, -1) := by decide

/-! ### More of the spec's vectors -/

/-- V77: the first byte past the page. -/
theorem test_load_inaccessible : controlAfter (startAt 0 [0x0A, 0x04, 0xFE, 0x0F, 0x02] []) =
    some (.running, some (.memoryInaccessible 0x21000#32), 0#32, 10) := by decide
/-- V78: a byte with a right and no value. -/
theorem test_load_uninitialised : controlAfter (startAt 0 [0x0A, 0x04, 0xF0, 0x0F, 0x02] []) =
    some (.running, some (.memoryUninitialised 0x20FF0#32), 0#32, 10) := by decide
/-- V79: the address wraps, and nothing is stored. -/
theorem test_store_inaccessible :
    (afterStep (startAt 0 [0x03, 0x01, 0x01] [(0, 0xFFFFFFFF#32), (1, 5#32)]) fun t => (t.fault, t.mem)) =
      some (some (.memoryInaccessible 0#32), dataPage) := by decide
/-- V49. -/
theorem test_out_of_gas :
    controlAfter { startAt 0 [0x00] [] with gas := 0 } = some (.outOfGas, none, 0#32, -1) := by decide
/-- V50: under GAS_POLICY = log the instruction runs. -/
theorem test_gas_log : controlAfter { startAt 0 [0x00] [] with
    gas := 0, config := { Config.standard [] with gasPolicy := .log } } = some (.trapped, none, 0#32, -1) := by decide
/-- V53: a byte that is missing ends in Trapped, with no charge. -/
theorem test_truncated : controlAfter (startAt 0 [0x08, 0x12] []) = some (.trapped, none, 0#32, 10) := by decide
/-- V54. -/
theorem test_unknown_opcode :
    controlAfter (startAt 0 [0x58] []) = some (.running, some (.unknownOpcode 0x58#8), 0#32, 10) := by decide
/-- S10: an ignored nibble does not matter. -/
theorem test_ignored_nibble : decoded [0x04, 0xF3, 0x01] = decoded [0x04, 0x03, 0x01] := by decide
/-- V45: a start inside the instruction ends its immediate. -/
theorem test_mask_ends_immediate :
    decode (Config.standard []) ⟨bytes [0x04, 0x00, 0x00, 0x11], [0x0D#8]⟩ 0 = .ok (.loadImm 0 ⟨1, 0#32⟩) := by decide
/-- P5a: with no start marked after the code an immediate of 4 bytes is asked for, which the code does not hold. -/
theorem test_no_start_after_the_code :
    decode (Config.standard []) ⟨bytes [0x04, 0x00, 0x05], [0x01#8]⟩ 0 = .decodeError := by decide

/-! ### The opcode map -/

/-- The default map has the 88 mnemonics of R150 once each, at opcodes 0 to 87 in order, and no entry from 88 on. -/
theorem test_opcode_map_numbered :
    standardMnemonics.length = 88 ∧ standardMnemonics.Nodup ∧
    ((List.range 88).map fun n => OpcodeMap.standard.lookup (BitVec.ofNat 8 n)) = standardMnemonics.map some :=
  ⟨by decide, by decide, by decide⟩

/-- R150 gives `add` opcode 8 and shape ThreeRegs, and byte 88 no entry. -/
theorem test_opcode_map_entries :
    OpcodeMap.standard.entry 8 = some ⟨.add, .threeRegs⟩ ∧ OpcodeMap.standard.entry 87 = some ⟨.sbrk, .twoRegs⟩ ∧
    OpcodeMap.standard.entry 88 = none ∧ OpcodeMap.standard.entry 255 = none := by decide

/-- The spelling of the mnemonics is the table's, for the longest name and the names with a suffix. -/
theorem test_mnemonic_text :
    Mnemonic.text .loadImmJumpInd = "load_imm_jump_ind" ∧ Mnemonic.text .mulUpperUUImm = "mul_upper_u_u_imm" ∧
    Mnemonic.text .shloRImmAlt = "shlo_r_imm_alt" := by decide

/-- Another `OPCODE_MAP` (R16): the default one with `add` at byte 200 and no entry at byte 8, and `sbrk` at byte 201. -/
def otherMap : OpcodeMap := ((OpcodeMap.standard.set 200 (some .add)).set 8 none).set 201 (some .sbrk)

/-- A state whose configuration has that map and charges 3 for byte 200. -/
def underOtherMap (code : List Nat) : State :=
  { startAt 0 code [(1, 5#32), (2, 7#32)] with
    config := { Config.standard [] with opcodeMap := otherMap, gasCost := (Vector.replicate 256 1).set 200 3 } }

/-- Under the other map byte 200 is `add`, and its own cost is charged (R16, R17). -/
theorem test_other_map_runs :
    (afterStep (underOtherMap [200, 0x12, 0x03]) fun t => (t.reg 3, t.pc, t.gas)) = some (12#32, 3#32, 7) := by decide
/-- Byte 8 has no entry there (R132). -/
theorem test_other_map_unknown :
    controlAfter (underOtherMap [0x08, 0x12, 0x03]) = some (.running, some (.unknownOpcode 8), 0#32, 10) := by decide
/-- A refusal records the opcode byte that was decoded (R437). -/
theorem test_other_map_refused :
    controlAfter (underOtherMap [201, 0x12]) = some (.running, some (.refused 201), 0#32, 10) := by decide
/-- The encoder follows the map. -/
theorem test_encode :
    encode OpcodeMap.standard (.add 1 2 3) = some (bytes [0x08, 0x12, 0x03]) ∧
    encode otherMap (.add 1 2 3) = some (bytes [200, 0x12, 0x03]) ∧
    encode (Vector.replicate 256 none) (.add 1 2 3) = none :=
  ⟨by decide, by decide +kernel, by decide +kernel⟩

/-! ### The checks of WellFormed -/

theorem test_wf_accepts : Instr.wf (.addImm 1 2 ⟨4, 0x04030201#32⟩) = true := by decide
/-- A length from the mask is at least 1. -/
theorem test_wf_mask_length_low : Instr.wf (.addImm 1 2 ⟨0, 0#32⟩) = false := by decide
/-- A length from the mask is at most 4. -/
theorem test_wf_mask_length_high : Instr.wf (.addImm 1 2 ⟨5, 1#32⟩) = false := by decide
/-- A length from a nibble is at most 8. -/
theorem test_wf_nibble_length : Instr.wf (.storeImmU8 ⟨9, 1#32⟩ ⟨1, 1#32⟩) = false := by decide
/-- A second length is at most 4. -/
theorem test_wf_second_length : Instr.wf (.storeImmU8 ⟨1, 1#32⟩ ⟨5, 1#32⟩) = false := by decide
/-- A mask-delimited value is the sign extension of its bytes. -/
theorem test_wf_mask_value : Instr.wf (.addImm 1 2 ⟨1, 0x80#32⟩) = false := by decide
/-- A nibble-delimited value is too. -/
theorem test_wf_nibble_value : Instr.wf (.storeImmU8 ⟨2, 0x8000#32⟩ ⟨1, 1#32⟩) = false := by decide
/-- A second value is too. -/
theorem test_wf_second_value : Instr.wf (.storeImmU8 ⟨1, 1#32⟩ ⟨0, 1#32⟩) = false := by decide
/-- Ill-formed immediates are refused in the other shapes as well. -/
theorem test_wf_other_shapes :
    Instr.wf (.ecalli ⟨0, 0#32⟩) = false ∧ Instr.wf (.jump ⟨5, 0#32⟩) = false ∧ Instr.wf (.loadImm 0 ⟨1, 0x80#32⟩) = false ∧
    Instr.wf (.storeImmIndU8 0 ⟨9, 0#32⟩ ⟨0, 0#32⟩) = false ∧ Instr.wf (.loadImmJump 0 ⟨0, 0#32⟩ ⟨5, 0#32⟩) = false ∧
    Instr.wf (.branchEq 0 1 ⟨0, 0#32⟩) = false ∧ Instr.wf (.loadImmJumpInd 0 1 ⟨9, 0#32⟩ ⟨0, 0#32⟩) = false := by decide

/-! ### The host's questions -/

/-- The bits above the table's are 0: a third register of 0. -/
theorem test_decodeTableWord : decodeTableWord 8 0x08 = some (.add 0 0 0) := by decide
theorem test_decodeTableWord_wide : decodeTableWord 24 0x031208 = some (.add 1 2 3) := by decide
theorem test_decodeTableWord_unknown : decodeTableWord 8 0x58 = none := by decide
/-- The placed word is the first instruction after reset. -/
theorem test_withFetchWord : pcAfter (State.reset.withFetchWord 8 0x08) = some 3#32 := by decide

/-! ### Witnesses: the hypotheses of each statement hold together -/

/-- The check behind `StandsAt`. -/
def stands (cfg : Config) (p : Program) (pc : Nat) (encoding : List Byte) : Bool :=
  decide ((p.code.drop pc).take encoding.length = encoding) && isInstruction cfg p pc &&
  (List.range encoding.length).all (fun k => k == 0 || !isInstruction cfg p (pc + k)) &&
  isInstruction cfg p (pc + encoding.length)

theorem standsAt_of_stands {cfg : Config} {p : Program} {pc : Nat} {encoding : List Byte}
    (h : stands cfg p pc encoding = true) : StandsAt cfg p pc encoding := by
  simp only [stands, Bool.and_eq_true, decide_eq_true_eq, List.all_eq_true, List.mem_range, Bool.or_eq_true, beq_iff_eq,
    Bool.not_eq_true'] at h
  exact ⟨h.1.1.1, h.1.1.2, fun k h0 hk => (h.1.2 k hk).resolve_left (by omega), h.2⟩

/-- A placed encoding stands, with the shortest and the longest lengths of each kind, and it is the one that `encode` picks. -/
theorem test_witness_decodeOfEncode :
    let cfg := Config.standard []
    let i := Instr.storeImmU8 ⟨0, 0#32⟩ ⟨4, 0x04030201#32⟩
    let j := Instr.storeImmU8 ⟨4, 0x04030201#32⟩ ⟨0, 0#32⟩
    StandsAt cfg (programAt 0 [0x00]) 0 (encodeAs 0 .trap) ∧ Instr.trap.wf = true ∧ nibbleLen Instr.trap.args ≤ 4 ∧
    cfg.opcodeMap.lookup 0 = some Instr.trap.mnemonic ∧
    StandsAt cfg (programAt 2 [0x05, 0xFF, 0xFF, 0xFF, 0x7F]) 2 (encodeAs 5 (.jump ⟨4, 0x7FFFFFFF#32⟩)) ∧
    (Instr.jump ⟨4, 0x7FFFFFFF#32⟩).wf = true ∧
    StandsAt cfg (programAt 0 [0x3E, 0x00, 0x01, 0x02, 0x03, 0x04]) 0 (encodeAs 62 i) ∧ i.wf = true ∧
    encode cfg.opcodeMap i = some (encodeAs 62 i) ∧ cfg.opcodeMap.lookup 62 = some i.mnemonic ∧
    StandsAt cfg (programAt 0 [0x3E, 0x04, 0x01, 0x02, 0x03, 0x04]) 0 (encodeAs 62 j) ∧ j.wf = true :=
  ⟨standsAt_of_stands (by decide), by decide, by decide, by decide, standsAt_of_stands (by decide), by decide,
   standsAt_of_stands (by decide), by decide, by decide, by decide, standsAt_of_stands (by decide), by decide⟩

/-- Under LEN_NIBBLE_HIGH = min8 the longest instruction has 15 bytes. -/
theorem test_witness_decodeOfEncode_min8 :
    let cfg := { Config.standard [] with lenNibbleHigh := .min8 }
    let i := Instr.loadImmJumpInd 12 0 ⟨8, 0x04030201#32⟩ ⟨4, 0x0C0B0A09#32⟩
    StandsAt cfg (programAt 0 [0x2A, 0xC0, 0x08, 1, 2, 3, 4, 0, 0, 0, 0, 9, 10, 11, 12]) 0 (encodeAs 42 i) ∧ i.wf = true ∧
    ¬ nibbleLen i.args ≤ 4 ∧ cfg.lenNibbleHigh = .min8 ∧ cfg.opcodeMap.lookup 42 = some i.mnemonic :=
  ⟨standsAt_of_stands (by decide), by decide, by decide, rfl, by decide⟩

/-- Past the end of the code, at its end, and an unmarked byte within it. -/
theorem test_witness_decodeChecks :
    (programAt 0 [0x04, 0x00, 0x05]).code.length ≤ 3 ∧ 2 < (programAt 0 [0x04, 0x00, 0x05]).code.length ∧
    isInstruction (Config.standard []) (programAt 0 [0x04, 0x00, 0x05]) 2 = false := by decide

/-- The last opcode with an entry and the first byte without one. -/
theorem test_witness_opcodeBytes :
    (programAt 0 [0x57, 0x12]).code[0]? = some 87#8 ∧ (programAt 0 [0x58]).code[0]? = some 88#8 ∧
    isInstruction (Config.standard []) (programAt 0 [0x57, 0x12]) 0 = true ∧
    isInstruction (Config.standard []) (programAt 0 [0x58]) 0 = true ∧
    OpcodeMap.standard.lookup 87 ≠ none ∧ OpcodeMap.standard.lookup 88 = none := by decide

/-- The maps at the ends of their ranges, under each value of their parameters (R104, R108). -/
theorem test_witness_maps :
    let cfg := Config.standard []
    let alt := { cfg with regNibbleHigh := .clamp, lenNibbleHigh := .min8 }
    let gp := { cfg with lenNibbleHigh := .gp }
    regIdx cfg 12 = .ok 12 ∧ regIdx cfg 13 = .modelFault (.regIndexUnresolved 13) ∧ regIdx alt 13 = .ok 12 ∧
    regIdx alt 255 = .ok 12 ∧ lenIdx cfg 4 = .ok 4 ∧ lenIdx cfg 5 = .modelFault (.immLenUnresolved 5) ∧
    lenIdx alt 5 = .ok 5 ∧ lenIdx alt 15 = .ok 8 ∧ lenIdx gp 5 = .ok 4 ∧ lenIdx gp 8 = .ok 0 ∧ lenIdx gp 15 = .ok 4 := by decide

/-- A start 1 and 24 bytes further, and none within 24 (R102). -/
theorem test_witness_scan :
    isInstruction (Config.standard []) ⟨[], [0x02#8]⟩ (0 + 1) = true ∧
    isInstruction (Config.standard []) ⟨[], [0#8, 0#8, 0#8, 0x01#8]⟩ (0 + 24) = true ∧
    btn (Config.standard []) ⟨[], [0x02#8]⟩ 0 = 1 ∧
    btn (Config.standard []) ⟨[], [0#8, 0#8, 0#8, 0x01#8]⟩ 0 = 24 ∧
    btn (Config.standard []) ⟨[], []⟩ 0 = 24 := by decide

/-- The last bit of the bitmap, and the first beyond it under both values of MASK_TAIL. -/
theorem test_witness_maskBits :
    0 < [0x80#8].length ∧ isInstruction (Config.standard []) ⟨[], [0x80#8]⟩ (8 * 0 + 7) = true ∧
    [0x80#8].length ≤ 1 ∧ isInstruction (Config.standard []) ⟨[], [0x80#8]⟩ (8 * 1 + 0) = false ∧
    isInstruction { Config.standard [] with maskTail := .one } ⟨[], [0x80#8]⟩ (8 * 1 + 0) = true := by decide

/-- Immediates of 0, 1, 3, 4, 5 and 8 bytes (R107). -/
theorem test_witness_immediates :
    imm [] = 0#32 ∧ imm (bytes [0x80]) = 0xFFFFFF80#32 ∧ imm (bytes [0x00, 0x00, 0x80]) = 0xFF800000#32 ∧
    imm (bytes [0x00, 0x00, 0x80, 0x00]) = 0x00800000#32 ∧ imm (bytes [1, 2, 3, 4, 0xFF]) = 0x04030201#32 ∧
    imm (bytes [1, 2, 3, 4, 5, 6, 7, 0x80]) = 0x04030201#32 := by decide

/-- The four bytes of the data page may be read, and may be written. -/
theorem test_witness_access :
    Readable (startAt 0 [0x00] []) 0x20000#32 4 (fun k => BitVec.ofNat 8 (0x81 + k)) ∧
    Writable (startAt 0 [0x00] []) 0x20FFC#32 4 := by
  constructor
  · intro k hk
    interval_cases k <;> decide
  · intro k hk
    interval_cases k <;> decide

/-- The operands reach those bytes, in an absolute and in an indirect form. -/
theorem test_witness_effAddr :
    effAddr absBase ⟨3, 0x20000#32⟩ = 0x20000#32 ∧
    effAddr ((startAt 0 [0x00] [(0, 0x20FFF#32)]).reg 0) ⟨1, 0xFFFFFFFD#32⟩ = 0x20FFC#32 := by decide

/-- A load that runs over the end of the page at its third byte, and one that finds its first and one that finds its last byte
without a value. -/
theorem test_witness_loadFaults :
    let s := startAt 0 [0x00] []
    loadAccess (.loadU32 4 ⟨3, 0x20FFE#32⟩) s = some (0x20FFE#32, 4) ∧
    s.accessOf (0x20FFE#32 + BitVec.ofNat 32 2) = .noAccess ∧ (∀ j < 2, s.accessOf (0x20FFE#32 + BitVec.ofNat 32 j) ≠ .noAccess) ∧
    loadAccess (.loadU32 4 ⟨3, 0x20008#32⟩) s = some (0x20008#32, 4) ∧ s.byteAt (0x20008#32 + BitVec.ofNat 32 0) = none ∧
    (∀ j < 4, s.accessOf (0x20008#32 + BitVec.ofNat 32 j) ≠ .noAccess) ∧
    loadAccess (.loadU16 4 ⟨3, 0x20007#32⟩) s = some (0x20007#32, 2) ∧ s.byteAt (0x20007#32 + BitVec.ofNat 32 1) = none ∧
    (∀ j < 2, s.accessOf (0x20007#32 + BitVec.ofNat 32 j) ≠ .noAccess) ∧
    (∀ j < 1, s.byteAt (0x20007#32 + BitVec.ofNat 32 j) ≠ none) := by decide

/-- A store that runs over the end of the page at its last byte, as the decoded instruction of a state with gas. -/
theorem test_witness_storeFaults :
    let s := startAt 0 [0x16, 0x03, 0xFD, 0x0F, 0x02] []
    let i := Instr.storeU32 3 ⟨3, 0x20FFD#32⟩
    storeAccess i s = some (0x20FFD#32, 4, s.reg 3) ∧ s.accessOf (0x20FFD#32 + BitVec.ofNat 32 3) ≠ .write ∧
    (∀ j < 3, s.accessOf (0x20FFD#32 + BitVec.ofNat 32 j) = .write) ∧ s.status = .running ∧ s.fault = none ∧
    fetchDecode s = .ok (0x16, i) ∧ outOfGas (chargeGas 0x16 s) = false := by decide

/-- Each refused instruction as the decoded one, with gas left and with none, and one under another map. -/
theorem test_witness_refused :
    let a := startAt 0 [0x13, 0x00, 0x04] []
    let b := startAt 0 [0x2A, 0x12, 0x01, 0x07, 0x00] []
    let c := { startAt 0 [0x57, 0x12] [] with gas := 0 }
    a.status = .running ∧ a.fault = none ∧ fetchDecode a = .ok (19, .jumpInd 0 ⟨1, 4#32⟩) ∧
    outOfGas (chargeGas 19 a) = false ∧
    fetchDecode b = .ok (42, .loadImmJumpInd 1 2 ⟨1, 7#32⟩ ⟨1, 0#32⟩) ∧
    fetchDecode c = .ok (87, .sbrk 1 2) ∧ outOfGas (chargeGas 87 c) = true ∧
    fetchDecode (underOtherMap [201, 0x12]) = .ok (201, .sbrk 1 2) := by decide

/-- A Running state whose bytes decode: with gas for a next state, for a refusal and for a memory fault, and with none. -/
theorem test_witness_step :
    let s := startAt 0 [0x11] []
    let f := startAt 0 [0x57, 0x12] []
    let m := startAt 0 [0x3C, 0x03, 0x00, 0x00, 0x03] []
    (s.status = .running ∧ s.fault = none ∧ s.program.code[s.pc.toNat]? = some 0x11#8 ∧
      decode s.config s.program s.pc.toNat = .ok .fallthrough ∧
      ¬ ((chargeGas 0x11 s).gas < 0 ∧ s.config.gasPolicy = .halt) ∧
      decode f.config f.program f.pc.toNat = .ok (.sbrk 1 2) ∧
      decode m.config m.program m.pc.toNat = .ok (.loadU8 3 ⟨3, 0x30000#32⟩) ∧
      (chargeGas 0x11 { s with gas := 0 }).gas < 0 ∧ s.config.gasPolicy = .halt) ∧
    exec (.sbrk 1 2) (chargeGas 0x57 f) = .fault .refusedByRule ∧
    exec (.loadU8 3 ⟨3, 0x30000#32⟩) (chargeGas 0x3C m) = .fault (.model (.memoryInaccessible 0x30000#32)) :=
  ⟨by decide, rfl, rfl⟩

/-- A decode that fails in each of the two ways. -/
theorem test_witness_failedDecode :
    let s := startAt 0 [0x08, 0x12] []
    let f := startAt 0 [0x58] []
    s.status = .running ∧ s.fault = none ∧ decode s.config s.program s.pc.toNat = .decodeError ∧
    f.status = .running ∧ f.fault = none ∧ decode f.config f.program f.pc.toNat = .modelFault (.unknownOpcode 0x58#8) := by decide

/-- Steps into each of the outcomes that the precision statement speaks of: a recorded fault, Trapped, OutOfGas and Host. -/
theorem test_witness_outcomes :
    (afterStep (startAt 0 [0x57, 0x12] []) fun t => t.fault) = some (some (.refused 87)) ∧
    (afterStep (startAt 0 [0x00] []) fun t => t.status) = some .trapped ∧
    (afterStep { startAt 0 [0x00] [] with gas := 0 } fun t => t.status) = some .outOfGas ∧
    (afterStep (startAt 0 [0x4E, 0x05] []) fun t => (t.status, t.hostCall)) = some (.host, 5#32) := by decide

/-- A step that changes a byte. -/
theorem test_witness_memoryChange :
    (afterStep (startAt 0 [0x47, 0x03, 0x00, 0x00, 0x02] [(3, 0x11223344#32)]) fun t => t.byteAt 0x20000#32) = some (some 0x44#8) ∧
    (startAt 0 [0x00] []).byteAt 0x20000#32 = some 0x81#8 := by decide

/-- A run of two steps that has a next state, and a byte without the right `write`. -/
theorem test_witness_run :
    (∃ t, Host.Core.run Sys2Proof.core 2 (startAt 0 [0x11, 0x11, 0x00] []) = .next t) ∧
    (startAt 0 [0x00] []).accessOf 0x21000#32 ≠ .write := ⟨⟨_, rfl⟩, by decide⟩

/-- The invariant holds of a state that steps. -/
theorem test_witness_inv : Inv (startAt 0 [0x11] []) ∧ ∃ t, step (startAt 0 [0x11] []) = .next t :=
  ⟨⟨by decide, by decide, fun _ h => absurd h (by decide)⟩, _, rfl⟩

/-- The standard configuration halts on negative gas and charges every opcode. -/
theorem test_witness_gasBound : State.reset.config.gasPolicy = .halt ∧
    ∀ op : Byte, 0 < (State.reset.config.gasCost[op.toNat] : Nat) :=
  ⟨rfl, fun op => by simp [State.reset, State.resetWith, Config.standard]⟩

/-- Two states that differ in gas and the host-call register only, both of which step without running out of gas. -/
theorem test_witness_agree :
    let s := startAt 0 [0x11] []
    let s' := { s with gas := 5, hostCall := 7#32 }
    AgreeButGas s s' ∧ (∃ t, step s = .next t ∧ t.status ≠ .outOfGas) ∧ ∃ t, step s' = .next t ∧ t.status ≠ .outOfGas :=
  ⟨⟨rfl, rfl, rfl, rfl, rfl, rfl, rfl⟩, ⟨_, rfl, by decide⟩, _, rfl, by decide⟩

/-- A well-placed instruction that is no load and no store, one that loads, and one that stores. -/
theorem test_witness_wellPlaced :
    let s := startAt 0 [0x3C, 0x03, 0x00, 0x00, 0x02] []
    let i := Instr.loadU8 3 ⟨3, 0x20000#32⟩
    s.status = .running ∧ s.fault = none ∧ i.wf = true ∧ nibbleLen i.args ≤ 4 ∧
    s.config.opcodeMap.lookup 0x3C = some i.mnemonic ∧ StandsAt s.config s.program s.pc.toNat (encodeAs 0x3C i) ∧ (∀ a n, loadAccess i s = some (a, n) → ∃ b, Readable s a n b) ∧
    ∀ a n v, storeAccess i s = some (a, n, v) → Writable s a n := by
  refine ⟨by decide, by decide, by decide, by decide, by decide, standsAt_of_stands (by decide), ?_, nofun⟩
  rintro a n h
  cases h
  refine ⟨fun _ => 0x81#8, fun k hk => ?_⟩
  interval_cases k
  decide

/-- A state a resume returns from, and two it does not. -/
theorem test_witness_resume :
    let s := startAt 0 [0x00] []
    (s.withStatus .host).status = .host ∧ (s.withStatus .host).fault = none ∧ s.status ≠ .host ∧
    (s.recordFault (.refused 87)).fault ≠ none := by decide

/-- Code that the mask just covers, and one byte more. -/
theorem test_witness_load :
    loadProgram (bytes [0, 0, 0, 0, 0, 0, 0, 0]) [0x01#8] = .ok ⟨bytes [0, 0, 0, 0, 0, 0, 0, 0], [0x01#8]⟩ ∧
    loadProgram (bytes [0, 0, 0, 0, 0, 0, 0, 0, 0]) [0x01#8] = .error .malformedProgram := by decide

/-- The disassembler at each of its ends: the end of the code, a missing byte, and an opcode with no entry (R145). -/
theorem test_witness_disassemble :
    let cfg := Config.standard []
    disassemble cfg ⟨bytes [0x04, 0x00, 0x05, 0x00], [0x09#8]⟩ = ([⟨0, "load_imm", .oneReg1Imm 0 ⟨1, 5#32⟩, bytes [0x04, 0x00, 0x05]⟩,
      ⟨3, "trap", .noArgs, bytes [0x00]⟩], none) ∧
    disassemble cfg ⟨bytes [0x00, 0x08, 0x12], [0x03#8]⟩ = ([⟨0, "trap", .noArgs, bytes [0x00]⟩], none) ∧
    disassemble cfg ⟨bytes [0x00, 0x58], [0x03#8]⟩ = ([⟨0, "trap", .noArgs, bytes [0x00]⟩], some (.unknownOpcode 0x58#8)) := by decide

/-- The same instruction under two maps: a decode that succeeds, one that ends at a missing byte, and the steps of both. -/
theorem test_witness_otherMap :
    let s := { startAt 0 [0x08, 0x12, 0x03] [(1, 5#32), (2, 7#32)] with config := Config.standard [] }
    let s' := { s with
      config := { s.config with opcodeMap := otherMap }
      program := { s.program with code := s.program.code.set s.pc.toNat 200 } }
    s.program.code[s.pc.toNat]? = some 8 ∧ s.config.opcodeMap.lookup 8 = some .add ∧ otherMap.lookup 200 = some .add ∧
    gasCostOf s.config 200 = gasCostOf s.config 8 ∧
    decode s'.config s'.program 0 = .ok (.add 1 2 3) ∧
    (startAt 0 [0x08, 0x12] []).program.code[0]? = some 8 ∧
    decode (Config.standard []) (startAt 0 [0x08, 0x12] []).program 0 = .decodeError ∧
    regAfter s 3 = some 12#32 ∧ regAfter s' 3 = some 12#32 := by decide

end Sys2Proof.Tests
end

section
/-! PROOFS. Decoded instructions are well formed (O3): the value of an immediate's bytes, the bounds of each argument shape,
the record that a format builds its instruction from, and the decode. -/

namespace Sys2Proof

/-! ### Little-endian numbers (spec/00_scope.md R24) -/

/-- `le` is the library's digit sum in base 256, so its laws hold. -/
theorem le_eq_ofDigits (b : List Byte) : le b = Nat.ofDigits 256 (b.map BitVec.toNat) := by
  induction b with
  | nil => rfl
  | cons x xs ih => simp [le, Nat.ofDigits_cons, ih]

theorem le_append (b c : List Byte) : le (b ++ c) = le b + 256 ^ b.length * le c := by
  simp [le_eq_ofDigits, Nat.ofDigits_append]

theorem le_lt (b : List Byte) : le b < 256 ^ b.length := by
  have digits : ∀ d ∈ b.map BitVec.toNat, d < 256 := by
    intro d hd
    obtain ⟨x, -, rfl⟩ := List.mem_map.1 hd
    exact x.isLt
  simpa [le_eq_ofDigits] using Nat.ofDigits_lt_base_pow_length (by omega) digits

theorem le_replicate_zero (n : Nat) : le (List.replicate n 0x00#8) = 0 := by
  induction n with
  | zero => rfl
  | succ n ih => simp [List.replicate_succ, le, ih]

theorem le_replicate_ones (n : Nat) : le (List.replicate n 0xFF#8) + 1 = 256 ^ n := by
  induction n with
  | zero => rfl
  | succ n ih =>
    simp only [List.replicate_succ, le, BitVec.toNat_ofNat, pow_succ]
    omega

/-! ### The value of an immediate (R106, R107) -/

/-- The sign bit of the number that some bytes give is bit 7 of the last one. -/
theorem msb_ofNat_le_append (b : List Byte) (last : Byte) :
    (BitVec.ofNat (8 * (b ++ [last]).length) (le (b ++ [last]))).msb = last.msb := by
  have pos : 0 < 256 ^ b.length := by positivity
  have value : le (b ++ [last]) = le b + 256 ^ b.length * last.toNat := by simp [le_append, le]
  have width : 2 ^ (8 * (b ++ [last]).length - 1) = 128 * 256 ^ b.length := by
    rw [List.length_append, List.length_singleton, show 8 * (b.length + 1) - 1 = 7 + 8 * b.length by omega, pow_add, pow_mul]
    norm_num
  have fits : le (b ++ [last]) < 2 ^ (8 * (b ++ [last]).length) := by simpa [pow_mul] using le_lt (b ++ [last])
  rw [BitVec.msb_eq_decide, BitVec.msb_eq_decide, BitVec.toNat_ofNat, Nat.mod_eq_of_lt fits, width, value,
    decide_eq_decide, ← Nat.le_div_iff_mul_le pos, Nat.add_mul_div_left _ _ pos, Nat.div_eq_of_lt (le_lt b), zero_add]

/-- The fill byte repeats the sign bit of the bytes that are there; no bytes have none (R106). -/
theorem fillByte_eq (b : List Byte) :
    fillByte b = if (BitVec.ofNat (8 * b.length) (le b)).msb then 0xFF#8 else 0x00#8 := by
  cases b using List.reverseRecOn with
  | nil => rfl
  | append_singleton b last => simp [fillByte, msb_ofNat_le_append, -List.length_append]

/-- Up to four bytes deliver the sign extension of their number (R107). -/
theorem imm_eq_signExtend (b : List Byte) (h : b.length ≤ 4) :
    imm b = (BitVec.ofNat (8 * b.length) (le b)).signExtend 32 := by
  have buffer : (setBytes b).take 4 = b ++ List.replicate (4 - b.length) (fillByte b) := by
    have whole : b.take immBuf = b := List.take_of_length_le (by simp only [immBuf]; omega)
    rw [setBytes, whole, List.take_append, List.take_of_length_le h, List.take_replicate]
    congr 2
    simp only [immBuf]
    omega
  have fits : le b < 2 ^ (8 * b.length) := by simpa [pow_mul] using le_lt b
  have small : 2 ^ (8 * b.length) ≤ 2 ^ 32 := Nat.pow_le_pow_right (by omega) (by omega)
  have split32 : 256 ^ b.length * 256 ^ (4 - b.length) = 2 ^ 32 := by
    rw [← pow_add, Nat.add_sub_cancel' h]
    norm_num
  apply BitVec.eq_of_toNat_eq
  rw [imm, getU32, buffer, le_append, fillByte_eq, BitVec.toNat_signExtend, BitVec.toNat_setWidth, BitVec.toNat_ofNat,
    BitVec.toNat_ofNat, Nat.mod_eq_of_lt fits]
  split
  · have ones := congrArg (256 ^ b.length * ·) (le_replicate_ones (4 - b.length))
    simp only [mul_add, mul_one, split32] at ones
    rw [pow_mul] at fits small ⊢
    norm_num only at fits small ones ⊢
    omega
  · rw [le_replicate_zero]
    simp

/-- A sign extension keeps the bits it extends. -/
theorem setWidth_signExtend_of_le {w v : Nat} (x : BitVec w) (h : w ≤ v) : (x.signExtend v).setWidth w = x := by
  apply BitVec.eq_of_getLsbD_eq
  intro k hk
  have hv : k < v := by omega
  simp [BitVec.getElem_signExtend, hk, hv]

/-- Any bytes deliver a value that so many bytes can give. -/
theorem imm_fits (b : List Byte) : (Imm.mk b.length (imm b)).fits = true := by
  rw [Imm.fits, beq_iff_eq]
  by_cases h : b.length ≤ 4
  · have narrow : 8 * b.length ≤ 32 := by omega
    rw [imm_eq_signExtend b h, setWidth_signExtend_of_le _ narrow]
  · have wide : 32 ≤ 8 * b.length := by omega
    rw [BitVec.signExtend_eq_setWidth_of_le _ wide, BitVec.setWidth_setWidth_of_le _ wide, BitVec.setWidth_eq]

/-! ### What each argument shape reads (R114, R118 to R129) -/

/-- The record is one that an encoding holds, and an instruction of its length at pc ends within the code. -/
def Args.HeldAt (p : Program) (pc : Nat) (a : Args) : Prop := a.wf = true ∧ pc + a.skip ≤ p.code.length

section ArgumentShapes

variable {cfg : Config} {p : Program} {pc : Nat}

theorem codeByte_lt {i : Nat} {b : Byte} (h : codeByte p i = .ok b) : i < p.code.length :=
  (List.getElem?_eq_some_iff.1 ((codeByte_ok p i b).1 h)).1

/-- An immediate read within the code, or at its end, has the length asked for, fits it and ends within the code. -/
theorem codeImm_fits {i n : Nat} {x : Imm} (hi : i ≤ p.code.length) (h : codeImm p i n = .ok x) :
    x.len = n ∧ x.fits = true ∧ i + n ≤ p.code.length := by
  obtain ⟨inside, rfl⟩ := (codeImm_ok p i n x).1 h
  have length : ((p.code.drop i).take n).length = n := by
    rw [List.length_take, List.length_drop]
    omega
  have fits := imm_fits ((p.code.drop i).take n)
  rw [length] at fits
  exact ⟨rfl, fits, by omega⟩

/-- An immediate after a header, with the length that the mask gives. -/
theorem codeImm_maskLen_wf {hdr i : Nat} {x : Imm} (hh : pc + hdr ≤ p.code.length)
    (h : codeImm p (pc + hdr) (maskLen cfg p i) = .ok x) : x.maskWf = true ∧ pc + (hdr + x.len) ≤ p.code.length := by
  obtain ⟨len, fits, inside⟩ := codeImm_fits hh h
  exact ⟨by simp [Imm.maskWf, len, fits, maskLen_pos, maskLen_le], by omega⟩

/-- The two immediates after the opcode and a header, the first with a length that a nibble gives. -/
theorem decodeImmPair_wf {hdr n lX : Nat} {xy : Imm × Imm} (hh : pc + 1 + hdr ≤ p.code.length)
    (hn : lenIdx cfg n = .ok lX) (h : decodeImmPair cfg p pc hdr lX = .ok xy) :
    (xy.1.nibbleWf && xy.2.secondWf) = true ∧ pc + (1 + hdr + xy.1.len + xy.2.len) ≤ p.code.length := by
  simp only [decodeImmPair, Decoded.bind_eq_ok, Decoded.ok.injEq] at h
  obtain ⟨x, hx, y, hy, rfl⟩ := h
  obtain ⟨lenX, fitsX, insideX⟩ := codeImm_fits hh hx
  obtain ⟨lenY, fitsY, insideY⟩ := codeImm_fits insideX hy
  exact ⟨by simp [Imm.nibbleWf, Imm.secondWf, lenX, lenY, fitsX, fitsY, lenIdx_ok_le cfg n lX hn, secondLen_le],
    by dsimp only; omega⟩

theorem decodeOneImm_heldAt {x : Imm} (hpc : pc < p.code.length) (h : decodeOneImm cfg p pc = .ok x) :
    (Args.oneImm x).HeldAt p pc :=
  codeImm_maskLen_wf hpc h

theorem decodeTwoImm_heldAt {a : Imm × Imm} (h : decodeTwoImm cfg p pc = .ok a) : (Args.twoImm a.1 a.2).HeldAt p pc := by
  simp only [decodeTwoImm, Decoded.bind_eq_ok] at h
  obtain ⟨b, hb, lX, hl, hxy⟩ := h
  exact decodeImmPair_wf (codeByte_lt hb) hl hxy

theorem decodeOneReg1Imm_heldAt {a : Reg × Imm} (h : decodeOneReg1Imm cfg p pc = .ok a) :
    (Args.oneReg1Imm a.1 a.2).HeldAt p pc := by
  simp only [decodeOneReg1Imm, Decoded.bind_eq_ok, Decoded.ok.injEq] at h
  obtain ⟨b, hb, reg, -, x, hx, rfl⟩ := h
  exact codeImm_maskLen_wf (codeByte_lt hb) hx

theorem decodeOneReg2Imm_heldAt {a : Reg × Imm × Imm} (h : decodeOneReg2Imm cfg p pc = .ok a) :
    (Args.oneReg2Imm a.1 a.2.1 a.2.2).HeldAt p pc := by
  simp only [decodeOneReg2Imm, Decoded.bind_eq_ok, Decoded.ok.injEq] at h
  obtain ⟨b, hb, reg, -, lX, hl, xy, hxy, rfl⟩ := h
  exact decodeImmPair_wf (codeByte_lt hb) hl hxy

theorem decodeRegPair_heldAt {a : Reg × Reg} (h : decodeRegPair cfg p pc = .ok a) : (Args.twoRegs a.1 a.2).HeldAt p pc := by
  simp only [decodeRegPair, Decoded.bind_eq_ok] at h
  obtain ⟨b, hb, -⟩ := h
  exact ⟨rfl, codeByte_lt hb⟩

theorem decodeTwoRegs1Imm_heldAt {a : Reg × Reg × Imm} (h : decodeTwoRegs1Imm cfg p pc = .ok a) :
    (Args.twoRegs1Imm a.1 a.2.1 a.2.2).HeldAt p pc := by
  simp only [decodeTwoRegs1Imm, Decoded.bind_eq_ok, Decoded.ok.injEq] at h
  obtain ⟨rr, hr, x, hx, rfl⟩ := h
  obtain ⟨-, inside⟩ := decodeRegPair_heldAt hr
  exact codeImm_maskLen_wf inside hx

theorem decodeTwoRegs2Imm_heldAt {a : Reg × Reg × Imm × Imm} (h : decodeTwoRegs2Imm cfg p pc = .ok a) :
    (Args.twoRegs2Imm a.1 a.2.1 a.2.2.1 a.2.2.2).HeldAt p pc := by
  simp only [decodeTwoRegs2Imm, Decoded.bind_eq_ok, Decoded.ok.injEq] at h
  obtain ⟨rr, -, c, hc, lX, hl, xy, hxy, rfl⟩ := h
  exact decodeImmPair_wf (codeByte_lt hc) hl hxy

theorem decodeThreeRegs_heldAt {a : Reg × Reg × Reg} (h : decodeThreeRegs cfg p pc = .ok a) :
    (Args.threeRegs a.1 a.2.1 a.2.2).HeldAt p pc := by
  simp only [decodeThreeRegs, Decoded.bind_eq_ok] at h
  obtain ⟨rr, -, c, hc, -⟩ := h
  exact ⟨rfl, codeByte_lt hc⟩

/-! ### The record behind a decoded instruction (R112, R113) -/

/-- A mnemonic's format builds only instructions of that mnemonic, each from its own record: the converse of
`Laws.TableRow.Statement`. Of the twelve kinds of record only the one of the mnemonic's shape builds anything. -/
theorem Mnemonic.format_build {m : Mnemonic} {a : Args} {i : Instr} (h : m.format.build a = some i) :
    i.mnemonic = m ∧ i.args = a := by
  cases m <;> cases a <;> cases h <;> exact ⟨rfl, rfl⟩

/-- A shape's rule answers what the format builds from a record held at pc. -/
theorem decodeFormat_record {f : Format} {i : Instr} (hpc : pc < p.code.length) (h : decodeFormat cfg p pc f = .ok i) :
    ∃ a : Args, f.build a = some i ∧ a.HeldAt p pc := by
  cases f <;> simp only [decodeFormat, Decoded.bind_eq_ok, Decoded.ok.injEq] at h
  case noArgs =>
    exact ⟨.noArgs, congrArg some h, rfl, hpc⟩
  case oneImm =>
    obtain ⟨x, hx, rfl⟩ := h
    exact ⟨.oneImm x, rfl, decodeOneImm_heldAt hpc hx⟩
  case twoImm =>
    obtain ⟨a, ha, rfl⟩ := h
    exact ⟨.twoImm a.1 a.2, rfl, decodeTwoImm_heldAt ha⟩
  case oneOffset =>
    obtain ⟨x, hx, rfl⟩ := h
    exact ⟨.oneOffset x, rfl, decodeOneImm_heldAt hpc hx⟩
  case oneReg1Imm =>
    obtain ⟨a, ha, rfl⟩ := h
    exact ⟨.oneReg1Imm a.1 a.2, rfl, decodeOneReg1Imm_heldAt ha⟩
  case oneReg2Imm =>
    obtain ⟨a, ha, rfl⟩ := h
    exact ⟨.oneReg2Imm a.1 a.2.1 a.2.2, rfl, decodeOneReg2Imm_heldAt ha⟩
  case oneReg1Imm1Offset =>
    obtain ⟨a, ha, rfl⟩ := h
    exact ⟨.oneReg1Imm1Offset a.1 a.2.1 a.2.2, rfl, decodeOneReg2Imm_heldAt ha⟩
  case twoRegs =>
    obtain ⟨a, ha, rfl⟩ := h
    exact ⟨.twoRegs a.1 a.2, rfl, decodeRegPair_heldAt ha⟩
  case twoRegs1Imm =>
    obtain ⟨a, ha, rfl⟩ := h
    exact ⟨.twoRegs1Imm a.1 a.2.1 a.2.2, rfl, decodeTwoRegs1Imm_heldAt ha⟩
  case twoRegs1Offset =>
    obtain ⟨a, ha, rfl⟩ := h
    exact ⟨.twoRegs1Offset a.1 a.2.1 a.2.2, rfl, decodeTwoRegs1Imm_heldAt ha⟩
  case twoRegs2Imm =>
    obtain ⟨a, ha, rfl⟩ := h
    exact ⟨.twoRegs2Imm a.1 a.2.1 a.2.2.1 a.2.2.2, rfl, decodeTwoRegs2Imm_heldAt ha⟩
  case threeRegs =>
    obtain ⟨a, ha, rfl⟩ := h
    exact ⟨.threeRegs a.1 a.2.1 a.2.2, rfl, decodeThreeRegs_heldAt ha⟩

end ArgumentShapes

/-- Settles O3: the decode runs the shape's rule of the entry's mnemonic, and the record which that rule reads is the
instruction's. -/
theorem decodedInstructionsAreWellFormed : Obligations.DecodedInstructionsAreWellFormed := by
  unfold Obligations.DecodedInstructionsAreWellFormed
  intro cfg p pc i h
  obtain ⟨op, m, hop, start, entry, hf⟩ := (decode_ok cfg p pc i).1 h
  have hpc : pc < p.code.length := (List.getElem?_eq_some_iff.1 hop).1
  obtain ⟨a, built, wf, inside⟩ := decodeFormat_record hpc hf
  obtain ⟨rfl, rfl⟩ := Mnemonic.format_build built
  exact ⟨wf, start, inside, op, hop, entry, (encodeAs_length op i).symm⟩

end Sys2Proof
end

section
/-! PROOFS. What steps and runs keep (O40, O41) and who writes the host-call register (O38): the frame of an instruction, read
off the forms of its answer, then the frame of a step, read off the five forms of a step. -/

namespace Sys2Proof.Machine

/-! ### The frame of an instruction and of a step -/

/-- The memory is as before, or a value was stored to bytes that may all be written (spec/20_memory.md R62, R71). -/
def MemKeptOrStored (s t : State) : Prop :=
  t.mem = s.mem ∨ ∃ a n v, Writable s a n ∧ t.mem = writeBytes s.mem a n v

theorem MemKeptOrStored.memWf {s t : State} (h : MemKeptOrStored s t) (hs : Memory.wf s.mem = true) :
    Memory.wf t.mem = true := by
  obtain kept | ⟨a, n, v, -, stored⟩ := h
  · rwa [kept]
  · rw [stored]
    exact wf_writeBytes s.mem a n v hs

/-- A store reaches writable bytes only, so it leaves a byte without the right `write` alone. -/
theorem MemKeptOrStored.byteAt {s t : State} (h : MemKeptOrStored s t) {x : Word} (hx : s.accessOf x ≠ .write) :
    t.byteAt x = s.byteAt x := by
  unfold State.byteAt
  obtain kept | ⟨a, n, v, writable, stored⟩ := h
  · rw [kept]
  · rw [stored]
    refine read_writeBytes_other s.mem a n v x fun k hk e => hx ?_
    rw [e]
    exact writable k hk

/-- What an instruction that completes leaves unchanged, whichever it is. -/
structure ExecFrame (i : Instr) (s t : State) : Prop where
  gas : t.gas = s.gas
  program : t.program = s.program
  config : t.config = s.config
  mem : MemKeptOrStored s t
  hostCall : t.hostCall = s.hostCall ∨ ∃ immX, i = .ecalli immX ∧ t.hostCall = immX.val

theorem exec_frame {i : Instr} {s t : State} (h : exec i s = .next t) : ExecFrame i s t := by
  have answer := execAnswer i s
  rw [h] at answer
  cases answer with
  | regs regs ir =>
    exact ⟨advance_gas .., advance_program .., advance_config .., .inl (advance_mem ..), .inl (advance_hostCall ..)⟩
  | trap => exact ⟨rfl, rfl, rfl, .inl rfl, .inl rfl⟩
  | ecalli immX isEcalli => exact ⟨rfl, rfl, rfl, .inl rfl, .inr ⟨immX, isEcalli, rfl⟩⟩
  | store a n v access width writable => exact ⟨rfl, rfl, rfl, .inr ⟨a, n, v, writable, rfl⟩, .inl rfl⟩

/-- What every step leaves unchanged. -/
structure StepFrame (s t : State) : Prop where
  program : t.program = s.program
  config : t.config = s.config
  mem : MemKeptOrStored s t
  hostCall : t.hostCall = s.hostCall ∨ ∃ op immX, fetchDecode s = .ok (op, .ecalli immX) ∧ t.hostCall = immX.val

/-- Of the five forms of a step, only a completed execution writes more than the status, the gas and the fault record. -/
theorem step_frame {s t : State} (h : step s = .next t) : StepFrame s t := by
  obtain ⟨-, -, form⟩ := step_next s t h
  cases form with
  | decodeError _ eq => subst eq; exact ⟨rfl, rfl, .inl rfl, .inl rfl⟩
  | decodeFault r _ eq => subst eq; exact ⟨rfl, rfl, .inl rfl, .inl rfl⟩
  | outOfGas op i _ _ eq => subst eq; exact ⟨rfl, rfl, .inl rfl, .inl rfl⟩
  | ran op i decoded _ run =>
    obtain ⟨-, program, config, mem, hostCall⟩ := exec_frame run
    refine ⟨program, config, mem, hostCall.imp_right ?_⟩
    rintro ⟨immX, rfl, written⟩
    exact ⟨op, immX, decoded, written⟩
  | execFault op i r _ _ _ eq => subst eq; exact ⟨rfl, rfl, .inl rfl, .inl rfl⟩

/-! ### Runs keep the program, the configuration and the protected bytes -/

/-- What O40 says of the ends of a run: program and configuration are those of the start, and so is every byte that the start
does not let be written. -/
structure ProtectedKept (s t : State) : Prop where
  program : t.program = s.program
  config : t.config = s.config
  bytes : ∀ x : Word, s.accessOf x ≠ .write → t.byteAt x = s.byteAt x

theorem ProtectedKept.refl (s : State) : ProtectedKept s s := ⟨rfl, rfl, fun _ _ => rfl⟩

/-- The access rights are part of the configuration, so the same bytes are protected after the first part of a run. -/
theorem ProtectedKept.trans {s u t : State} (first : ProtectedKept s u) (rest : ProtectedKept u t) : ProtectedKept s t where
  program := rest.program.trans first.program
  config := rest.config.trans first.config
  bytes x hx := by
    have sameRight : u.accessOf x = s.accessOf x := congrArg (accessRight · x) first.config
    rw [rest.bytes x (sameRight ▸ hx), first.bytes x hx]

theorem step_protectedKept {s t : State} (h : step s = .next t) : ProtectedKept s t :=
  have frame := step_frame h
  ⟨frame.program, frame.config, fun _ => frame.mem.byteAt⟩

theorem run_protectedKept (n : Nat) (s t : State) (h : Host.Core.run Sys2Proof.core n s = .next t) : ProtectedKept s t := by
  induction n generalizing s with
  | zero =>
    cases h
    exact .refl _
  | succ n ih =>
    obtain ⟨u, first, rest⟩ := run_succ_next n s t h
    exact (step_protectedKept first).trans (ih u rest)

/-- Settles O40, by induction on the number of steps: one step keeps what is protected, and keeps which bytes are. -/
theorem runsKeepProgramAndProtectedBytes : Obligations.RunsKeepProgramAndProtectedBytes := by
  unfold Obligations.RunsKeepProgramAndProtectedBytes
  intro n s t h
  obtain ⟨program, config, bytes⟩ := run_protectedKept n s t h
  exact ⟨program, config, bytes⟩

/-! ### The invariant -/

/-- The gas part of the invariant: a step starts Running, so its gas was not negative under the policy `halt`; only the charge
lowers it, and a charge below 0 ends in OutOfGas (spec/40_dispatch.md R173). -/
theorem step_gasHalt {s t : State} (hs : Inv s) (h : step s = .next t) :
    t.config.gasPolicy = .halt → t.gas < 0 → t.status = .outOfGas := by
  obtain ⟨running, -, form⟩ := step_next s t h
  have before : s.config.gasPolicy = .halt → ¬ s.gas < 0 := fun halt negative =>
    nomatch running.symm.trans (hs.gasHalt halt negative)
  cases form with
  | decodeError _ eq => subst eq; exact fun halt negative => absurd negative (before halt)
  | decodeFault r _ eq => subst eq; exact fun halt negative => absurd negative (before halt)
  | outOfGas op i _ _ eq => subst eq; exact fun _ _ => rfl
  | ran op i _ out run =>
    have frame := exec_frame run
    rw [frame.config, frame.gas]
    intro halt negative
    exact absurd ((outOfGas_iff _).2 ⟨negative, halt⟩) (by simp [out])
  | execFault op i r _ _ _ eq => subst eq; exact fun halt negative => absurd negative (before halt)

/-- Settles O41: stores keep the canonical form, nothing writes the program, and the gas part is `step_gasHalt`. -/
theorem stepKeepsTheInvariant : Obligations.StepKeepsTheInvariant := by
  unfold Obligations.StepKeepsTheInvariant
  intro s t hs h
  have frame := step_frame h
  exact ⟨frame.mem.memWf hs.memWf, frame.program ▸ hs.covered, step_gasHalt hs h⟩

/-! ### The host-call register -/

/-- Settles O38: the frame of a step lets `hostCall` change only to the immediate of a decoded `ecalli`. -/
theorem onlyEcalliWritesHostCall : Obligations.OnlyEcalliWritesHostCall := by
  unfold Obligations.OnlyEcalliWritesHostCall
  intro s t h changed
  exact (step_frame h).hostCall.resolve_left changed

end Sys2Proof.Machine
end

section
/-! PROOFS. No instruction reads gas or the host-call register (O44). Two states that agree on the rest are one state and its
perturbation, which moves the gas by d and puts another value into `hostCall`; every phase of a step commutes with that. -/

namespace Sys2Proof.Machine

/-! ### Perturbing what no instruction reads -/

/-- The state with d more gas and the host-call register holding v. -/
def State.perturb (s : State) (d : Int) (v : Word) : State := { s with gas := s.gas + d, hostCall := v }

theorem AgreeButGas.eq_perturb {s s' : State} (h : AgreeButGas s s') : s' = s.perturb (s'.gas - s.gas) s'.hostCall := by
  obtain ⟨regs, pc, status, gas, hostCall, mem, fault, program, config⟩ := s
  obtain ⟨rfl, rfl, rfl, rfl, rfl, rfl, rfl⟩ := h
  simp [State.perturb]

theorem agreeButGas_perturb (s : State) (d : Int) (v : Word) : AgreeButGas s (s.perturb d v) :=
  ⟨rfl, rfl, rfl, rfl, rfl, rfl, rfl⟩

theorem perturb_advance (s : State) (d : Int) (v : Word) (skip : Nat) (ir : InstructionResult) :
    (s.perturb d v).advance skip ir = (s.advance skip ir).perturb d v := by
  cases ir <;> rfl

theorem fetchDecode_perturb (s : State) (d : Int) (v : Word) : fetchDecode (s.perturb d v) = fetchDecode s := rfl

theorem chargeGas_perturb (op : Byte) (s : State) (d : Int) (v : Word) :
    chargeGas op (s.perturb d v) = (chargeGas op s).perturb d v := by
  simp only [chargeGas, State.spendGas, State.perturb, State.mk.injEq, true_and, and_true]
  exact add_sub_right_comm s.gas d _

theorem memWrite_perturb (s : State) (d : Int) (v : Word) (a : Word) (n : Nat) (x : Word) :
    memWrite (s.perturb d v) a n x = (memWrite s a n x).map (·.perturb d v) := by
  have sameRights : (s.perturb d v).accessOf = s.accessOf := rfl
  unfold memWrite
  rw [sameRights]
  split <;> rfl

/-- The second answer is the first one's with d more gas and some value in the host-call register. -/
inductive Perturbed (d : Int) : Result → Result → Prop where
  | next (t : State) (v : Word) : Perturbed d (.next t) (.next (t.perturb d v))
  | fault (f : Fault) : Perturbed d (.fault f) (.fault f)
  | refused (r : Refusal) : Perturbed d (.refused r) (.refused r)

/-! ### The operand forms -/

section Forms
variable (s : State) (d : Int) (v : Word)

/-- A register write: the operations, the moves and the immediate loads. -/
theorem setReg_perturbed (r : Reg) (x : Word) (skip : Nat) (ir : InstructionResult) :
    Perturbed d (.next ((s.setReg r x).advance skip ir)) (.next (((s.perturb d v).setReg r x).advance skip ir)) := by
  cases ir <;> exact .next _ v

/-- The pc advance, to whatever target: the branches. -/
theorem advance_perturbed (skip : Nat) (ir : InstructionResult) :
    Perturbed d (.next (s.advance skip ir)) (.next ((s.perturb d v).advance skip ir)) := by
  rw [perturb_advance]
  exact .next _ v

/-- A conditional register write: the conditional moves. -/
theorem moveIf_perturbed (c : Bool) (r : Reg) (x : Word) (skip : Nat) :
    Perturbed d (.next ((if c then s.setReg r x else s).advance skip .seq))
      (.next ((if c then (s.perturb d v).setReg r x else s.perturb d v).advance skip .seq)) := by
  cases c <;> exact .next _ v

/-- A register write with what a memory read answered: the loads. -/
theorem load_perturbed (a : Word) (n : Nat) (ext : Nat → Word) (r : Reg) (skip : Nat) :
    Perturbed d (afterMem (memRead s a n) fun x => (s.setReg r (ext x)).advance skip .seq)
      (afterMem (memRead (s.perturb d v) a n) fun x => ((s.perturb d v).setReg r (ext x)).advance skip .seq) := by
  have sameRead : memRead (s.perturb d v) a n = memRead s a n := rfl
  rw [sameRead]
  cases memRead s a n with
  | ok x => exact .next _ v
  | error f => exact .fault _

/-- A memory write: the stores. -/
theorem store_perturbed (a : Word) (n : Nat) (x : Word) (skip : Nat) :
    Perturbed d (afterMem (memWrite s a n x) fun t => t.advance skip .seq)
      (afterMem (memWrite (s.perturb d v) a n x) fun t => t.advance skip .seq) := by
  rw [memWrite_perturb]
  cases memWrite s a n x with
  | ok t => exact .next _ v
  | error f => exact .fault _

end Forms

/-! ### Every instruction -/

/-- Gas and the host-call register reach no instruction's answer but in their own places (spec/10_state.md R40, R50). -/
theorem exec_perturbed (i : Instr) (s : State) (d : Int) (v : Word) : Perturbed d (exec i s) (exec i (s.perturb d v)) := by
  cases i with
  | add | sub | mul | mulUpperSS | mulUpperUU | mulUpperSU | divU | divS | remU | remS
  | and | xor | or | shloL | shloR | sharR | setLtU | setLtS
  | addImm | mulImm | mulUpperSSImm | mulUpperUUImm | negAddImm | andImm | xorImm | orImm
  | shloLImm | shloRImm | sharRImm | shloLImmAlt | shloRImmAlt | sharRImmAlt
  | setLtUImm | setLtSImm | setGtUImm | setGtSImm | moveReg | loadImm | loadImmJump =>
    exact setReg_perturbed s d v _ _ _ _
  | cmovIz | cmovNz | cmovIzImm | cmovNzImm => exact moveIf_perturbed s d v _ _ _ _
  | jump | fallthrough
  | branchEqImm | branchNeImm | branchLtUImm | branchLeUImm | branchGeUImm | branchGtUImm
  | branchLtSImm | branchLeSImm | branchGeSImm | branchGtSImm
  | branchEq | branchNe | branchLtU | branchLtS | branchGeU | branchGeS => exact advance_perturbed s d v _ _
  | loadU8 | loadI8 | loadU16 | loadI16 | loadU32
  | loadIndU8 | loadIndI8 | loadIndU16 | loadIndI16 | loadIndU32 => exact load_perturbed s d v _ _ _ _ _
  | storeU8 | storeU16 | storeU32 | storeImmU8 | storeImmU16 | storeImmU32
  | storeImmIndU8 | storeImmIndU16 | storeImmIndU32
  | storeIndU8 | storeIndU16 | storeIndU32 => exact store_perturbed s d v _ _ _ _
  | trap => exact .next _ v
  | ecalli immX => exact .next _ immX.val
  | jumpInd | loadImmJumpInd | sbrk => exact .fault _

/-! ### Every step -/

/-- What a step does after the decode when the gas does not run out (spec/40_dispatch.md R171, R172, R174). -/
def stepPastGasCheck (s : State) : Result :=
  match fetchDecode s with
  | .ok d => settle s d.1 (exec d.2 (chargeGas d.1 s))
  | .decodeError => .next (s.withStatus .trapped)
  | .modelFault r => .next (s.recordFault r)

/-- A step that does not end in OutOfGas is its phases without the gas check. -/
theorem stepPastGasCheck_of_step {s t : State} (h : step s = .next t) (ht : t.status ≠ .outOfGas) :
    stepPastGasCheck s = .next t := by
  obtain ⟨-, -, form⟩ := step_next s t h
  cases form with
  | decodeError decoded eq => rw [stepPastGasCheck, decoded, eq]
  | decodeFault r decoded eq => rw [stepPastGasCheck, decoded, eq]
  | outOfGas op i _ _ eq => exact absurd (congrArg State.status eq) ht
  | ran op i decoded _ run => simp only [stepPastGasCheck, decoded, run, settle_of_next]
  | execFault op i r decoded _ raised eq => simp only [stepPastGasCheck, decoded, settle_of_raises s op r _ raised, eq]

/-- A recorded fault undoes the step, in the perturbed state as well. -/
theorem settle_perturbed {d : Int} {answer answer' : Result} (h : Perturbed d answer answer') (before : State) (op : Byte)
    (v : Word) : Perturbed d (settle before op answer) (settle (before.perturb d v) op answer') := by
  cases h with
  | next t w => exact .next t w
  | fault f =>
    cases f with
    | model r => exact .next _ v
    | refusedByRule => exact .next _ v
    | notRunning st => exact .fault _
    | faultRecorded r => exact .fault _
  | refused r => exact .refused r

theorem stepPastGasCheck_perturbed (s : State) (d : Int) (v : Word) :
    Perturbed d (stepPastGasCheck s) (stepPastGasCheck (s.perturb d v)) := by
  unfold stepPastGasCheck
  rw [fetchDecode_perturb]
  cases fetchDecode s with
  | ok decoded =>
    obtain ⟨op, i⟩ := decoded
    have charged := exec_perturbed i (chargeGas op s) d v
    rw [← chargeGas_perturb] at charged
    exact settle_perturbed charged s op v
  | decodeError => exact .next _ v
  | modelFault r => exact .next _ v

/-- Settles O44: the second state is the first one perturbed, so its step leads to the first one's next state perturbed by the
same gas. -/
theorem gasAndHostCallAreNeverRead : Obligations.GasAndHostCallAreNeverRead := by
  unfold Obligations.GasAndHostCallAreNeverRead
  intro s s' t t' agree h h' ht ht'
  have answers := stepPastGasCheck_perturbed s (s'.gas - s.gas) s'.hostCall
  rw [← agree.eq_perturb, stepPastGasCheck_of_step h ht, stepPastGasCheck_of_step h' ht'] at answers
  cases answers with
  | next _ v =>
    have moved : (t.perturb (s'.gas - s.gas) v).gas = t.gas + (s'.gas - s.gas) := rfl
    exact ⟨agreeButGas_perturb t _ v, by omega⟩

end Sys2Proof.Machine
end

section
/-! PROOFS. The data memory under loads and stores (O28, O29, O30, O39): every load and every store is one memory access, at the
address and width that `loadAccess` and `storeAccess` give, so what `memRead` and `memWrite` answer decides what it does. -/

namespace Sys2Proof.Machine

/-! ### A load is one read, a store is one write -/

/-- Each of the ten loads is one read at `loadAccess`, whose extended value goes to its destination. -/
theorem exec_of_loadAccess {i : Instr} {s : State} {a : Word} {n : Nat} (h : loadAccess i s = some (a, n)) :
    ∃ (d : Reg) (ext : Nat → Word),
      exec i s = afterMem (memRead s a n) fun v => (s.setReg d (ext v)).advance i.skip .seq := by
  cases i with
  | loadU8 | loadI8 | loadU16 | loadI16 | loadU32
  | loadIndU8 | loadIndI8 | loadIndU16 | loadIndI16 | loadIndU32 => cases h; exact ⟨_, _, rfl⟩
  | _ => cases h

/-- Each of the twelve stores is one write at `storeAccess`. -/
theorem exec_of_storeAccess {i : Instr} {s : State} {a : Word} {n : Nat} {v : Word} (h : storeAccess i s = some (a, n, v)) :
    exec i s = afterMem (memWrite s a n v) fun t => t.advance i.skip .seq := by
  cases i with
  | storeU8 | storeU16 | storeU32 | storeImmU8 | storeImmU16 | storeImmU32
  | storeImmIndU8 | storeImmIndU16 | storeImmIndU32
  | storeIndU8 | storeIndU16 | storeIndU32 => cases h; rfl
  | _ => cases h

/-! ### Faults -/

/-- Settles O28: a load is one read, and `memRead` looks for a byte with no right first, then for one with no value. -/
theorem loadsFaultAtTheFirstBadByte : Obligations.LoadsFaultAtTheFirstBadByte := by
  unfold Obligations.LoadsFaultAtTheFirstBadByte
  intro i s a n k access hk
  obtain ⟨d, ext, run⟩ := exec_of_loadAccess access
  constructor
  · intro bad before
    rw [run, memRead_inaccessible s a n k hk bad before]
    rfl
  · intro rights bad before
    rw [run, memRead_uninitialised s a n k hk rights bad before]
    rfl

/-- A store faults at its first byte that may not be written. -/
theorem exec_store_inaccessible {i : Instr} {s : State} {a : Word} {n : Nat} {v : Word} {k : Nat}
    (access : storeAccess i s = some (a, n, v)) (hk : k < n) (bad : s.accessOf (a + BitVec.ofNat 32 k) ≠ .write)
    (before : ∀ j < k, s.accessOf (a + BitVec.ofNat 32 j) = .write) :
    exec i s = .fault (.model (.memoryInaccessible (a + BitVec.ofNat 32 k))) := by
  rw [exec_of_storeAccess access, memWrite_inaccessible s a n v k hk bad before]
  rfl

/-- A step whose execution raises a model fault, with gas left, is undone but for the fault record (spec/40_dispatch.md R174). -/
theorem step_of_modelFault {s : State} {op : Byte} {i : Instr} {r : ModelFault} (running : s.status = .running)
    (noFault : s.fault = none) (decoded : fetchDecode s = .ok (op, i)) (gasLeft : outOfGas (chargeGas op s) = false)
    (raised : exec i (chargeGas op s) = .fault (.model r)) : step s = .next (s.recordFault r) := by
  rw [step_of_decoded s op i running noFault decoded, runInstr, gasLeft, raised]
  rfl

/-- The charge leaves the registers, so a store reaches the same bytes with the same value. -/
theorem storeAccess_chargeGas (i : Instr) (s : State) (op : Byte) : storeAccess i (chargeGas op s) = storeAccess i s := rfl

/-- Settles O29: a store is one write, and it faults in the charged state as it does before the charge. -/
theorem storesFaultAtTheFirstBadByte : Obligations.StoresFaultAtTheFirstBadByte := by
  unfold Obligations.StoresFaultAtTheFirstBadByte
  intro i s a n v k access hk bad before
  refine ⟨exec_store_inaccessible access hk bad before, fun op running noFault decoded gasLeft => ?_⟩
  have charged : storeAccess i (chargeGas op s) = some (a, n, v) := (storeAccess_chargeGas i s op).trans access
  exact step_of_modelFault running noFault decoded gasLeft (exec_store_inaccessible charged hk bad before)

/-! ### Who changes memory -/

/-- An instruction that changes a byte is a store to it, with the right `write`, and leaves the stored value's byte there. -/
theorem exec_changed_byte {i : Instr} {s t : State} {x : Word} (run : exec i s = .next t) (changed : t.byteAt x ≠ s.byteAt x) :
    ∃ a n v k, storeAccess i s = some (a, n, v) ∧ k < n ∧ x = a + BitVec.ofNat 32 k ∧ s.accessOf x = .write ∧
      t.byteAt x = some (BitVec.ofNat 8 (v.toNat / 256 ^ k)) := by
  have answer := execAnswer i s
  rw [run] at answer
  cases answer with
  | regs regs ir => exact absurd (advance_byteAt ..) changed
  | trap => exact absurd rfl changed
  | ecalli => exact absurd rfl changed
  | store a n v access width writable =>
    have stores := storesBytes_setMem_advance s a n v i.skip (by omega)
    by_cases inside : ∃ k < n, x = a + BitVec.ofNat 32 k
    · obtain ⟨k, hk, rfl⟩ := inside
      exact ⟨a, n, v, k, access, hk, rfl, writable k hk, stores.stored k hk⟩
    · exact absurd (stores.others x fun k hk e => inside ⟨k, hk, e⟩) changed

/-- Settles O39: of the five forms of a step only a completed execution touches the memory, and it runs in the charged state, whose
registers, bytes and rights are those of the state before. -/
theorem onlyStoresChangeMemory : Obligations.OnlyStoresChangeMemory := by
  unfold Obligations.OnlyStoresChangeMemory
  intro s t x h changed
  obtain ⟨-, -, form⟩ := step_next s t h
  cases form with
  | decodeError _ eq => subst eq; exact absurd rfl changed
  | decodeFault r _ eq => subst eq; exact absurd rfl changed
  | outOfGas op i _ _ eq => subst eq; exact absurd rfl changed
  | ran op i decoded _ run =>
    obtain ⟨a, n, v, k, access, hk, hx, right, value⟩ := exec_changed_byte run changed
    exact ⟨op, i, a, n, v, k, decoded, (storeAccess_chargeGas i s op).symm.trans access, hk, hx, right, value⟩
  | execFault op i r _ _ _ eq => subst eq; exact absurd rfl changed

/-! ### The value of a load after a store -/

/-- The low bytes of a number, read back little-endian, are the number modulo 256^m (spec/20_memory.md R63). -/
theorem le_bytes (v m : Nat) : le ((List.range m).map fun k => BitVec.ofNat 8 (v / 256 ^ k)) = v % 256 ^ m := by
  induction m with
  | zero => simp [le, Nat.mod_one]
  | succ m ih =>
    rw [List.range_succ, List.map_append, le_append, ih, Nat.mod_pow_succ]
    simp [le]

/-- m bytes of a value from byte j on are its bits from 8j on. -/
theorem le_bytes_from (v : Word) (j m : Nat) :
    le ((List.range m).map fun k => BitVec.ofNat 8 (v.toNat / 256 ^ (j + k))) = (v.extractLsb' (8 * j) (8 * m)).toNat := by
  have window : ∀ k, v.toNat / 256 ^ (j + k) = v.toNat / 256 ^ j / 256 ^ k := fun k => by
    rw [pow_add, Nat.div_div_eq_div_mul]
  simp only [window]
  rw [le_bytes, BitVec.extractLsb'_toNat, Nat.shiftRight_eq_div_pow, pow_mul, pow_mul]
  norm_num only

/-- `zext` of a narrow word's number is the library's zero extension (spec/00_scope.md R25). -/
theorem zext_toNat {w : Nat} (x : BitVec w) : zext x.toNat = x.setWidth 32 := BitVec.ofNat_toNat 32 x

/-- `sext` of a narrow word's number is the library's sign extension (spec/00_scope.md R25). -/
theorem sext_toNat {w : Nat} (x : BitVec w) : sext w x.toNat = x.signExtend 32 := by
  have value := BitVec.toInt_eq_msb_cond x
  rw [BitVec.msb_eq_getLsbD_last] at value
  rw [BitVec.signExtend, value]
  unfold sext
  rw [BitVec.testBit_toNat]
  split
  · simp [u32]
  · simp

/-- Stored bytes may be read, and any m of them from byte j on hold the value's bytes from j on. -/
theorem StoresBytes.readable {s t : State} {a : Word} {n : Nat} {v pc : Word} (stores : StoresBytes s t a n v pc)
    (writable : Writable s a n) {j m : Nat} (inside : j + m ≤ n) :
    Readable t (a + BitVec.ofNat 32 j) m fun k => BitVec.ofNat 8 (v.toNat / 256 ^ (j + k)) := by
  intro k hk
  have address : a + BitVec.ofNat 32 j + BitVec.ofNat 32 k = a + BitVec.ofNat 32 (j + k) := by
    rw [BitVec.ofNat_add, add_assoc]
  have right : t.accessOf (a + BitVec.ofNat 32 (j + k)) = .write :=
    (congrArg (accessRight · _) stores.control.config).trans (writable (j + k) (by omega))
  rw [address, right]
  exact ⟨nofun, stores.stored (j + k) (by omega)⟩

/-- A load within the bytes just stored, m of them from byte j on, completes with the bits from 8j on of the stored value. -/
theorem StoresBytes.loadInd_within {s t : State} {a : Word} {n : Nat} {v pc : Word} (stores : StoresBytes s t a n v pc)
    (writable : Writable s a n) {j m : Nat} (inside : j + m ≤ n) (ext : Nat → Word) (base dst : Reg) (immX : Imm)
    (address : effAddr (s.reg base) immX = a + BitVec.ofNat 32 j) :
    ∃ u, loadInd m ext base dst immX t = .next u ∧ u.reg dst = ext (v.extractLsb' (8 * j) (8 * m)).toNat := by
  have run := load_of_readable t _ m ext dst (Args.twoRegs1Imm base dst immX).skip _ (stores.readable writable inside)
  rw [← address, ← stores.regs base] at run
  exact ⟨_, run, by rw [advance_reg, setReg_reg_same, le_bytes_from]⟩

/-- A load of all the bytes just stored completes with the low 8n bits of the stored value. -/
theorem StoresBytes.loadInd_whole {s t : State} {n : Nat} {v pc : Word} {base : Reg} {immX : Imm}
    (stores : StoresBytes s t (effAddr (s.reg base) immX) n v pc) (writable : Writable s (effAddr (s.reg base) immX) n)
    (hn : n ≤ 4) (ext : Nat → Word) (dst : Reg) :
    ∃ u, loadInd n ext base dst immX t = .next u ∧ u.reg dst = ext (v.setWidth (8 * n)).toNat := by
  rw [BitVec.setWidth_eq_extractLsb' (by omega)]
  exact stores.loadInd_within (j := 0) writable (by omega) ext base dst immX (BitVec.add_zero _).symm

/-- A store to writable bytes completes, with the store as its whole effect. -/
theorem storeInd_of_writable {s : State} {base : Reg} {immX : Imm} {n : Nat} (src : Reg) (hn : n ≤ 4)
    (writable : Writable s (effAddr (s.reg base) immX) n) :
    ∃ t, storeInd n base src immX s = .next t ∧
      StoresBytes s t (effAddr (s.reg base) immX) n (s.reg src) (s.pc + BitVec.ofNat 32 (2 + immX.len)) :=
  ⟨_, store_of_writable s _ n _ _ writable, storesBytes_setMem_advance s _ n _ _ (by omega)⟩

/-- Settles O30: the load reads the bytes the store left, `le` joins them to the stored bits, and the 1-byte load at k bytes further
has k added to its address. -/
theorem loadsReadWhatStoresWrote : Obligations.LoadsReadWhatStoresWrote := by
  unfold Obligations.LoadsReadWhatStoresWrote
  intro s base src dst immX
  refine ⟨fun writable => ?_, fun writable => ?_, fun writable => ?_⟩
  · obtain ⟨t, run, stores⟩ := storeInd_of_writable src (by omega) writable
    refine ⟨t, run, ?_, fun k hk => ?_⟩
    · obtain ⟨u, load, value⟩ := stores.loadInd_whole writable (by omega) zext dst
      exact ⟨u, load, by simpa [zext_toNat] using value⟩
    · have address : effAddr (s.reg base) ⟨immX.len, immX.val + BitVec.ofNat 32 k⟩ =
          effAddr (s.reg base) immX + BitVec.ofNat 32 k := by
        rw [effAddr_eq, effAddr_eq, add_assoc]
      obtain ⟨u, load, value⟩ := stores.loadInd_within (m := 1) writable (by omega) zext base dst _ address
      exact ⟨u, load, value.trans (zext_toNat _)⟩
  · obtain ⟨t, run, stores⟩ := storeInd_of_writable src (by omega) writable
    obtain ⟨u, load, value⟩ := stores.loadInd_whole writable (by omega) (sext 16) dst
    exact ⟨t, run, u, load, value.trans (sext_toNat _)⟩
  · obtain ⟨t, run, stores⟩ := storeInd_of_writable src (by omega) writable
    obtain ⟨u, load, value⟩ := stores.loadInd_whole writable (by omega) (sext 8) dst
    exact ⟨t, run, u, load, value.trans (sext_toNat _)⟩

end Sys2Proof.Machine
end

section
/-! PROOFS. Decoding undoes encoding (O2): the bytes an encoding leaves in the code, the length that the mask around it gives each
immediate, the value those bytes deliver, and the twelve argument shapes built from these. -/

namespace Sys2Proof.Machine

/-! ### Bytes that stand in the code (spec/30_encoding.md R114) -/

/-- The bytes stand in the code from index i on. -/
def HoldsAt (p : Program) (i : Nat) (bytes : List Byte) : Prop := bytes <+: p.code.drop i

section Bytes

variable {p : Program} {i : Nat} {b : Byte} {bytes first rest : List Byte}

theorem HoldsAt.front (h : HoldsAt p i (first ++ rest)) : HoldsAt p i first := (List.prefix_append first rest).trans h

theorem HoldsAt.back (h : HoldsAt p i (first ++ rest)) : HoldsAt p (i + first.length) rest := by
  have dropped := List.IsPrefix.drop h first.length
  rwa [List.drop_left, List.drop_drop] at dropped

theorem HoldsAt.tail (h : HoldsAt p i (b :: bytes)) : HoldsAt p (i + 1) bytes := h.back (first := [b])

theorem HoldsAt.getElem? (h : HoldsAt p i (b :: bytes)) : p.code[i]? = some b := by
  obtain ⟨rest, code⟩ := h
  have head : (p.code.drop i)[0]? = some b := by rw [← code]; rfl
  rwa [List.getElem?_drop] at head

theorem HoldsAt.codeByte (h : HoldsAt p i (b :: bytes)) : codeByte p i = .ok b := (codeByte_ok p i b).2 h.getElem?

/-- Reading as many bytes as stand there reads them. -/
theorem HoldsAt.codeBytes (h : HoldsAt p i bytes) : codeBytes p i bytes.length = .ok bytes := by
  have inside := List.IsPrefix.length_le h
  rw [List.length_drop] at inside
  exact (codeBytes_ok p i _ _).2 ⟨by omega, List.prefix_iff_eq_take.1 h⟩

end Bytes

/-! ### The bytes of an immediate (R106, R107) -/

theorem Imm.fits_iff (x : Imm) : x.fits = true ↔ (x.val.setWidth (8 * x.len)).signExtend 32 = x.val := beq_iff_eq

theorem Imm.maskWf_iff (x : Imm) : x.maskWf = true ↔ 1 ≤ x.len ∧ x.len ≤ 4 ∧ x.fits = true := by
  simp [Imm.maskWf, and_assoc]

theorem Imm.nibbleWf_iff (x : Imm) : x.nibbleWf = true ↔ x.len ≤ 8 ∧ x.fits = true := by simp [Imm.nibbleWf]

theorem Imm.secondWf_iff (x : Imm) : x.secondWf = true ↔ x.len ≤ 4 ∧ x.fits = true := by simp [Imm.secondWf]

/-- The bytes of an immediate are the low bytes of its value. -/
theorem le_immBytes (x : Imm) : le (immBytes x) = x.val.toNat % 256 ^ x.len := by
  rw [immBytes, funext (byteOf_eq x.val), le_bytes]

/-- Four bytes or more deliver the number of the first four, whatever follows (R107). -/
theorem imm_of_four_le (b : List Byte) (h : 4 ≤ b.length) : imm b = BitVec.ofNat 32 (le (b.take 4)) := by
  have buffer : (setBytes b).take 4 = b.take 4 := by
    rw [setBytes, List.take_append_of_le_length (by simp [immBuf, h]), List.take_take, immBuf]
    rfl
  rw [imm, getU32, buffer]

/-- The bytes of an immediate that fits its length deliver its value. -/
theorem imm_immBytes {x : Imm} (fits : x.fits = true) : imm (immBytes x) = x.val := by
  by_cases short : x.len ≤ 4
  · have low : BitVec.ofNat (8 * (immBytes x).length) (le (immBytes x)) = x.val.setWidth (8 * (immBytes x).length) := by
      apply BitVec.eq_of_toNat_eq
      simp [le_immBytes, pow_mul]
    rw [imm_eq_signExtend _ (by simpa using short), low, immBytes_length]
    exact (Imm.fits_iff x).1 fits
  · have firstFour : (immBytes x).take 4 = immBytes ⟨4, x.val⟩ := by
      rw [immBytes, immBytes, ← List.map_take, List.take_range, min_eq_left (by omega)]
    apply BitVec.eq_of_toNat_eq
    rw [imm_of_four_le _ (by simp; omega), firstFour, le_immBytes]
    simpa using x.val.isLt

theorem HoldsAt.codeImm {p : Program} {i : Nat} {x : Imm} (h : HoldsAt p i (immBytes x)) (fits : x.fits = true) :
    codeImm p i x.len = .ok x := by
  have read := h.codeBytes
  rw [immBytes_length] at read
  rw [Sys2Proof.codeImm, read, Decoded.bind_of_ok, imm_immBytes fits]

/-! ### What the mask around an encoding gives (R102) -/

section Standing

variable {cfg : Config} {p : Program} {pc : Nat} {enc : List Byte}

theorem StandsAt.holds (h : StandsAt cfg p pc enc) : HoldsAt p pc enc := List.prefix_iff_eq_take.2 h.bytes.symm

/-- From inside an encoding the scan stops right after it. -/
theorem StandsAt.btn (h : StandsAt cfg p pc enc) {k n : Nat} (length : enc.length = k + n) (hk : 1 ≤ k) (hn : 1 ≤ n)
    (cap : n ≤ 24) : btn cfg p (pc + k) = n := by
  refine btn_eq cfg p (pc + k) n hn cap ?_ fun j hj below => ?_
  · rw [add_assoc, ← length]
    exact h.stop
  · rw [add_assoc]
    exact h.inside (k + j) (by omega) (by omega)

/-- An immediate that ends the encoding is read with its own length. -/
theorem StandsAt.maskLen (h : StandsAt cfg p pc enc) {hdr n : Nat} (length : enc.length = hdr + n) (hh : 1 ≤ hdr)
    (hn : 1 ≤ n) (four : n ≤ 4) : maskLen cfg p (pc + hdr) = n := by
  rw [Sys2Proof.maskLen, h.btn length hh hn (by omega), immMax]
  omega

/-- A second immediate that ends the encoding, after the opcode, a header and the first one, is read with its own length. -/
theorem StandsAt.secondLen (h : StandsAt cfg p pc enc) {hdr lX lY : Nat} (length : enc.length = 1 + hdr + lX + lY)
    (hh : 1 ≤ hdr) (cap : hdr + lX + lY ≤ 24) (four : lY ≤ 4) : secondLen cfg p pc hdr lX = lY := by
  rw [Sys2Proof.secondLen, h.btn (n := hdr + lX + lY) (by omega) le_rfl (by omega) cap, immMax]
  omega

end Standing

/-! ### The argument shapes (R118 to R129) -/

/-- A length nibble that an encoding holds means its own value. -/
theorem lenIdx_of_readable {cfg : Config} {n : Nat} (eight : n ≤ 8) (readable : n ≤ 4 ∨ cfg.lenNibbleHigh = .min8) :
    lenIdx cfg n = .ok n :=
  readable.elim (lenIdx_of_le cfg n) (lenIdx_min8 cfg n eight)

section Shapes

variable {cfg : Config} {p : Program} {pc : Nat} {op : Byte} {firstReg secondReg thirdReg reg : Reg} {x y : Imm}

/-- The first of two well-formed immediates has a length that a nibble holds. -/
theorem len_le_of_pairWf (wf : (x.nibbleWf && y.secondWf) = true) : x.len ≤ 8 := by
  obtain ⟨wfX, -⟩ := Bool.and_eq_true_iff.1 wf
  obtain ⟨eight, -⟩ := (Imm.nibbleWf_iff x).1 wfX
  exact eight

theorem regIdx_lo_nibbles (cfg : Config) (high : Nat) (r : Reg) : regIdx cfg (lo (nibbles high r)) = .ok r := by
  rw [lo_nibbles _ _ (by omega), regIdx_val]

theorem regIdx_hi_nibbles (cfg : Config) (r q : Reg) : regIdx cfg (hi (nibbles r q)) = .ok r := by
  rw [hi_nibbles _ _ (by omega) (by omega), regIdx_val]

theorem decodeRegPair_of_holdsAt {rest : List Byte} (h : HoldsAt p pc (op :: nibbles firstReg secondReg :: rest)) :
    decodeRegPair cfg p pc = .ok (firstReg, secondReg) := by
  simp [decodeRegPair, h.tail.codeByte, regIdx_hi_nibbles, regIdx_lo_nibbles]

/-- The immediate at the end of an encoding, after a header of hdr bytes with the opcode among them. -/
theorem codeImm_of_standsAt {hdr : List Byte} (wf : x.maskWf = true) (h : StandsAt cfg p pc (op :: hdr ++ immBytes x)) :
    codeImm p (pc + (op :: hdr).length) (maskLen cfg p (pc + (op :: hdr).length)) = .ok x := by
  obtain ⟨one, four, fits⟩ := (Imm.maskWf_iff x).1 wf
  rw [h.maskLen (n := x.len) (by rw [List.length_append, immBytes_length]) (by simp) one four]
  exact h.holds.back.codeImm fits

/-- The two immediates at the end of an encoding, after the opcode and a header. -/
theorem decodeImmPair_of_standsAt {hdr : List Byte} (wf : (x.nibbleWf && y.secondWf) = true) (header : 1 ≤ hdr.length)
    (short : hdr.length ≤ 2) (h : StandsAt cfg p pc (op :: hdr ++ (immBytes x ++ immBytes y))) :
    decodeImmPair cfg p pc hdr.length x.len = .ok (x, y) := by
  obtain ⟨wfX, wfY⟩ := Bool.and_eq_true_iff.1 wf
  obtain ⟨eight, fitsX⟩ := (Imm.nibbleWf_iff x).1 wfX
  obtain ⟨four, fitsY⟩ := (Imm.secondWf_iff y).1 wfY
  have start : pc + 1 + hdr.length = pc + (op :: hdr).length := by rw [List.length_cons]; omega
  have first := h.holds.back.front.codeImm fitsX
  have second := h.holds.back.back.codeImm fitsY
  rw [immBytes_length] at second
  have length := h.secondLen (hdr := hdr.length) (lX := x.len) (lY := y.len) (by simp; omega) header (by omega) four
  rw [decodeImmPair, length, start, first, Decoded.bind_of_ok, second, Decoded.bind_of_ok]

theorem decodeOneImm_of_standsAt (wf : x.maskWf = true) (h : StandsAt cfg p pc (op :: immBytes x)) :
    decodeOneImm cfg p pc = .ok x :=
  codeImm_of_standsAt (hdr := []) wf h

theorem decodeTwoImm_of_standsAt (wf : (x.nibbleWf && y.secondWf) = true) (readable : x.len ≤ 4 ∨ cfg.lenNibbleHigh = .min8)
    (h : StandsAt cfg p pc (op :: nibbles 0 x.len :: (immBytes x ++ immBytes y))) : decodeTwoImm cfg p pc = .ok (x, y) := by
  have eight := len_le_of_pairWf wf
  have pair := decodeImmPair_of_standsAt (hdr := [nibbles 0 x.len]) wf le_rfl (by simp) h
  rw [decodeTwoImm, h.holds.tail.codeByte, Decoded.bind_of_ok, lo_nibbles _ _ (by omega), lenIdx_of_readable eight readable,
    Decoded.bind_of_ok]
  exact pair

theorem decodeOneReg1Imm_of_standsAt (wf : x.maskWf = true) (h : StandsAt cfg p pc (op :: nibbles 0 reg :: immBytes x)) :
    decodeOneReg1Imm cfg p pc = .ok (reg, x) := by
  have last := codeImm_of_standsAt (hdr := [nibbles 0 reg]) wf h
  rw [decodeOneReg1Imm, h.holds.tail.codeByte, Decoded.bind_of_ok, regIdx_lo_nibbles, Decoded.bind_of_ok]
  exact congrArg (Decoded.bind · _) last

theorem decodeOneReg2Imm_of_standsAt (wf : (x.nibbleWf && y.secondWf) = true)
    (readable : x.len ≤ 4 ∨ cfg.lenNibbleHigh = .min8)
    (h : StandsAt cfg p pc (op :: nibbles x.len reg :: (immBytes x ++ immBytes y))) :
    decodeOneReg2Imm cfg p pc = .ok (reg, x, y) := by
  have eight := len_le_of_pairWf wf
  have pair := decodeImmPair_of_standsAt (hdr := [nibbles x.len reg]) wf le_rfl (by simp) h
  rw [decodeOneReg2Imm, h.holds.tail.codeByte, Decoded.bind_of_ok, regIdx_lo_nibbles, Decoded.bind_of_ok,
    hi_nibbles _ _ (by omega) (by omega), lenIdx_of_readable eight readable, Decoded.bind_of_ok]
  exact congrArg (Decoded.bind · _) pair

theorem decodeTwoRegs1Imm_of_standsAt (wf : x.maskWf = true)
    (h : StandsAt cfg p pc (op :: nibbles firstReg secondReg :: immBytes x)) :
    decodeTwoRegs1Imm cfg p pc = .ok (firstReg, secondReg, x) := by
  have last := codeImm_of_standsAt (hdr := [nibbles firstReg secondReg]) wf h
  rw [decodeTwoRegs1Imm, decodeRegPair_of_holdsAt h.holds, Decoded.bind_of_ok]
  exact congrArg (Decoded.bind · _) last

theorem decodeTwoRegs2Imm_of_standsAt (wf : (x.nibbleWf && y.secondWf) = true)
    (readable : x.len ≤ 4 ∨ cfg.lenNibbleHigh = .min8)
    (h : StandsAt cfg p pc (op :: nibbles firstReg secondReg :: nibbles 0 x.len :: (immBytes x ++ immBytes y))) :
    decodeTwoRegs2Imm cfg p pc = .ok (firstReg, secondReg, x, y) := by
  have eight := len_le_of_pairWf wf
  have pair := decodeImmPair_of_standsAt (hdr := [nibbles firstReg secondReg, nibbles 0 x.len]) wf (by simp) le_rfl h
  rw [decodeTwoRegs2Imm, decodeRegPair_of_holdsAt h.holds, Decoded.bind_of_ok, h.holds.tail.tail.codeByte,
    Decoded.bind_of_ok, lo_nibbles _ _ (by omega), lenIdx_of_readable eight readable, Decoded.bind_of_ok]
  exact congrArg (Decoded.bind · _) pair

theorem decodeThreeRegs_of_holdsAt
    (h : HoldsAt p pc [op, nibbles firstReg secondReg, BitVec.ofNat 8 thirdReg]) :
    decodeThreeRegs cfg p pc = .ok (firstReg, secondReg, thirdReg) := by
  have byte : (BitVec.ofNat 8 thirdReg).toNat = thirdReg := by
    rw [BitVec.toNat_ofNat]
    omega
  rw [decodeThreeRegs, decodeRegPair_of_holdsAt h, Decoded.bind_of_ok, h.tail.tail.codeByte, Decoded.bind_of_ok, byte,
    regIdx_val, Decoded.bind_of_ok]

/-- A shape's rule reads back the record whose encoding stands at pc. -/
theorem decodeFormat_of_standsAt {f : Format} {a : Args} {i : Instr} (built : f.build a = some i) (wf : a.wf = true)
    (readable : nibbleLen a ≤ 4 ∨ cfg.lenNibbleHigh = .min8) (h : StandsAt cfg p pc (op :: a.encode)) :
    decodeFormat cfg p pc f = .ok i := by
  cases f <;> cases a <;> cases built <;> rw [decodeFormat]
  case oneImm => rw [decodeOneImm_of_standsAt wf h, Decoded.bind_of_ok]
  case twoImm => rw [decodeTwoImm_of_standsAt wf readable h, Decoded.bind_of_ok]
  case oneOffset => rw [decodeOneImm_of_standsAt wf h, Decoded.bind_of_ok]
  case oneReg1Imm => rw [decodeOneReg1Imm_of_standsAt wf h, Decoded.bind_of_ok]
  case oneReg2Imm => rw [decodeOneReg2Imm_of_standsAt wf readable h, Decoded.bind_of_ok]
  case oneReg1Imm1Offset => rw [decodeOneReg2Imm_of_standsAt wf readable h, Decoded.bind_of_ok]
  case twoRegs => rw [decodeRegPair_of_holdsAt h.holds, Decoded.bind_of_ok]
  case twoRegs1Imm => rw [decodeTwoRegs1Imm_of_standsAt wf h, Decoded.bind_of_ok]
  case twoRegs1Offset => rw [decodeTwoRegs1Imm_of_standsAt wf h, Decoded.bind_of_ok]
  case twoRegs2Imm => rw [decodeTwoRegs2Imm_of_standsAt wf readable h, Decoded.bind_of_ok]
  case threeRegs => rw [decodeThreeRegs_of_holdsAt h.holds, Decoded.bind_of_ok]

end Shapes

/-! ### The decode -/

/-- The format of an instruction's mnemonic builds it from its own record, for every row of the table of R150. -/
theorem format_build_args (i : Instr) : i.mnemonic.format.build i.args = some i := by
  cases i <;> rfl

/-- A well-formed instruction in place, under an opcode byte of its mnemonic, is what the decode answers. -/
theorem decode_of_standsAt {cfg : Config} {p : Program} {pc : Nat} {op : Byte} {i : Instr} (wf : i.wf = true)
    (readable : nibbleLen i.args ≤ 4 ∨ cfg.lenNibbleHigh = .min8) (entry : cfg.opcodeMap.lookup op = some i.mnemonic)
    (h : StandsAt cfg p pc (encodeAs op i)) : decode cfg p pc = .ok i :=
  (decode_ok cfg p pc i).2 ⟨op, i.mnemonic, h.holds.getElem?, h.start, entry,
    decodeFormat_of_standsAt (format_build_args i) wf readable h⟩

/-- Settles O2: every byte of the mnemonic decodes by `decode_of_standsAt`, and `encode` picks one of them. -/
theorem decodeOfEncodeIsTheInstruction : Obligations.DecodeOfEncodeIsTheInstruction := by
  unfold Obligations.DecodeOfEncodeIsTheInstruction
  intro cfg p pc i wf readable
  refine ⟨fun op entry stands => decode_of_standsAt wf readable entry stands, fun bytes picked stands => ?_, ?_⟩
  · obtain ⟨op, found, rfl⟩ := Option.map_eq_some_iff.1 picked
    exact decode_of_standsAt wf readable (cfg.opcodeMap.lookup_opcodeOf _ op found) stands
  · rintro ⟨op, entry⟩
    obtain ⟨op', found⟩ := cfg.opcodeMap.opcodeOf_of_lookup _ op entry
    exact ⟨encodeAs op' i, Option.map_eq_some_iff.2 ⟨op', found, rfl⟩⟩

end Sys2Proof.Machine
end

section
/-! PROOFS. The parts of the decoder at every argument: the mask bits (O8), the scan to the next start (O7), the value of an immediate
(O9), the register and length maps (O6), the checks of a decode and its unknown opcodes (O4, O5), and words of the spec (O1). -/

namespace Sys2Proof

/-! ### The mask (spec/30_encoding.md R101, R102) -/

/-- Settles O8: bit `8j + b` lies in byte j, and the bitmap ends after its last byte. -/
theorem maskBitsAreReadLsbFirst : Obligations.MaskBitsAreReadLsbFirst := by
  unfold Obligations.MaskBitsAreReadLsbFirst
  intro cfg p j b hb
  have byte : (8 * j + b) / 8 = j := by omega
  have bit : (8 * j + b) % 8 = b := by omega
  refine ⟨fun within => ?_, fun beyond zero => ?_, fun beyond one => ?_⟩
  · rw [isInstruction, if_pos (by omega), Program.maskBit, byte, bit, List.getElem?_eq_getElem within]
    rfl
  · rw [isInstruction, if_neg (by omega), zero]
    rfl
  · rw [isInstruction, if_neg (by omega), one]
    rfl

/-- The scan finds the least start in reach, or there is none and it answers its cap. -/
theorem btn_cases (cfg : Config) (p : Program) (i : Nat) :
    (∃ n, btn cfg p i = n ∧ 1 ≤ n ∧ n ≤ 24 ∧ isInstruction cfg p (i + n) = true ∧
      ∀ k, 1 ≤ k → k < n → isInstruction cfg p (i + k) = false) ∨
    btn cfg p i = 24 ∧ ∀ k, 1 ≤ k → k ≤ 24 → isInstruction cfg p (i + k) = false := by
  by_cases reach : ∃ k, 1 ≤ k ∧ k ≤ 24 ∧ isInstruction cfg p (i + k) = true
  · obtain ⟨one, cap, start⟩ := Nat.find_spec reach
    have before : ∀ k, 1 ≤ k → k < Nat.find reach → isInstruction cfg p (i + k) = false := fun k hk below =>
      Bool.eq_false_iff.2 fun start => Nat.find_min reach below ⟨hk, by omega, start⟩
    exact .inl ⟨_, btn_eq cfg p i _ one cap start before, one, cap, start, before⟩
  · have unmarked : ∀ k, 1 ≤ k → k ≤ 24 → isInstruction cfg p (i + k) = false := fun k hk cap =>
      Bool.eq_false_iff.2 fun start => reach ⟨k, hk, cap, start⟩
    have fails : (List.range' 1 scanCap).find? (fun k => isInstruction cfg p (i + k)) = none := by
      rw [List.find?_eq_none]
      intro k hk
      rw [scanCap, List.mem_range'_1] at hk
      simp [unmarked k hk.1 (by omega)]
    exact .inr ⟨by rw [btn, fails]; rfl, unmarked⟩

/-- Settles O7: in both cases of the scan. -/
theorem scanFindsTheLeastStart : Obligations.ScanFindsTheLeastStart := by
  unfold Obligations.ScanFindsTheLeastStart
  intro cfg p i
  obtain ⟨n, rfl, one, cap, start, before⟩ | ⟨capped, unmarked⟩ := btn_cases cfg p i
  · refine ⟨one, cap, before, fun _ => start, fun unmarked => ?_⟩
    exact nomatch start.symm.trans (unmarked _ one cap)
  · rw [capped]
    refine ⟨by omega, le_rfl, fun k hk below => unmarked k hk below.le, ?_, fun _ => rfl⟩
    rintro ⟨k, hk, cap, start⟩
    exact nomatch start.symm.trans (unmarked k hk cap)

/-! ### Immediates, registers and lengths (R104 to R108) -/

/-- Settles O9: up to four bytes are sign-extended, and of more than four only the first four count. -/
theorem immediatesAreSignExtended : Obligations.ImmediatesAreSignExtended := by
  unfold Obligations.ImmediatesAreSignExtended
  intro b
  refine ⟨?_, fun _ four => imm_eq_signExtend b four, fun five _ => Machine.imm_of_four_le b (by omega)⟩
  rintro rfl
  rfl

/-- Settles O6: each map tests its bound first, and reads its parameter above it. -/
theorem registerAndLengthMaps : Obligations.RegisterAndLengthMaps := by
  unfold Obligations.RegisterAndLengthMaps
  intro cfg n
  refine ⟨fun low => regIdx_val cfg ⟨n, low⟩, fun high fault => ?_, fun high clamp => ?_, lenIdx_of_le cfg n,
    fun high fault => ?_, fun high min8 => ?_, fun high gp => ?_⟩
  · rw [regIdx, dif_neg (by omega), fault]
  · rw [regIdx, dif_neg (by omega), clamp]
  · rw [lenIdx, if_neg (by omega), fault]
  · rw [lenIdx, if_neg (by omega), min8]
  · rw [lenIdx, if_neg (by omega), gp]

/-! ### The checks of a decode (R113, R131) -/

/-- Past the code there is no opcode byte, whatever the mask. -/
theorem decode_past (cfg : Config) {p : Program} {pc : Nat} (past : p.code.length ≤ pc) : decode cfg p pc = .decodeError := by
  rw [decode, (codeByte_past p pc).2 past]
  rfl

theorem decode_unmarked {cfg : Config} {p : Program} {pc : Nat} (within : pc < p.code.length)
    (unmarked : isInstruction cfg p pc = false) : decode cfg p pc = .modelFault (.notInstructionStart pc) := by
  rw [decode, (codeByte_ok p pc _).2 (List.getElem?_eq_getElem within), Decoded.bind_of_ok, unmarked]
  rfl

/-- At a marked byte with an entry the decode is that of the entry's shape. -/
theorem decode_entry {cfg : Config} {p : Program} {pc : Nat} {op : Byte} {m : Mnemonic} (byte : p.code[pc]? = some op)
    (start : isInstruction cfg p pc = true) (entry : cfg.opcodeMap.lookup op = some m) :
    decode cfg p pc = decodeFormat cfg p pc m.format := by
  rw [decode, (codeByte_ok p pc op).2 byte, Decoded.bind_of_ok, if_pos start, entry]

theorem decode_unknown {cfg : Config} {p : Program} {pc : Nat} {op : Byte} (byte : p.code[pc]? = some op)
    (start : isInstruction cfg p pc = true) (noEntry : cfg.opcodeMap.lookup op = none) :
    decode cfg p pc = .modelFault (.unknownOpcode op) := by
  rw [decode, (codeByte_ok p pc op).2 byte, Decoded.bind_of_ok, if_pos start, noEntry]

/-- Settles O4: the opcode byte is read before the mask. -/
theorem decodeChecksTheIndexThenTheMask : Obligations.DecodeChecksTheIndexThenTheMask := by
  unfold Obligations.DecodeChecksTheIndexThenTheMask
  exact fun cfg p pc => ⟨decode_past cfg, decode_unmarked⟩

/-! ### The faults of an argument shape (R132) -/

/-- The only model faults are those of a register or length value with no meaning (R104, R105, R108). -/
def Decoded.OperandFaults {α : Type} (d : Decoded α) : Prop :=
  ∀ r, d = .modelFault r → ∃ n, r = .regIndexUnresolved n ∨ r = .immLenUnresolved n

section OperandFaults

theorem Decoded.OperandFaults.of_ok {α : Type} (a : α) : (Decoded.ok a).OperandFaults := nofun

theorem Decoded.OperandFaults.bind {α β : Type} {d : Decoded α} {f : α → Decoded β} (first : d.OperandFaults)
    (rest : ∀ a, (f a).OperandFaults) : (d.bind f).OperandFaults := by
  cases d with
  | ok a => exact rest a
  | decodeError => exact nofun
  | modelFault r => exact fun _ h => first _ (by cases h; rfl)

/-- Naming the parts of what was read raises nothing. -/
theorem Decoded.OperandFaults.map {α β : Type} {d : Decoded α} {f : α → β} (h : d.OperandFaults) :
    (d.bind fun a => .ok (f a)).OperandFaults :=
  h.bind fun a => .of_ok (f a)

variable (cfg : Config) (p : Program) (pc : Nat)

theorem regIdx_operandFaults (n : Nat) : (regIdx cfg n).OperandFaults := by
  unfold regIdx
  split
  · exact nofun
  · split
    · exact fun _ h => ⟨n, .inl (by cases h; rfl)⟩
    · exact nofun

theorem lenIdx_operandFaults (n : Nat) : (lenIdx cfg n).OperandFaults := by
  unfold lenIdx
  split
  · exact nofun
  · split
    · exact fun _ h => ⟨n, .inr (by cases h; rfl)⟩
    · exact nofun
    · exact nofun

theorem codeByte_operandFaults (i : Nat) : (codeByte p i).OperandFaults :=
  fun r h => absurd h (codeByte_not_modelFault p i r)

theorem codeImm_operandFaults (i n : Nat) : (codeImm p i n).OperandFaults := by
  refine .map ?_
  unfold codeBytes
  split <;> exact nofun

theorem decodeRegPair_operandFaults : (decodeRegPair cfg p pc).OperandFaults :=
  (codeByte_operandFaults p _).bind fun _ => (regIdx_operandFaults cfg _).bind fun _ => (regIdx_operandFaults cfg _).map

theorem decodeImmPair_operandFaults (hdr lX : Nat) : (decodeImmPair cfg p pc hdr lX).OperandFaults :=
  (codeImm_operandFaults p _ _).bind fun _ => (codeImm_operandFaults p _ _).map

theorem decodeOneImm_operandFaults : (decodeOneImm cfg p pc).OperandFaults := codeImm_operandFaults p _ _

theorem decodeTwoImm_operandFaults : (decodeTwoImm cfg p pc).OperandFaults :=
  (codeByte_operandFaults p _).bind fun _ => (lenIdx_operandFaults cfg _).bind fun _ => decodeImmPair_operandFaults cfg p pc _ _

theorem decodeOneReg1Imm_operandFaults : (decodeOneReg1Imm cfg p pc).OperandFaults :=
  (codeByte_operandFaults p _).bind fun _ => (regIdx_operandFaults cfg _).bind fun _ => (codeImm_operandFaults p _ _).map

theorem decodeOneReg2Imm_operandFaults : (decodeOneReg2Imm cfg p pc).OperandFaults :=
  (codeByte_operandFaults p _).bind fun _ => (regIdx_operandFaults cfg _).bind fun _ =>
    (lenIdx_operandFaults cfg _).bind fun _ => (decodeImmPair_operandFaults cfg p pc _ _).map

theorem decodeTwoRegs1Imm_operandFaults : (decodeTwoRegs1Imm cfg p pc).OperandFaults :=
  (decodeRegPair_operandFaults cfg p pc).bind fun _ => (codeImm_operandFaults p _ _).map

theorem decodeTwoRegs2Imm_operandFaults : (decodeTwoRegs2Imm cfg p pc).OperandFaults :=
  (decodeRegPair_operandFaults cfg p pc).bind fun _ => (codeByte_operandFaults p _).bind fun _ =>
    (lenIdx_operandFaults cfg _).bind fun _ => (decodeImmPair_operandFaults cfg p pc _ _).map

theorem decodeThreeRegs_operandFaults : (decodeThreeRegs cfg p pc).OperandFaults :=
  (decodeRegPair_operandFaults cfg p pc).bind fun _ => (codeByte_operandFaults p _).bind fun _ => (regIdx_operandFaults cfg _).map

/-- No shape's rule raises another model fault. -/
theorem decodeFormat_operandFaults (f : Format) : (decodeFormat cfg p pc f).OperandFaults := by
  cases f with
  | noArgs => exact .of_ok _
  | oneImm | oneOffset => exact (decodeOneImm_operandFaults cfg p pc).map
  | twoImm => exact (decodeTwoImm_operandFaults cfg p pc).map
  | oneReg1Imm => exact (decodeOneReg1Imm_operandFaults cfg p pc).map
  | oneReg2Imm | oneReg1Imm1Offset => exact (decodeOneReg2Imm_operandFaults cfg p pc).map
  | twoRegs => exact (decodeRegPair_operandFaults cfg p pc).map
  | twoRegs1Imm | twoRegs1Offset => exact (decodeTwoRegs1Imm_operandFaults cfg p pc).map
  | twoRegs2Imm => exact (decodeTwoRegs2Imm_operandFaults cfg p pc).map
  | threeRegs => exact (decodeThreeRegs_operandFaults cfg p pc).map

end OperandFaults

/-- Settles O5: a byte with an entry runs its shape's rule, whose faults are about operands; the default map is the table's 88 rows. -/
theorem opcodeBytesFrom88AreUnknown : Obligations.OpcodeBytesFrom88AreUnknown := by
  unfold Obligations.OpcodeBytesFrom88AreUnknown
  refine ⟨fun cfg p pc op byte start => ⟨decode_unknown byte start, fun hasEntry op' raised => ?_⟩, fun op => ?_⟩
  · obtain ⟨m, entry⟩ := Option.ne_none_iff_exists'.1 hasEntry
    rw [decode_entry byte start entry] at raised
    obtain ⟨n, h | h⟩ := decodeFormat_operandFaults cfg p pc m.format _ raised <;> cases h
  · rw [OpcodeMap.lookup_standard, List.getElem?_eq_none_iff]
    rfl

/-! ### Words of the spec (spec/95_test_vectors.md) -/

/-- Settles O1: the decode of each of the twelve words, evaluated. -/
theorem specWordsDecodeToTheirInstructions : Obligations.SpecWordsDecodeToTheirInstructions := by
  unfold Obligations.SpecWordsDecodeToTheirInstructions
  exact ⟨by decide, by decide, by decide, by decide, by decide, by decide, by decide, by decide, by decide, by decide,
    by decide, by decide⟩

end Sys2Proof
end

section
/-! PROOFS. Well-placed instructions run safely (O45): what is in place decodes, an instruction that may reach its bytes and is not
refused completes, and a completed instruction records no fault. -/

namespace Sys2Proof.Machine

/-- The three instructions that the spec refuses to execute (spec/60_exceptions.md R437). -/
def RefusedByRule (i : Instr) : Prop :=
  (∃ reg immX, i = .jumpInd reg immX) ∨ (∃ firstReg secondReg immX immY, i = .loadImmJumpInd firstReg secondReg immX immY) ∨
    ∃ firstReg secondReg, i = .sbrk firstReg secondReg

/-- An instruction that is no load, no store and not refused completes in every state. -/
theorem exec_next_of_noAccess {i : Instr} {s : State} (allowed : ¬ RefusedByRule i) (noLoad : loadAccess i s = none)
    (noStore : storeAccess i s = none) : ∃ t, exec i s = .next t := by
  cases i with
  | jumpInd reg immX => exact absurd (.inl ⟨reg, immX, rfl⟩) allowed
  | loadImmJumpInd firstReg secondReg immX immY =>
    exact absurd (.inr (.inl ⟨firstReg, secondReg, immX, immY, rfl⟩)) allowed
  | sbrk firstReg secondReg => exact absurd (.inr (.inr ⟨firstReg, secondReg, rfl⟩)) allowed
  | loadU8 | loadI8 | loadU16 | loadI16 | loadU32
  | loadIndU8 | loadIndI8 | loadIndU16 | loadIndI16 | loadIndU32 => cases noLoad
  | storeU8 | storeU16 | storeU32 | storeImmU8 | storeImmU16 | storeImmU32
  | storeImmIndU8 | storeImmIndU16 | storeImmIndU32
  | storeIndU8 | storeIndU16 | storeIndU32 => cases noStore
  | _ => exact ⟨_, rfl⟩

/-- An instruction that is not refused and may reach its bytes completes. -/
theorem exec_next_of_access {i : Instr} {s : State} (allowed : ¬ RefusedByRule i)
    (loads : ∀ a n, loadAccess i s = some (a, n) → ∃ b, Readable s a n b)
    (stores : ∀ a n v, storeAccess i s = some (a, n, v) → Writable s a n) : ∃ t, exec i s = .next t := by
  cases load : loadAccess i s with
  | some an =>
    obtain ⟨d, ext, run⟩ := exec_of_loadAccess load
    obtain ⟨b, readable⟩ := loads _ _ load
    exact ⟨_, run.trans (load_of_readable s _ _ ext d i.skip b readable)⟩
  | none =>
    cases store : storeAccess i s with
    | some anv => exact ⟨_, (exec_of_storeAccess store).trans (store_of_writable s _ _ _ i.skip (stores _ _ _ store))⟩
    | none => exact exec_next_of_noAccess allowed load store

/-- An instruction that completes leaves the fault record. -/
theorem exec_next_fault {i : Instr} {s t : State} (run : exec i s = .next t) : t.fault = s.fault := by
  have answer := execAnswer i s
  rw [run] at answer
  cases answer with
  | regs regs ir => exact advance_fault ..
  | trap => rfl
  | ecalli => rfl
  | store => rfl

/-- A decoded instruction that completes in the charged state steps safely, whether or not the gas runs out first. -/
theorem safeStep_of_exec_next {s t : State} {op : Byte} {i : Instr} (running : s.status = .running) (noFault : s.fault = none)
    (decoded : fetchDecode s = .ok (op, i)) (run : exec i (chargeGas op s) = .next t) : SafeStep s := by
  have taken := step_of_decoded s op i running noFault decoded
  rw [runInstr, run, settle_of_next] at taken
  cases out : outOfGas (chargeGas op s) <;> rw [out] at taken
  · exact ⟨t, taken, (exec_next_fault run).trans noFault⟩
  · exact ⟨_, taken, noFault⟩

/-- Settles O45: the placed instruction decodes by `decode_of_standsAt`, and the charge leaves the bytes that it reaches and their
rights. -/
theorem wellPlacedInstructionsRunSafely : Obligations.WellPlacedInstructionsRunSafely := by
  unfold Obligations.WellPlacedInstructionsRunSafely
  intro s op i running noFault wf readable entry stands notJumpInd notLoadImmJumpInd notSbrk loads stores
  have allowed : ¬ RefusedByRule i := by
    rintro (⟨reg, immX, h⟩ | ⟨firstReg, secondReg, immX, immY, h⟩ | ⟨firstReg, secondReg, h⟩)
    · exact notJumpInd reg immX h
    · exact notLoadImmJumpInd firstReg secondReg immX immY h
    · exact notSbrk firstReg secondReg h
  have decoded := (fetchDecode_ok s op i).2 ⟨stands.holds.getElem?, decode_of_standsAt wf readable entry stands⟩
  obtain ⟨t, run⟩ := exec_next_of_access (s := chargeGas op s) allowed loads stores
  exact safeStep_of_exec_next running noFault decoded run

end Sys2Proof.Machine
end

section
/-! PROOFS. The disassembler (O49): its loop as a relation without the bound, one case for each way it goes on or ends, and what each
list of the relation says of the code. -/

namespace Sys2Proof.Machine

/-- The records from pc on, and the model fault beside them (spec/30_encoding.md R145). -/
inductive Disassembly (cfg : Config) (p : Program) : Nat → List DisasmRecord → Option ModelFault → Prop where
  /-- The end of the code. -/
  | codeEnd : Disassembly cfg p p.code.length [] none
  /-- A decode that is DecodeError ends the list. -/
  | decodeError {pc : Nat} (decoded : decode cfg p pc = .decodeError) : Disassembly cfg p pc [] none
  /-- A decode that is a model fault ends the list and is reported. -/
  | modelFault {pc : Nat} {f : ModelFault} (decoded : decode cfg p pc = .modelFault f) : Disassembly cfg p pc [] (some f)
  /-- A decoded instruction is listed, and the list goes on right after it. -/
  | record {pc : Nat} {i : Instr} {out : List DisasmRecord} {why : Option ModelFault} (decoded : decode cfg p pc = .ok i)
      (rest : Disassembly cfg p (pc + i.skip) out why) : Disassembly cfg p pc (disasmRecord p pc i :: out) why

theorem skip_pos (i : Instr) : 1 ≤ i.skip := by
  rw [Instr.skip, ← Args.encode_length]
  omega

/-- A decoded instruction's bytes lie within the code. -/
theorem decode_within {cfg : Config} {p : Program} {pc : Nat} {i : Instr} (decoded : decode cfg p pc = .ok i) :
    pc + i.skip ≤ p.code.length := by
  obtain ⟨-, -, within, -⟩ := decodedInstructionsAreWellFormed cfg p pc i decoded
  exact within

/-- With a bound of at least the bytes that are left, the loop never meets it: each record takes one byte or more. -/
theorem disasmFrom_disassembly (cfg : Config) (p : Program) (fuel pc : Nat) (within : pc ≤ p.code.length)
    (bound : p.code.length ≤ pc + fuel) : Disassembly cfg p pc (disasmFrom cfg p fuel pc).1 (disasmFrom cfg p fuel pc).2 := by
  induction fuel generalizing pc with
  | zero =>
    obtain rfl : pc = p.code.length := by omega
    exact .codeEnd
  | succ fuel ih =>
    rw [disasmFrom]
    split
    · cases decoded : decode cfg p pc with
      | ok i =>
        have := skip_pos i
        exact .record decoded (ih (pc + i.skip) (decode_within decoded) (by omega))
      | decodeError => exact .decodeError decoded
      | modelFault f => exact .modelFault decoded
    · obtain rfl : pc = p.code.length := by omega
      exact .codeEnd

theorem disassemble_disassembly (cfg : Config) (p : Program) :
    Disassembly cfg p 0 (disassemble cfg p).1 (disassemble cfg p).2 :=
  disasmFrom_disassembly cfg p p.code.length 0 (Nat.zero_le _) (by omega)

/-! ### What a list says -/

/-- What O49 says of one record: it is the decode at its address. -/
def DisasmRecord.Decodes (cfg : Config) (p : Program) (r : DisasmRecord) : Prop :=
  ∃ op m i, p.code[r.address]? = some op ∧ cfg.opcodeMap.lookup op = some m ∧ r.name = m.text ∧
    decode cfg p r.address = .ok i ∧ r.args = i.args ∧ r.bytes = (p.code.drop r.address).take r.args.skip ∧
    r.bytes.length = r.args.skip

section Listed

variable {cfg : Config} {p : Program} {pc : Nat} {i : Instr} {out : List DisasmRecord} {why : Option ModelFault}

theorem disasmRecord_bytes_length (decoded : decode cfg p pc = .ok i) : (disasmRecord p pc i).bytes.length = i.skip := by
  have within := decode_within decoded
  rw [disasmRecord, List.length_take, List.length_drop]
  omega

theorem disasmRecord_decodes (decoded : decode cfg p pc = .ok i) : (disasmRecord p pc i).Decodes cfg p := by
  obtain ⟨-, -, -, op, byte, entry, -⟩ := decodedInstructionsAreWellFormed cfg p pc i decoded
  exact ⟨op, i.mnemonic, i, byte, entry, rfl, decoded, rfl, rfl, disasmRecord_bytes_length decoded⟩

theorem Disassembly.decodes (h : Disassembly cfg p pc out why) : ∀ r ∈ out, r.Decodes cfg p := by
  induction h with
  | codeEnd | decodeError | modelFault => exact nofun
  | record decoded _ ih => exact List.forall_mem_cons.2 ⟨disasmRecord_decodes decoded, ih⟩

/-- The address of a record is where the bytes of the records before it end. -/
theorem Disassembly.address (h : Disassembly cfg p pc out why) (before : List DisasmRecord) (r : DisasmRecord)
    (after : List DisasmRecord) (listed : out = before ++ r :: after) :
    r.address = pc + (before.flatMap (·.bytes)).length := by
  induction h generalizing before with
  | codeEnd | decodeError | modelFault => simp at listed
  | record decoded _ ih =>
    cases before with
    | nil =>
      obtain ⟨rfl, -⟩ := List.cons.inj listed
      rfl
    | cons first before =>
      obtain ⟨rfl, later⟩ := List.cons.inj listed
      rw [ih before later, List.flatMap_cons, List.length_append, disasmRecord_bytes_length decoded, add_assoc]

/-- The bytes of the records are the code from the first record on. -/
theorem Disassembly.bytes (h : Disassembly cfg p pc out why) :
    out.flatMap (·.bytes) = (p.code.drop pc).take (out.flatMap (·.bytes)).length := by
  induction h with
  | codeEnd | decodeError | modelFault => rfl
  | record decoded _ ih =>
    rw [List.flatMap_cons, List.length_append, disasmRecord_bytes_length decoded, List.take_add, List.drop_drop, ← ih]
    rfl

/-- The list ends at the end of the code or at a failed decode, with the model fault of that decode. -/
theorem Disassembly.stops (h : Disassembly cfg p pc out why) {stop : Nat} (hs : stop = pc + (out.flatMap (·.bytes)).length) :
    (stop = p.code.length ∧ why = none) ∨ (decode cfg p stop = .decodeError ∧ why = none) ∨
      ∃ f, decode cfg p stop = .modelFault f ∧ why = some f := by
  subst hs
  induction h with
  | codeEnd => exact .inl ⟨rfl, rfl⟩
  | decodeError decoded => exact .inr (.inl ⟨decoded, rfl⟩)
  | modelFault decoded => exact .inr (.inr ⟨_, decoded, rfl⟩)
  | record decoded _ ih =>
    rwa [List.flatMap_cons, List.length_append, disasmRecord_bytes_length decoded, ← add_assoc]

end Listed

/-- Settles O49: the disassembler's list is a `Disassembly` from index 0 on. -/
theorem disassemblyIsTheDecodedPrefix : Obligations.DisassemblyIsTheDecodedPrefix := by
  unfold Obligations.DisassemblyIsTheDecodedPrefix
  intro cfg p out why stop h hs
  have listed := disassemble_disassembly cfg p
  rw [h] at listed
  subst hs
  refine ⟨listed.decodes, fun before r after e => ?_, listed.bytes, listed.stops (zero_add _).symm⟩
  rw [listed.address before r after e, zero_add]

end Sys2Proof.Machine
end

section
/-! PROOFS. The step (O33, O34, O35), its gas charge (O37), the end of every run under `GAS_POLICY = halt` (O43), and the three system
instructions that complete (O31). Each way a decode can go gives the step by an equation of its own; what a step does to the gas is
read off the five forms of a step. -/

namespace Sys2Proof.Machine

/-! ### The step by the outcome of its decode -/

section Phases

variable {s : State} (running : s.status = .running) (noFault : s.fault = none)

include running noFault

/-- A DecodeError ends the step in Trapped (spec/40_dispatch.md R172). -/
theorem step_of_decodeError (decoded : fetchDecode s = .decodeError) : step s = .next (s.withStatus .trapped) := by
  unfold step cycle
  rw [(noStep_none_iff s).2 ⟨running, noFault⟩, decoded]

/-- A model fault of the decoder is recorded (R172). -/
theorem step_of_decodeFault {r : ModelFault} (decoded : fetchDecode s = .modelFault r) : step s = .next (s.recordFault r) := by
  unfold step cycle
  rw [(noStep_none_iff s).2 ⟨running, noFault⟩, decoded]

/-- A charge that the gas does not cover ends the step in OutOfGas (R173). -/
theorem step_of_outOfGas {op : Byte} {i : Instr} (decoded : fetchDecode s = .ok (op, i))
    (out : outOfGas (chargeGas op s) = true) : step s = .next ((chargeGas op s).withStatus .outOfGas) := by
  rw [step_of_decoded s op i running noFault decoded, runInstr, if_pos out]

/-- With gas left, the decoded instruction runs in the charged state and its answer is settled (R171). -/
theorem step_of_gasLeft {op : Byte} {i : Instr} (decoded : fetchDecode s = .ok (op, i))
    (gasLeft : outOfGas (chargeGas op s) = false) : step s = settle s op (exec i (chargeGas op s)) := by
  rw [step_of_decoded s op i running noFault decoded, runInstr, if_neg (by simp [gasLeft])]

end Phases

/-! ### When a step is defined -/

/-- Whatever an instruction can answer settles to a next state: none of its forms says that there is no step, and none refuses. -/
theorem ExecAnswer.settle_next {i : Instr} {s : State} {answer : Result} (h : ExecAnswer i s answer) (before : State)
    (op : Byte) : ∃ t, settle before op answer = .next t := by
  cases h with
  | regs | trap | ecalli | store => exact ⟨_, rfl⟩
  | modelFault | refusedByRule => exact ⟨_, rfl⟩

/-- Settles O35: a Running state with no fault recorded has a next state whichever way its decode and its gas charge go. -/
theorem stepDefinedExactlyWhenRunning : Obligations.StepDefinedExactlyWhenRunning := by
  unfold Obligations.StepDefinedExactlyWhenRunning
  intro s
  constructor
  · rintro ⟨t, h⟩
    obtain ⟨running, noFault, -⟩ := step_next s t h
    exact ⟨running, noFault⟩
  · rintro ⟨running, noFault⟩
    cases decoded : fetchDecode s with
    | decodeError => exact ⟨_, step_of_decodeError running noFault decoded⟩
    | modelFault r => exact ⟨_, step_of_decodeFault running noFault decoded⟩
    | ok d =>
      cases out : outOfGas (chargeGas d.1 s) with
      | true => exact ⟨_, step_of_outOfGas running noFault decoded out⟩
      | false =>
        obtain ⟨t, settled⟩ := (execAnswer d.2 (chargeGas d.1 s)).settle_next s d.1
        exact ⟨t, (step_of_gasLeft running noFault decoded out).trans settled⟩

/-- A state that is not Running, or has a fault recorded, answers the reason why it has no step. -/
theorem step_fault_of_stopped {s : State} (stopped : ¬ (s.status = .running ∧ s.fault = none)) :
    ∃ why, step s = .fault why := by
  cases e : noStep s with
  | some why => exact ⟨why, step_of_noStep s why e⟩
  | none => exact absurd ((noStep_none_iff s).1 e) stopped

/-! ### The gas charge -/

/-- The two ways a step treats the gas (spec/40_dispatch.md R172 to R174). -/
inductive StepGas (s t : State) : Prop where
  /-- The decode failed, or a model fault undid the step: no charge. -/
  | kept (why : (∀ d, fetchDecode s ≠ .ok d) ∨ t.fault ≠ none) (gas : t.gas = s.gas)
  /-- The decoded opcode is charged, and no fault is recorded. -/
  | charged (op : Byte) (i : Instr) (decoded : fetchDecode s = .ok (op, i)) (noFault : t.fault = none)
      (gas : t.gas = s.gas - gasCostOf s.config op)

theorem step_gas {s t : State} (h : step s = .next t) : StepGas s t := by
  obtain ⟨-, noFault, form⟩ := step_next s t h
  cases form with
  | decodeError decoded eq => subst eq; exact .kept (.inl (by simp [decoded])) rfl
  | decodeFault r _ eq => subst eq; exact .kept (.inr nofun) rfl
  | outOfGas op i decoded _ eq => subst eq; exact .charged op i decoded noFault rfl
  | ran op i decoded _ run => exact .charged op i decoded ((exec_next_fault run).trans noFault) (exec_frame run).gas
  | execFault op i r _ _ _ eq => subst eq; exact .kept (.inr nofun) rfl

/-- Settles O37: the conditions of its two parts exclude each other, and they are those of the two forms of `StepGas`. -/
theorem eachStepChargesItsOpcodeOnce : Obligations.EachStepChargesItsOpcodeOnce := by
  unfold Obligations.EachStepChargesItsOpcodeOnce
  intro s t h
  cases step_gas h with
  | kept why gas =>
    refine ⟨fun noFault op i decoded => ?_, fun _ => gas⟩
    exact absurd why (by simp [decoded, noFault])
  | charged op i decoded noFault gas =>
    refine ⟨fun _ op' i' decoded' => ?_, fun why => ?_⟩
    · cases decoded.symm.trans decoded'
      exact gas
    · exact absurd why (by simp [decoded, noFault])

/-! ### Runs end within their gas -/

/-- Under `halt` with positive costs a step leads to a state that has no step, or spends gas and leaves it at 0 or more. -/
theorem step_stops_or_spends {s t : State} (halt : s.config.gasPolicy = .halt) (costs : ∀ op, 0 < gasCostOf s.config op)
    (h : step s = .next t) : ¬ (t.status = .running ∧ t.fault = none) ∨ (0 ≤ t.gas ∧ t.gas < s.gas) := by
  obtain ⟨-, -, form⟩ := step_next s t h
  cases form with
  | decodeError _ eq => subst eq; exact .inl nofun
  | decodeFault r _ eq => subst eq; exact .inl nofun
  | outOfGas op i _ _ eq => subst eq; exact .inl nofun
  | ran op i _ out run =>
    have kept : t.gas = s.gas - gasCostOf s.config op := (exec_frame run).gas
    have covered : ¬ s.gas - gasCostOf s.config op < 0 := fun negative =>
      absurd ((outOfGas_iff (chargeGas op s)).2 ⟨negative, halt⟩) (by simp [out])
    have cost := costs op
    exact .inr (by omega)
  | execFault op i r _ _ _ eq => subst eq; exact .inl nofun

/-- A run from a state that has no step has ended at its first step. -/
theorem run_fault_of_stopped (n : Nat) {s : State} (stopped : ¬ (s.status = .running ∧ s.fault = none)) :
    ∃ why, Host.Core.run Sys2Proof.core (n + 1) s = .fault why := by
  obtain ⟨why, h⟩ := step_fault_of_stopped stopped
  exact ⟨why, run_succ_of_fault n s why h⟩

/-- By induction on the bound: a step that leads on to a further step has lowered the gas, and not below 0. -/
theorem run_fault_of_gas_le (n : Nat) (s : State) (halt : s.config.gasPolicy = .halt)
    (costs : ∀ op, 0 < gasCostOf s.config op) (bound : s.gas ≤ n) :
    ∃ why, Host.Core.run Sys2Proof.core (n + 2) s = .fault why := by
  induction n using Nat.strongRecOn generalizing s with
  | _ n ih =>
    by_cases start : s.status = .running ∧ s.fault = none
    case neg => exact run_fault_of_stopped (n + 1) start
    case pos =>
      obtain ⟨t, first⟩ := (stepDefinedExactlyWhenRunning s).2 start
      rw [run_succ_of_next (n + 1) s t first]
      obtain stopped | ⟨covered, spent⟩ := step_stops_or_spends halt costs first
      · exact run_fault_of_stopped n stopped
      · obtain ⟨m, rfl⟩ : ∃ m, n = m + 1 := ⟨n - 1, by omega⟩
        have sameConfig := (step_frame first).config
        exact ih m (by omega) t (sameConfig ▸ halt) (sameConfig ▸ costs) (by omega)

/-- Settles O43: `max(gas, 0)` bounds the gas of the start. -/
theorem runsEndWithinTheirGas : Obligations.RunsEndWithinTheirGas := by
  unfold Obligations.RunsEndWithinTheirGas
  intro s halt costs
  exact run_fault_of_gas_le s.gas.toNat s halt costs (Int.self_le_toNat s.gas)

/-! ### trap, ecalli and fallthrough -/

theorem exec_trap (s : State) : exec .trap s = .next (s.withStatus .trapped) := rfl

theorem exec_fallthrough (s : State) : exec .fallthrough s = .next (s.advance 1 .seq) := rfl

/-- The whole next state of `ecalli` (spec/48_system.md R412), its pc as a wrapping sum. -/
theorem exec_ecalli (immX : Imm) (s : State) : exec (.ecalli immX) s =
    .next { s with hostCall := immX.val, status := .host, pc := s.pc + BitVec.ofNat 32 (1 + immX.len) } := by
  rw [← u32_add_nat]
  rfl

/-- Settles O31: the three results are their `exec` equations. -/
theorem systemResults : Obligations.SystemResults := by
  unfold Obligations.SystemResults
  simp only [OpcodeMap.lookup_standard]
  exact ⟨fun s => ⟨rfl, exec_trap s⟩, fun s immX => ⟨rfl, exec_ecalli immX s⟩,
    fun s => ⟨rfl, _, exec_fallthrough s, movesPc_advance_seq s 1⟩⟩

/-! ### The whole step -/

/-- Settles O33: the charged state of the statement is `chargeGas op s`, and the statement's test of it is `outOfGas`. -/
theorem stepRunsTheDecodedInstruction : Obligations.StepRunsTheDecodedInstruction := by
  unfold Obligations.StepRunsTheDecodedInstruction
  intro s op i c running noFault byte decode charge
  have decoded := (fetchDecode_ok s op i).2 ⟨byte, decode⟩
  obtain rfl : c = chargeGas op s := charge
  have test : (chargeGas op s).gas < 0 ∧ s.config.gasPolicy = .halt ↔ outOfGas (chargeGas op s) = true :=
    (outOfGas_iff (chargeGas op s)).symm
  rw [test, Bool.not_eq_true]
  refine ⟨fun out => step_of_outOfGas running noFault decoded out, fun gasLeft => ?_⟩
  rw [step_of_gasLeft running noFault decoded gasLeft]
  refine ⟨fun t run => ?_, fun r raised => ?_, fun refused => ?_⟩
  · rw [run, settle_of_next]
  · exact settle_of_raises s op r _ (.inl raised)
  · exact settle_of_raises s op _ _ (.inr ⟨refused, rfl⟩)

/-- Settles O34: the decode phase fails as the decode does. -/
theorem stepWithAFailedDecode : Obligations.StepWithAFailedDecode := by
  unfold Obligations.StepWithAFailedDecode
  intro s running noFault
  exact ⟨fun decode => step_of_decodeError running noFault ((fetchDecode_decodeError s).2 decode),
    fun r decode => step_of_decodeFault running noFault ((fetchDecode_modelFault s r).2 decode)⟩

end Sys2Proof.Machine
end

section
/-! PROOFS. The math instructions (O10, O11), the halves of a 64-bit product (O12), and quotient with remainder (O13). Each
instruction runs as its form with the model's own operation; what that operation is in exact arithmetic is said apart from the
machine, over words. -/

namespace Sys2Proof.Machine

/-! ### Instructions of the two register forms -/

/-- An instruction whose arm is the ThreeRegs form completes with the form's whole effect (spec/41_math.md R200). -/
theorem runsThreeRegs_of_threeRegsOp {mk : Reg → Reg → Reg → Instr} {op : Byte} {f : Word → Word → Word}
    (listed : ∀ r₁ r₂ r₃, standardMnemonics[op.toNat]? = some (mk r₁ r₂ r₃).mnemonic)
    (arm : ∀ r₁ r₂ r₃ s, exec (mk r₁ r₂ r₃) s = threeRegsOp f r₁ r₂ r₃ s) : RunsThreeRegs mk op f := by
  intro s r₁ r₂ r₃
  rw [OpcodeMap.lookup_standard, arm]
  exact ⟨listed r₁ r₂ r₃, _, rfl, threeRegsOp_next f r₁ r₂ r₃ s _ rfl⟩

/-- An instruction whose arm is the TwoRegs1Imm form completes with the form's whole effect (R200). -/
theorem runsTwoRegs1Imm_of_twoRegs1ImmOp {mk : Reg → Reg → Imm → Instr} {op : Byte} {f : Word → Word → Word}
    (listed : ∀ r₁ r₂ immX, standardMnemonics[op.toNat]? = some (mk r₁ r₂ immX).mnemonic)
    (arm : ∀ r₁ r₂ immX s, exec (mk r₁ r₂ immX) s = twoRegs1ImmOp f r₁ r₂ immX s) : RunsTwoRegs1Imm mk op f := by
  intro s r₁ r₂ immX
  rw [OpcodeMap.lookup_standard, arm]
  exact ⟨listed r₁ r₂ immX, _, rfl, twoRegs1ImmOp_next f r₁ r₂ immX s _ rfl⟩

theorem RunsThreeRegs.congr {mk : Reg → Reg → Reg → Instr} {op : Byte} {f g : Word → Word → Word}
    (runs : RunsThreeRegs mk op f) (same : ∀ a b, f a b = g a b) : RunsThreeRegs mk op g :=
  (funext₂ same : f = g) ▸ runs

theorem RunsTwoRegs1Imm.congr {mk : Reg → Reg → Imm → Instr} {op : Byte} {f g : Word → Word → Word}
    (runs : RunsTwoRegs1Imm mk op f) (same : ∀ a b, f a b = g a b) : RunsTwoRegs1Imm mk op g :=
  (funext₂ same : f = g) ▸ runs

/-- What the destination register holds after a ThreeRegs instruction. -/
theorem RunsThreeRegs.result {mk : Reg → Reg → Reg → Instr} {op : Byte} {f : Word → Word → Word}
    (runs : RunsThreeRegs mk op f) (s : State) (r₁ r₂ r₃ : Reg) :
    ∃ t, exec (mk r₁ r₂ r₃) s = .next t ∧ t.reg r₃ = f (s.reg r₂) (s.reg r₁) := by
  obtain ⟨-, t, next, writes⟩ := runs s r₁ r₂ r₃
  exact ⟨t, next, writes.value⟩

/-! ### The math instructions run by the model's operations (R201 to R215) -/

theorem runs_add : RunsThreeRegs .add 8 addW :=
  runsThreeRegs_of_threeRegsOp (fun _ _ _ => rfl) (fun _ _ _ _ => rfl)
theorem runs_sub : RunsThreeRegs .sub 20 subW :=
  runsThreeRegs_of_threeRegsOp (fun _ _ _ => rfl) (fun _ _ _ _ => rfl)
theorem runs_mul : RunsThreeRegs .mul 34 mulW :=
  runsThreeRegs_of_threeRegsOp (fun _ _ _ => rfl) (fun _ _ _ _ => rfl)
theorem runs_mulUpperSS : RunsThreeRegs .mulUpperSS 67 mulUpperSSW :=
  runsThreeRegs_of_threeRegsOp (fun _ _ _ => rfl) (fun _ _ _ _ => rfl)
theorem runs_mulUpperUU : RunsThreeRegs .mulUpperUU 57 mulUpperUUW :=
  runsThreeRegs_of_threeRegsOp (fun _ _ _ => rfl) (fun _ _ _ _ => rfl)
theorem runs_mulUpperSU : RunsThreeRegs .mulUpperSU 81 mulUpperSUW :=
  runsThreeRegs_of_threeRegsOp (fun _ _ _ => rfl) (fun _ _ _ _ => rfl)
theorem runs_divU : RunsThreeRegs .divU 68 divUW :=
  runsThreeRegs_of_threeRegsOp (fun _ _ _ => rfl) (fun _ _ _ _ => rfl)
theorem runs_divS : RunsThreeRegs .divS 64 divSW :=
  runsThreeRegs_of_threeRegsOp (fun _ _ _ => rfl) (fun _ _ _ _ => rfl)
theorem runs_remU : RunsThreeRegs .remU 73 remUW :=
  runsThreeRegs_of_threeRegsOp (fun _ _ _ => rfl) (fun _ _ _ _ => rfl)
theorem runs_remS : RunsThreeRegs .remS 70 remSW :=
  runsThreeRegs_of_threeRegsOp (fun _ _ _ => rfl) (fun _ _ _ _ => rfl)

theorem runs_addImm : RunsTwoRegs1Imm .addImm 2 addW :=
  runsTwoRegs1Imm_of_twoRegs1ImmOp (fun _ _ _ => rfl) (fun _ _ _ _ => rfl)
theorem runs_mulImm : RunsTwoRegs1Imm .mulImm 35 mulW :=
  runsTwoRegs1Imm_of_twoRegs1ImmOp (fun _ _ _ => rfl) (fun _ _ _ _ => rfl)
theorem runs_mulUpperSSImm : RunsTwoRegs1Imm .mulUpperSSImm 65 mulUpperSSW :=
  runsTwoRegs1Imm_of_twoRegs1ImmOp (fun _ _ _ => rfl) (fun _ _ _ _ => rfl)
theorem runs_mulUpperUUImm : RunsTwoRegs1Imm .mulUpperUUImm 63 mulUpperUUW :=
  runsTwoRegs1Imm_of_twoRegs1ImmOp (fun _ _ _ => rfl) (fun _ _ _ _ => rfl)
theorem runs_negAddImm : RunsTwoRegs1Imm .negAddImm 40 negAddW :=
  runsTwoRegs1Imm_of_twoRegs1ImmOp (fun _ _ _ => rfl) (fun _ _ _ _ => rfl)

/-! ### The operations in exact arithmetic -/

theorem addW_eq_ofNat (a b : Word) : addW a b = BitVec.ofNat 32 (a.toNat + b.toNat) := by
  simp [addW, BitVec.ofNat_add]

/-- Subtraction wraps: it is the narrowed difference of the unsigned readings. -/
theorem subW_eq_ofInt (a b : Word) : subW a b = BitVec.ofInt 32 ((a.toNat : Int) - b.toNat) := by
  rw [subW, sub_eq_add_neg, Int.sub_eq_add_neg, BitVec.ofInt_add, BitVec.ofInt_neg]
  simp

theorem negAddW_eq_ofInt (a b : Word) : negAddW a b = BitVec.ofInt 32 ((b.toNat : Int) - a.toNat) := subW_eq_ofInt b a

theorem mulW_eq_ofNat (a b : Word) : mulW a b = BitVec.ofNat 32 (a.toNat * b.toNat) := by
  simp [mulW, BitVec.ofNat_mul]

/-- Both divisions round toward minus infinity when the divisor is positive. -/
theorem u32_ediv_eq_fdiv (p : Int) : u32 (p / 2 ^ 32) = BitVec.ofInt 32 (Int.fdiv p (2 ^ 32)) := by
  rw [Int.fdiv_eq_ediv_of_nonneg p (by norm_num), u32]

theorem mulUpperSSW_eq_fdiv (a b : Word) : mulUpperSSW a b = BitVec.ofInt 32 (Int.fdiv (a.toInt * b.toInt) (2 ^ 32)) :=
  u32_ediv_eq_fdiv (a.toInt * b.toInt)

theorem mulUpperSUW_eq_fdiv (a b : Word) : mulUpperSUW a b = BitVec.ofInt 32 (Int.fdiv (a.toInt * b.toNat) (2 ^ 32)) :=
  u32_ediv_eq_fdiv (a.toInt * b.toNat)

theorem eq_zero_iff_toNat (a : Word) : a = 0#32 ↔ a.toNat = 0 := BitVec.toNat_eq

theorem divUW_eq (a b : Word) :
    divUW a b = if b.toNat = 0 then 0xFFFFFFFF#32 else BitVec.ofNat 32 (a.toNat / b.toNat) := by
  simp only [divUW, eq_zero_iff_toNat]

theorem remUW_eq (a b : Word) : remUW a b = if b.toNat = 0 then a else BitVec.ofNat 32 (a.toNat % b.toNat) := by
  simp only [remUW, eq_zero_iff_toNat]

/-- Settles O10: each instruction runs by its operation, and the operation is the rule's value. -/
theorem threeRegisterMathResults : Obligations.ThreeRegisterMathResults := by
  unfold Obligations.ThreeRegisterMathResults
  exact ⟨runs_add.congr addW_eq_ofNat, runs_sub.congr subW_eq_ofInt, runs_mul.congr mulW_eq_ofNat,
    runs_mulUpperSS.congr mulUpperSSW_eq_fdiv, runs_mulUpperUU, runs_mulUpperSU.congr mulUpperSUW_eq_fdiv,
    runs_divU.congr divUW_eq, runs_divS, runs_remU.congr remUW_eq, runs_remS⟩

/-- Settles O11: the operations are those of the register forms, with `immX` as the second operand. -/
theorem immediateMathResults : Obligations.ImmediateMathResults := by
  unfold Obligations.ImmediateMathResults
  exact ⟨runs_addImm.congr addW_eq_ofNat, runs_mulImm.congr mulW_eq_ofNat, runs_mulUpperSSImm.congr mulUpperSSW_eq_fdiv,
    runs_mulUpperUUImm, runs_negAddImm.congr negAddW_eq_ofInt⟩

/-! ### The halves of a 64-bit product -/

/-- The high word of an integer above its low word is the integer modulo 2^64. -/
theorem u32_append_u32 (p : Int) : u32 (p / 2 ^ 32) ++ u32 p = BitVec.ofInt 64 p := by
  apply BitVec.eq_of_toNat_eq
  rw [BitVec.toNat_append, ← Nat.shiftLeft_add_eq_or_of_lt (u32 p).isLt, Nat.shiftLeft_eq]
  simp only [u32, BitVec.toNat_ofInt]
  omega

/-- The low word of a product is the same for the signed and the unsigned readings of the operands. -/
theorem mulW_eq_u32 (a b : Word) {x y : Int} (hx : u32 x = a) (hy : u32 y = b) : mulW a b = u32 (x * y) := by
  rw [mulW, ← hx, ← hy]
  exact (BitVec.ofInt_mul ..).symm

theorem u32_s32 (a : Word) : u32 (s32 a) = a := BitVec.ofInt_toInt

theorem u32_toNat (a : Word) : u32 a.toNat = a := by simp [u32]

theorem signExtend_eq_ofInt_s32 (a : Word) : a.signExtend 64 = BitVec.ofInt 64 (s32 a) := rfl

theorem setWidth_eq_ofInt_toNat (a : Word) : a.setWidth 64 = BitVec.ofInt 64 a.toNat := by
  simp [BitVec.ofNat_toNat]

theorem mulUpperUUW_append_mulW (a b : Word) : mulUpperUUW a b ++ mulW a b = a.setWidth 64 * b.setWidth 64 := by
  have high : mulUpperUUW a b = u32 ((a.toNat * b.toNat : Int) / 2 ^ 32) := by
    rw [mulUpperUUW, u32, ← BitVec.ofInt_natCast]
    norm_cast
  rw [high, mulW_eq_u32 a b (u32_toNat a) (u32_toNat b), u32_append_u32, BitVec.ofInt_mul, setWidth_eq_ofInt_toNat,
    setWidth_eq_ofInt_toNat]

theorem mulUpperSSW_append_mulW (a b : Word) : mulUpperSSW a b ++ mulW a b = a.signExtend 64 * b.signExtend 64 := by
  rw [mulUpperSSW, mulW_eq_u32 a b (u32_s32 a) (u32_s32 b), u32_append_u32, BitVec.ofInt_mul, signExtend_eq_ofInt_s32,
    signExtend_eq_ofInt_s32]

theorem mulUpperSUW_append_mulW (a b : Word) : mulUpperSUW a b ++ mulW a b = a.signExtend 64 * b.setWidth 64 := by
  rw [mulUpperSUW, mulW_eq_u32 a b (u32_s32 a) (u32_toNat b), u32_append_u32, BitVec.ofInt_mul, signExtend_eq_ofInt_s32,
    setWidth_eq_ofInt_toNat]

/-- Settles O12: the four results are the operations' values of the same two words. -/
theorem productHalvesJoinToTheProduct : Obligations.ProductHalvesJoinToTheProduct := by
  unfold Obligations.ProductHalvesJoinToTheProduct
  intro s firstReg secondReg thirdReg
  obtain ⟨low, runLow, lowIs⟩ := runs_mul.result s firstReg secondReg thirdReg
  obtain ⟨highU, runU, highUIs⟩ := runs_mulUpperUU.result s firstReg secondReg thirdReg
  obtain ⟨highS, runS, highSIs⟩ := runs_mulUpperSS.result s firstReg secondReg thirdReg
  obtain ⟨highSU, runSU, highSUIs⟩ := runs_mulUpperSU.result s firstReg secondReg thirdReg
  refine ⟨low, highU, highS, highSU, runLow, runU, runS, runSU, ?_⟩
  rw [lowIs, highUIs, highSIs, highSUIs]
  exact ⟨mulUpperUUW_append_mulW _ _, mulUpperSSW_append_mulW _ _, mulUpperSUW_append_mulW _ _⟩

/-! ### Quotient and remainder -/

/-- The remainder of natural numbers by 0 is the dividend, as the rule has it (R209, R216). -/
theorem remUW_eq_ofNat_mod (a b : Word) : remUW a b = BitVec.ofNat 32 (a.toNat % b.toNat) := by
  unfold remUW
  split
  case isTrue zero => simp [zero]
  case isFalse => rfl

theorem toNat_remUW (a b : Word) : (remUW a b).toNat = a.toNat % b.toNat := by
  rw [remUW_eq_ofNat_mod]
  exact Nat.mod_eq_of_lt (Nat.mod_lt_of_lt a.isLt)

theorem divUW_mul_add_remUW (a b : Word) : divUW a b * b + remUW a b = a := by
  rw [remUW_eq_ofNat_mod]
  by_cases zero : b = 0#32
  case pos => simp [zero]
  case neg =>
    have division := congrArg (BitVec.ofNat 32) (Nat.div_add_mod' a.toNat b.toNat)
    simpa [divUW, zero, BitVec.ofNat_add, BitVec.ofNat_mul] using division

/-- Outside division by zero the signed quotient is the narrowed exact one: `MIN / -1` is 2^31, which narrows to MIN. -/
theorem divSW_eq_tdiv (a b : Word) (nonzero : s32 b ≠ 0) : divSW a b = u32 ((s32 a).tdiv (s32 b)) := by
  rw [divSW, if_neg nonzero]
  split
  case isTrue overflow =>
    obtain ⟨min, minusOne⟩ := overflow
    rw [min, minusOne]
    decide
  case isFalse => rfl

/-- The size of the remainder with the sign of the dividend is the remainder of the division rounded toward zero. -/
theorem sign_mul_natAbs_mod (x y : Int) : x.sign * (x.natAbs % y.natAbs : Nat) = x.tmod y := by
  rw [← Int.sign_mul_natAbs (x.tmod y), Int.natAbs_tmod, Int.sign_tmod]
  split
  case isTrue divides => simp [Nat.mod_eq_zero_of_dvd (Int.natAbs_dvd_natAbs.2 divides)]
  case isFalse => rfl

/-- The three cases of the signed remainder are one: by 0 and at `MIN rem -1` the exact remainder is the rule's value. -/
theorem remSW_eq_tmod (a b : Word) : remSW a b = u32 ((s32 a).tmod (s32 b)) := by
  unfold remSW
  split
  case isTrue zero => rw [zero, Int.tmod_zero, u32_s32]
  case isFalse =>
    split
    case isTrue overflow =>
      obtain ⟨min, minusOne⟩ := overflow
      rw [min, minusOne]
      decide
    case isFalse => rw [sign_mul_natAbs_mod]

/-- The exact remainder is in the signed range, so nothing is lost when it is narrowed. -/
theorem s32_remSW (a b : Word) : s32 (remSW a b) = (s32 a).tmod (s32 b) := by
  have exactRemainder : (s32 a).tmod (s32 b) = s32 (a.srem b) := (BitVec.toInt_srem a b).symm
  rw [remSW_eq_tmod, exactRemainder, u32_s32]

theorem s32_eq_zero_iff (a : Word) : s32 a = 0 ↔ a = 0#32 := BitVec.toInt_inj (y := 0#32)

theorem divSW_mul_add_remSW (a b : Word) : divSW a b * b + remSW a b = a := by
  rw [remSW_eq_tmod]
  by_cases zero : s32 b = 0
  case pos => rw [zero, Int.tmod_zero, u32_s32, (s32_eq_zero_iff b).1 zero, BitVec.mul_zero, BitVec.zero_add]
  case neg =>
    calc divSW a b * b + u32 ((s32 a).tmod (s32 b))
        = u32 ((s32 a).tdiv (s32 b)) * u32 (s32 b) + u32 ((s32 a).tmod (s32 b)) := by rw [divSW_eq_tdiv a b zero, u32_s32 b]
      _ = u32 ((s32 a).tdiv (s32 b) * s32 b + (s32 a).tmod (s32 b)) := by simp only [u32, BitVec.ofInt_add, BitVec.ofInt_mul]
      _ = a := by rw [Int.tdiv_mul_add_tmod, u32_s32]

theorem toNat_remUW_lt (a : Word) {b : Word} (nonzero : b ≠ 0#32) : (remUW a b).toNat < b.toNat := by
  rw [toNat_remUW]
  exact Nat.mod_lt _ (Nat.pos_of_ne_zero (mt (eq_zero_iff_toNat b).2 nonzero))

theorem natAbs_s32_remSW_lt (a : Word) {b : Word} (nonzero : b ≠ 0#32) : (s32 (remSW a b)).natAbs < (s32 b).natAbs := by
  rw [s32_remSW, Int.natAbs_tmod]
  exact Nat.mod_lt _ (Int.natAbs_pos.2 (mt (s32_eq_zero_iff b).1 nonzero))

theorem sign_s32_remSW {a b : Word} (nonzero : s32 (remSW a b) ≠ 0) : (s32 (remSW a b)).sign = (s32 a).sign := by
  rw [s32_remSW] at nonzero ⊢
  rw [Int.sign_tmod, if_neg (mt Int.tmod_eq_zero_of_dvd nonzero)]

/-- Settles O13: the four results are the operations' values of the same two words. -/
theorem quotientAndRemainderFitTogether : Obligations.QuotientAndRemainderFitTogether := by
  unfold Obligations.QuotientAndRemainderFitTogether
  intro s firstReg secondReg thirdReg
  obtain ⟨qu, runQu, quIs⟩ := runs_divU.result s firstReg secondReg thirdReg
  obtain ⟨ru, runRu, ruIs⟩ := runs_remU.result s firstReg secondReg thirdReg
  obtain ⟨qs, runQs, qsIs⟩ := runs_divS.result s firstReg secondReg thirdReg
  obtain ⟨rs, runRs, rsIs⟩ := runs_remS.result s firstReg secondReg thirdReg
  refine ⟨qu, ru, qs, rs, runQu, runRu, runQs, runRs, ?_⟩
  simp only [State.sreg]
  rw [quIs, ruIs, qsIs, rsIs]
  exact ⟨divUW_mul_add_remUW _ _, divSW_mul_add_remSW _ _,
    fun nonzero => ⟨toNat_remUW_lt _ nonzero, natAbs_s32_remSW_lt _ nonzero, sign_s32_remSW⟩⟩

end Sys2Proof.Machine
end

section
/-! PROOFS. The bit instructions (O14). Each is an arm of a register form with a bitwise operation on whole words, so the form's
rule gives completion, result and frame. -/

namespace Sys2Proof.Machine

/-! ### The bit instructions run by the bitwise operations (spec/42_bit.md R241 to R246) -/

theorem runs_and : RunsThreeRegs .and 23 (fun a b => a &&& b) :=
  runsThreeRegs_of_threeRegsOp (fun _ _ _ => rfl) (fun _ _ _ _ => rfl)
theorem runs_xor : RunsThreeRegs .xor 28 (fun a b => a ^^^ b) :=
  runsThreeRegs_of_threeRegsOp (fun _ _ _ => rfl) (fun _ _ _ _ => rfl)
theorem runs_or : RunsThreeRegs .or 12 (fun a b => a ||| b) :=
  runsThreeRegs_of_threeRegsOp (fun _ _ _ => rfl) (fun _ _ _ _ => rfl)

theorem runs_andImm : RunsTwoRegs1Imm .andImm 18 (fun a x => a &&& x) :=
  runsTwoRegs1Imm_of_twoRegs1ImmOp (fun _ _ _ => rfl) (fun _ _ _ _ => rfl)
theorem runs_xorImm : RunsTwoRegs1Imm .xorImm 31 (fun a x => a ^^^ x) :=
  runsTwoRegs1Imm_of_twoRegs1ImmOp (fun _ _ _ => rfl) (fun _ _ _ _ => rfl)
theorem runs_orImm : RunsTwoRegs1Imm .orImm 49 (fun a x => a ||| x) :=
  runsTwoRegs1Imm_of_twoRegs1ImmOp (fun _ _ _ => rfl) (fun _ _ _ _ => rfl)

/-- Settles O14: the operation of each arm is already the rule's, so the six runs are the statement. -/
theorem bitwiseResults : Obligations.BitwiseResults := by
  unfold Obligations.BitwiseResults
  exact ⟨runs_and, runs_xor, runs_or, runs_andImm, runs_xorImm, runs_orImm⟩

end Sys2Proof.Machine
end

section
/-! PROOFS. The shift instructions (O15). Each is an arm of a register form with one of the three shifts of a word; that such a shift is
multiplication or division by a power of two is said apart from the machine, over words. The alt forms exchange value and amount. -/

namespace Sys2Proof.Machine

/-! ### The shift instructions run by the model's shifts (spec/43_shift.md R261 to R269) -/

theorem runs_shloL : RunsThreeRegs .shloL 55 shloLW :=
  runsThreeRegs_of_threeRegsOp (fun _ _ _ => rfl) (fun _ _ _ _ => rfl)
theorem runs_shloR : RunsThreeRegs .shloR 51 shloRW :=
  runsThreeRegs_of_threeRegsOp (fun _ _ _ => rfl) (fun _ _ _ _ => rfl)
theorem runs_sharR : RunsThreeRegs .sharR 77 sharRW :=
  runsThreeRegs_of_threeRegsOp (fun _ _ _ => rfl) (fun _ _ _ _ => rfl)

theorem runs_shloLImm : RunsTwoRegs1Imm .shloLImm 9 shloLW :=
  runsTwoRegs1Imm_of_twoRegs1ImmOp (fun _ _ _ => rfl) (fun _ _ _ _ => rfl)
theorem runs_shloRImm : RunsTwoRegs1Imm .shloRImm 14 shloRW :=
  runsTwoRegs1Imm_of_twoRegs1ImmOp (fun _ _ _ => rfl) (fun _ _ _ _ => rfl)
theorem runs_sharRImm : RunsTwoRegs1Imm .sharRImm 25 sharRW :=
  runsTwoRegs1Imm_of_twoRegs1ImmOp (fun _ _ _ => rfl) (fun _ _ _ _ => rfl)

theorem runs_shloLImmAlt : RunsTwoRegs1Imm .shloLImmAlt 75 (fun amount v => shloLW v amount) :=
  runsTwoRegs1Imm_of_twoRegs1ImmOp (fun _ _ _ => rfl) (fun _ _ _ _ => rfl)
theorem runs_shloRImmAlt : RunsTwoRegs1Imm .shloRImmAlt 72 (fun amount v => shloRW v amount) :=
  runsTwoRegs1Imm_of_twoRegs1ImmOp (fun _ _ _ => rfl) (fun _ _ _ _ => rfl)
theorem runs_sharRImmAlt : RunsTwoRegs1Imm .sharRImmAlt 80 (fun amount v => sharRW v amount) :=
  runsTwoRegs1Imm_of_twoRegs1ImmOp (fun _ _ _ => rfl) (fun _ _ _ _ => rfl)

/-! ### The shifts in exact arithmetic (R260) -/

/-- The bits that a left shift drops are those that narrowing the exact product drops. -/
theorem shloLW_eq_ofNat (v amount : Word) : shloLW v amount = BitVec.ofNat 32 (v.toNat * 2 ^ (amount.toNat % 32)) := by
  apply BitVec.eq_of_toNat_eq
  rw [shloLW, shiftAmount, BitVec.toNat_shiftLeft, Nat.shiftLeft_eq, BitVec.toNat_ofNat]

/-- A quotient of a word is itself a word, so narrowing it loses nothing. -/
theorem shloRW_eq_ofNat (v amount : Word) : shloRW v amount = BitVec.ofNat 32 (v.toNat / 2 ^ (amount.toNat % 32)) := by
  rw [shloRW, shiftAmount, ← Nat.shiftRight_eq_div_pow, ← BitVec.toNat_ushiftRight, BitVec.ofNat_toNat, BitVec.setWidth_eq]

/-- The arithmetic shift rounds toward minus infinity, as `Int.fdiv` does; its quotient is in the signed range. -/
theorem sharRW_eq_fdiv (v amount : Word) :
    sharRW v amount = BitVec.ofInt 32 (Int.fdiv v.toInt (2 ^ (amount.toNat % 32))) := by
  have quotient : (sharRW v amount).toInt = Int.fdiv v.toInt (2 ^ (amount.toNat % 32)) := by
    rw [sharRW, BitVec.toInt_sshiftRight, Int.shiftRight_eq_div_pow, Int.fdiv_eq_ediv_of_nonneg _ (by positivity)]
    norm_cast
  rw [← quotient, BitVec.ofInt_toInt]

/-- Settles O15: each instruction runs by its shift, and the shift is the rule's product or quotient; the alt forms use the same three
equations with the operands exchanged. -/
theorem shiftResults : Obligations.ShiftResults := by
  unfold Obligations.ShiftResults
  exact ⟨runs_shloL.congr shloLW_eq_ofNat, runs_shloR.congr shloRW_eq_ofNat, runs_sharR.congr sharRW_eq_fdiv,
    runs_shloLImm.congr shloLW_eq_ofNat, runs_shloRImm.congr shloRW_eq_ofNat, runs_sharRImm.congr sharRW_eq_fdiv,
    runs_shloLImmAlt.congr fun amount v => shloLW_eq_ofNat v amount,
    runs_shloRImmAlt.congr fun amount v => shloRW_eq_ofNat v amount,
    runs_sharRImmAlt.congr fun amount v => sharRW_eq_fdiv v amount⟩

end Sys2Proof.Machine
end

section
/-! PROOFS. The set instructions (O16). Each is an arm of a register form whose operation writes a comparison of the model as a word;
that this word is 1 or 0 by the rule's order of the readings is said apart from the machine, over words. -/

namespace Sys2Proof.Machine

/-! ### The set instructions run by the model's comparisons (spec/44_boolean.md R291 to R296) -/

theorem runs_setLtU : RunsThreeRegs .setLtU 36 (fun a b => boolWord (condLtU a b)) :=
  runsThreeRegs_of_threeRegsOp (fun _ _ _ => rfl) (fun _ _ _ _ => rfl)
theorem runs_setLtS : RunsThreeRegs .setLtS 58 (fun a b => boolWord (condLtS a b)) :=
  runsThreeRegs_of_threeRegsOp (fun _ _ _ => rfl) (fun _ _ _ _ => rfl)

theorem runs_setLtUImm : RunsTwoRegs1Imm .setLtUImm 27 (fun a x => boolWord (condLtU a x)) :=
  runsTwoRegs1Imm_of_twoRegs1ImmOp (fun _ _ _ => rfl) (fun _ _ _ _ => rfl)
theorem runs_setLtSImm : RunsTwoRegs1Imm .setLtSImm 56 (fun a x => boolWord (condLtS a x)) :=
  runsTwoRegs1Imm_of_twoRegs1ImmOp (fun _ _ _ => rfl) (fun _ _ _ _ => rfl)
theorem runs_setGtUImm : RunsTwoRegs1Imm .setGtUImm 39 (fun a x => boolWord (condGtU a x)) :=
  runsTwoRegs1Imm_of_twoRegs1ImmOp (fun _ _ _ => rfl) (fun _ _ _ _ => rfl)
theorem runs_setGtSImm : RunsTwoRegs1Imm .setGtSImm 61 (fun a x => boolWord (condGtS a x)) :=
  runsTwoRegs1Imm_of_twoRegs1ImmOp (fun _ _ _ => rfl) (fun _ _ _ _ => rfl)

/-! ### The word of a comparison (R290) -/

/-- A test that decides a comparison is written as 1 when the comparison holds and as 0 when it does not. -/
theorem boolWord_eq_ite {test : Bool} {comparison : Prop} [Decidable comparison] (decides : test = true ↔ comparison) :
    boolWord test = if comparison then 1#32 else 0#32 := by
  unfold boolWord
  exact if_congr decides rfl rfl

/-- Settles O16: each instruction runs by its comparison's word, and the comparison is the rule's order of the unsigned or the signed
readings. -/
theorem setResults : Obligations.SetResults := by
  unfold Obligations.SetResults
  exact ⟨runs_setLtU.congr fun a b => boolWord_eq_ite (condLtU_iff a b),
    runs_setLtS.congr fun a b => boolWord_eq_ite (condLtS_iff a b),
    runs_setLtUImm.congr fun a x => boolWord_eq_ite (condLtU_iff a x),
    runs_setLtSImm.congr fun a x => boolWord_eq_ite (condLtS_iff a x),
    runs_setGtUImm.congr fun a x => boolWord_eq_ite (condGtU_iff a x),
    runs_setGtSImm.congr fun a x => boolWord_eq_ite (condGtS_iff a x)⟩

end Sys2Proof.Machine
end

section
/-! PROOFS. The moves (O17). Each is an arm of a move form; a conditional form either writes its destination or only moves the pc, by
its test of the first register, and what each test says of a word, where it holds and where it fails, is said apart from the machine. -/

namespace Sys2Proof.Machine

/-! ### What the two tests say where they fail -/

theorem condEq_eq_false_iff (a b : Word) : condEq a b = false ↔ a ≠ b := decide_eq_false_iff_not
theorem condNe_eq_false_iff (a b : Word) : condNe a b = false ↔ a = b := by
  rw [← Bool.not_eq_true, condNe_iff, not_ne_iff]

/-- Two outcomes told apart by a test, as one implication for each side of the condition that the test decides. -/
theorem outcomes_of_test {test : Bool} {holds fails written kept : Prop} (passes : test = true ↔ holds)
    (rejects : test = false ↔ fails) (outcome : (test = true ∧ written) ∨ (test = false ∧ kept)) :
    (holds → written) ∧ (fails → kept) := by
  rcases outcome with ⟨passed, writes⟩ | ⟨rejected, keeps⟩
  · have noFail : ¬ fails := fun h => Bool.eq_false_iff.1 (rejects.2 h) passed
    exact ⟨fun _ => writes, fun h => absurd h noFail⟩
  · have noHold : ¬ holds := fun h => Bool.eq_false_iff.1 rejected (passes.2 h)
    exact ⟨fun h => absurd h noHold, fun _ => keeps⟩

/-! ### Instructions of the two conditional move forms (spec/45_move.md R310) -/

/-- `mk` has opcode `op` and moves `x[secondReg]` to `x[thirdReg]` where `holds`, and writes no register where `fails`. -/
def RunsThreeRegsMoveIf (mk : Reg → Reg → Reg → Instr) (op : Byte) (holds fails : Word → Prop) : Prop :=
  ∀ (s : State) (firstReg secondReg thirdReg : Reg),
    OpcodeMap.standard.lookup op = some (mk firstReg secondReg thirdReg).mnemonic ∧
    ∃ t, exec (mk firstReg secondReg thirdReg) s = .next t ∧
      (holds (s.reg firstReg) → WritesReg s t thirdReg (s.reg secondReg) (s.pc + 3#32)) ∧
      (fails (s.reg firstReg) → MovesPc s t (s.pc + 3#32))

/-- `mk` has opcode `op` and moves `immX` to `x[secondReg]` where `holds`, and writes no register where `fails`. -/
def RunsTwoRegs1ImmMoveIf (mk : Reg → Reg → Imm → Instr) (op : Byte) (holds fails : Word → Prop) : Prop :=
  ∀ (s : State) (firstReg secondReg : Reg) (immX : Imm),
    OpcodeMap.standard.lookup op = some (mk firstReg secondReg immX).mnemonic ∧
    ∃ t, exec (mk firstReg secondReg immX) s = .next t ∧
      (holds (s.reg firstReg) → WritesReg s t secondReg immX.val (s.pc + BitVec.ofNat 32 (2 + immX.len))) ∧
      (fails (s.reg firstReg) → MovesPc s t (s.pc + BitVec.ofNat 32 (2 + immX.len)))

section
variable {op : Byte} {test : Word → Bool} {holds fails : Word → Prop}

theorem runsThreeRegsMoveIf_of_threeRegsMoveIf {mk : Reg → Reg → Reg → Instr}
    (passes : ∀ c, test c = true ↔ holds c) (rejects : ∀ c, test c = false ↔ fails c)
    (listed : ∀ r₁ r₂ r₃, standardMnemonics[op.toNat]? = some (mk r₁ r₂ r₃).mnemonic)
    (arm : ∀ r₁ r₂ r₃ s, exec (mk r₁ r₂ r₃) s = threeRegsMoveIf test r₁ r₂ r₃ s) : RunsThreeRegsMoveIf mk op holds fails := by
  intro s r₁ r₂ r₃
  rw [OpcodeMap.lookup_standard, arm]
  exact ⟨listed r₁ r₂ r₃, _, rfl, outcomes_of_test (passes _) (rejects _) (threeRegsMoveIf_next test r₁ r₂ r₃ s _ rfl)⟩

theorem runsTwoRegs1ImmMoveIf_of_twoRegs1ImmMoveIf {mk : Reg → Reg → Imm → Instr}
    (passes : ∀ c, test c = true ↔ holds c) (rejects : ∀ c, test c = false ↔ fails c)
    (listed : ∀ r₁ r₂ immX, standardMnemonics[op.toNat]? = some (mk r₁ r₂ immX).mnemonic)
    (arm : ∀ r₁ r₂ immX s, exec (mk r₁ r₂ immX) s = twoRegs1ImmMoveIf test r₁ r₂ immX s) :
    RunsTwoRegs1ImmMoveIf mk op holds fails := by
  intro s r₁ r₂ immX
  rw [OpcodeMap.lookup_standard, arm]
  exact ⟨listed r₁ r₂ immX, _, rfl,
    outcomes_of_test (passes _) (rejects _) (twoRegs1ImmMoveIf_next test r₁ r₂ immX s _ rfl)⟩

end

/-! ### The moves (R311 to R315) -/

theorem exec_moveReg (firstReg secondReg : Reg) (s : State) :
    exec (.moveReg firstReg secondReg) s = twoRegsMove firstReg secondReg s := rfl

theorem runs_cmovIz : RunsThreeRegsMoveIf .cmovIz 83 (fun c => c = 0#32) (fun c => c ≠ 0#32) :=
  runsThreeRegsMoveIf_of_threeRegsMoveIf (fun c => condEq_iff c 0#32) (fun c => condEq_eq_false_iff c 0#32)
    (fun _ _ _ => rfl) (fun _ _ _ _ => rfl)
theorem runs_cmovNz : RunsThreeRegsMoveIf .cmovNz 84 (fun c => c ≠ 0#32) (fun c => c = 0#32) :=
  runsThreeRegsMoveIf_of_threeRegsMoveIf (fun c => condNe_iff c 0#32) (fun c => condNe_eq_false_iff c 0#32)
    (fun _ _ _ => rfl) (fun _ _ _ _ => rfl)

theorem runs_cmovIzImm : RunsTwoRegs1ImmMoveIf .cmovIzImm 85 (fun c => c = 0#32) (fun c => c ≠ 0#32) :=
  runsTwoRegs1ImmMoveIf_of_twoRegs1ImmMoveIf (fun c => condEq_iff c 0#32) (fun c => condEq_eq_false_iff c 0#32)
    (fun _ _ _ => rfl) (fun _ _ _ _ => rfl)
theorem runs_cmovNzImm : RunsTwoRegs1ImmMoveIf .cmovNzImm 86 (fun c => c ≠ 0#32) (fun c => c = 0#32) :=
  runsTwoRegs1ImmMoveIf_of_twoRegs1ImmMoveIf (fun c => condNe_iff c 0#32) (fun c => condNe_eq_false_iff c 0#32)
    (fun _ _ _ => rfl) (fun _ _ _ _ => rfl)

/-- Settles O17: `move_reg` always writes, and each conditional move runs by its test of the first register. -/
theorem moveResults : Obligations.MoveResults := by
  unfold Obligations.MoveResults
  refine ⟨fun s firstReg secondReg => ?_, runs_cmovIz, runs_cmovNz, runs_cmovIzImm, runs_cmovNzImm⟩
  rw [OpcodeMap.lookup_standard, exec_moveReg]
  exact ⟨rfl, _, rfl, twoRegsMove_next firstReg secondReg s _ rfl⟩

end Sys2Proof.Machine
end

section
/-! PROOFS. The branches (O19, O20), the instructions that are refused by rule (O32), and the unconditional jumps (O18). A branch is an
arm of a branch form whose test decides the rule's condition, and the form's outcomes are told apart by that test; a refused
instruction answers the same in every state, so its step is the record of the refusal unless the gas runs out. -/

namespace Sys2Proof.Machine

/-! ### Instructions of the two branch forms (spec/46_branch.md R330) -/

/-- The two outcomes of a branch, as one implication for each side of the condition that its test decides. -/
theorem branch_outcomes {test : Bool} {cond taken notTaken : Prop} (decides : test = true ↔ cond)
    (outcome : (test = true ∧ taken) ∨ (test = false ∧ notTaken)) : (cond → taken) ∧ (¬ cond → notTaken) :=
  outcomes_of_test decides (by rw [← decides, Bool.not_eq_true]) outcome

section
variable {op : Byte} {test : Word → Word → Bool} {cond : Word → Word → Prop}

/-- An instruction whose arm is the OneReg1Imm1Offset form branches exactly where the form's test decides. -/
theorem runsBranchImm_of_branchRegImm {mk : Reg → Imm → Imm → Instr} (decides : ∀ a b, test a b = true ↔ cond a b)
    (listed : ∀ reg immX offset, standardMnemonics[op.toNat]? = some (mk reg immX offset).mnemonic)
    (arm : ∀ reg immX offset s, exec (mk reg immX offset) s = branchRegImm test reg immX offset s) :
    RunsBranchImm mk op cond := by
  intro s reg immX offset
  rw [OpcodeMap.lookup_standard, arm, ← branchTarget_eq]
  exact ⟨listed reg immX offset, _, rfl, branch_outcomes (decides _ _) (branchRegImm_next test reg immX offset s _ rfl)⟩

/-- An instruction whose arm is the TwoRegs1Offset form branches exactly where the form's test decides, `x[secondReg]` on the left. -/
theorem runsBranchReg_of_branchRegReg {mk : Reg → Reg → Imm → Instr} (decides : ∀ a b, test a b = true ↔ cond a b)
    (listed : ∀ r₁ r₂ offset, standardMnemonics[op.toNat]? = some (mk r₁ r₂ offset).mnemonic)
    (arm : ∀ r₁ r₂ offset s, exec (mk r₁ r₂ offset) s = branchRegReg test r₁ r₂ offset s) :
    RunsBranchReg mk op cond := by
  intro s r₁ r₂ offset
  rw [OpcodeMap.lookup_standard, arm, ← branchTarget_eq]
  exact ⟨listed r₁ r₂ offset, _, rfl, branch_outcomes (decides _ _) (branchRegReg_next test r₁ r₂ offset s _ rfl)⟩

end

/-! ### The branches (R333 to R348) -/

/-- Settles O19: each arm is the form with the model's comparison, and the comparison decides the rule's condition. -/
theorem immediateBranchResults : Obligations.ImmediateBranchResults := by
  unfold Obligations.ImmediateBranchResults
  exact ⟨runsBranchImm_of_branchRegImm condEq_iff (fun _ _ _ => rfl) (fun _ _ _ _ => rfl),
    runsBranchImm_of_branchRegImm condNe_iff (fun _ _ _ => rfl) (fun _ _ _ _ => rfl),
    runsBranchImm_of_branchRegImm condLtU_iff (fun _ _ _ => rfl) (fun _ _ _ _ => rfl),
    runsBranchImm_of_branchRegImm condLeU_iff (fun _ _ _ => rfl) (fun _ _ _ _ => rfl),
    runsBranchImm_of_branchRegImm condGeU_iff (fun _ _ _ => rfl) (fun _ _ _ _ => rfl),
    runsBranchImm_of_branchRegImm condGtU_iff (fun _ _ _ => rfl) (fun _ _ _ _ => rfl),
    runsBranchImm_of_branchRegImm condLtS_iff (fun _ _ _ => rfl) (fun _ _ _ _ => rfl),
    runsBranchImm_of_branchRegImm condLeS_iff (fun _ _ _ => rfl) (fun _ _ _ _ => rfl),
    runsBranchImm_of_branchRegImm condGeS_iff (fun _ _ _ => rfl) (fun _ _ _ _ => rfl),
    runsBranchImm_of_branchRegImm condGtS_iff (fun _ _ _ => rfl) (fun _ _ _ _ => rfl)⟩

/-- Settles O20: as the register-immediate branches, with the comparison of `x[secondReg]` and `x[firstReg]`. -/
theorem registerBranchResults : Obligations.RegisterBranchResults := by
  unfold Obligations.RegisterBranchResults
  exact ⟨runsBranchReg_of_branchRegReg condEq_iff (fun _ _ _ => rfl) (fun _ _ _ _ => rfl),
    runsBranchReg_of_branchRegReg condNe_iff (fun _ _ _ => rfl) (fun _ _ _ _ => rfl),
    runsBranchReg_of_branchRegReg condLtU_iff (fun _ _ _ => rfl) (fun _ _ _ _ => rfl),
    runsBranchReg_of_branchRegReg condLtS_iff (fun _ _ _ => rfl) (fun _ _ _ _ => rfl),
    runsBranchReg_of_branchRegReg condGeU_iff (fun _ _ _ => rfl) (fun _ _ _ _ => rfl),
    runsBranchReg_of_branchRegReg condGeS_iff (fun _ _ _ => rfl) (fun _ _ _ _ => rfl)⟩

/-! ### The refused instructions (spec/60_exceptions.md R437) -/

/-- A refused instruction is refused in every state, whatever its operands. -/
theorem exec_of_refusedByRule {i : Instr} (refused : RefusedByRule i) (s : State) : exec i s = .fault .refusedByRule := by
  obtain ⟨reg, immX, rfl⟩ | ⟨firstReg, secondReg, immX, immY, rfl⟩ | ⟨firstReg, secondReg, rfl⟩ := refused
  · rfl
  · rfl
  · rfl

/-- With gas left, the step of a refused instruction records the refusal of its opcode byte in the state before the charge (R436). -/
theorem step_of_refusedByRule {s : State} {op : Byte} {i : Instr} (running : s.status = .running) (noFault : s.fault = none)
    (decoded : fetchDecode s = .ok (op, i)) (gasLeft : outOfGas (chargeGas op s) = false) (refused : RefusedByRule i) :
    step s = .next (s.recordFault (.refused op)) := by
  rw [step_of_gasLeft running noFault decoded gasLeft]
  exact settle_of_raises s op _ _ (.inr ⟨exec_of_refusedByRule refused _, rfl⟩)

/-- Settles O32: that the instruction is one of the three gives its refusal in every state; its step is then told apart by the gas that
the charge leaves. -/
theorem refusedInstructionsStop : Obligations.RefusedInstructionsStop := by
  unfold Obligations.RefusedInstructionsStop
  intro i standardOp one
  obtain ⟨entry, refused⟩ : OpcodeMap.standard.lookup standardOp = some i.mnemonic ∧ RefusedByRule i := by
    rw [OpcodeMap.lookup_standard]
    obtain ⟨reg, immX, rfl, rfl⟩ | ⟨firstReg, secondReg, immX, immY, rfl, rfl⟩ | ⟨firstReg, secondReg, rfl, rfl⟩ := one
    · exact ⟨rfl, .inl ⟨reg, immX, rfl⟩⟩
    · exact ⟨rfl, .inr (.inl ⟨firstReg, secondReg, immX, immY, rfl⟩)⟩
    · exact ⟨rfl, .inr (.inr ⟨firstReg, secondReg, rfl⟩)⟩
  refine ⟨entry, fun s => ⟨exec_of_refusedByRule refused s, fun op running noFault decoded => ?_⟩⟩
  exact ⟨fun gasLeft => step_of_refusedByRule running noFault decoded gasLeft refused,
    fun out => step_of_outOfGas running noFault decoded out⟩

/-! ### The unconditional jumps (spec/46_branch.md R331, R332) -/

/-- A register write followed by a jump is the whole effect. -/
theorem writesReg_setReg_advance_jump (s : State) (d : Reg) (v : Word) (skip : Nat) (target : Word) :
    WritesReg s ((s.setReg d v).advance skip (.jump target)) d v target where
  value := by simp
  others r other := by simp [setReg_reg_other s d r v other]
  pc := advance_jump_pc ..
  bytes a := by simp
  control := sameControl_setReg_advance s d v skip _

/-- The whole next state of `jump`, its target as a wrapping sum. -/
theorem exec_jump (offset : Imm) (s : State) :
    exec (.jump offset) s = .next (s.advance (1 + offset.len) (.jump (s.pc + offset.val))) := by
  rw [← branchTarget_eq]
  rfl

/-- The whole next state of `load_imm_jump`, its target as a wrapping sum. -/
theorem exec_loadImmJump (reg : Reg) (immX offset : Imm) (s : State) : exec (.loadImmJump reg immX offset) s =
    .next ((s.setReg reg immX.val).advance (2 + immX.len + offset.len) (.jump (s.pc + offset.val))) := by
  rw [← branchTarget_eq]
  rfl

/-- Settles O18: both jumps complete by their `exec` equations, whatever stands at the target. -/
theorem jumpResults : Obligations.JumpResults := by
  unfold Obligations.JumpResults
  simp only [OpcodeMap.lookup_standard]
  exact ⟨fun s offset => ⟨rfl, _, exec_jump offset s, movesPc_advance_jump s _ _⟩,
    fun s reg immX offset => ⟨rfl, _, exec_loadImmJump reg immX offset s, writesReg_setReg_advance_jump s reg _ _ _⟩⟩

end Sys2Proof.Machine
end

section
/-! PROOFS. The results of `load_imm`, the loads and the stores (O21 to O27). A load of readable bytes joins them with `le` and extends
the number; a store to writable bytes is one memory write at `storeAccess`, so one lemma serves all twelve. -/

namespace Sys2Proof.Machine

/-- The row of a mnemonic in the table of R150 is its entry in the default map. -/
theorem lookup_standard_of_listed {op : Byte} {m : Mnemonic} (listed : standardMnemonics[op.toNat]? = some m) :
    OpcodeMap.standard.lookup op = some m :=
  (OpcodeMap.lookup_standard op).trans listed

/-! ### The immediate load (spec/47_load_store.md R371) -/

theorem exec_loadImm (reg : Reg) (immX : Imm) (s : State) :
    exec (.loadImm reg immX) s = .next ((s.setReg reg immX.val).advance (2 + immX.len) .seq) := rfl

/-- Settles O21: the `exec` equation is a register write with the sequential pc advance. -/
theorem loadImmediateResult : Obligations.LoadImmediateResult := by
  unfold Obligations.LoadImmediateResult
  intro s reg immX
  exact ⟨lookup_standard_of_listed rfl, _, exec_loadImm reg immX s, writesReg_setReg_advance s reg immX.val _⟩

/-! ### Joined bytes (spec/20_memory.md R63) -/

/-- Appending words puts the right one lowest. -/
theorem toNat_append_byte {w : Nat} (high : BitVec w) (low : Byte) : (high ++ low).toNat = low.toNat + 256 * high.toNat := by
  rw [BitVec.toNat_append, ← Nat.shiftLeft_add_eq_or_of_lt low.isLt, Nat.shiftLeft_eq]
  omega

theorem le_bytes_one (b : Nat → Byte) : le ((List.range 1).map b) = (b 0).toNat := rfl

theorem le_bytes_two (b : Nat → Byte) : le ((List.range 2).map b) = (b 1 ++ b 0).toNat := by
  rw [toNat_append_byte]
  rfl

theorem le_bytes_four (b : Nat → Byte) : le ((List.range 4).map b) = (b 3 ++ b 2 ++ b 1 ++ b 0).toNat := by
  simp only [toNat_append_byte]
  rfl

/-- Bytes that join to a word extend as that word does (spec/00_scope.md R25). -/
theorem zext_le_bytes {n w : Nat} {b : Nat → Byte} {x : BitVec w} (joined : le ((List.range n).map b) = x.toNat) :
    zext (le ((List.range n).map b)) = x.setWidth 32 := by
  rw [joined, zext_toNat]

theorem sext_le_bytes {n w : Nat} {b : Nat → Byte} {x : BitVec w} (joined : le ((List.range n).map b) = x.toNat) :
    sext w (le ((List.range n).map b)) = x.signExtend 32 := by
  rw [joined, sext_toNat]

/-- Four bytes fill a register, so their extension is the joined word itself. -/
theorem zext_le_bytes_four (b : Nat → Byte) : zext (le ((List.range 4).map b)) = b 3 ++ b 2 ++ b 1 ++ b 0 :=
  (zext_le_bytes (le_bytes_four b)).trans (BitVec.setWidth_eq _)

/-! ### Instructions of the two load forms (spec/47_load_store.md R370) -/

/-- A load of readable bytes completes, with the extension of their number as its whole effect. -/
theorem load_writesReg {s : State} {a : Word} {n : Nat} {b : Nat → Byte} (readable : Readable s a n b) (ext : Nat → Word)
    (d : Reg) (skip : Nat) :
    ∃ t, afterMem (memRead s a n) (fun v => (s.setReg d (ext v)).advance skip .seq) = .next t ∧
      WritesReg s t d (ext (le ((List.range n).map b))) (s.pc + BitVec.ofNat 32 skip) :=
  ⟨_, load_of_readable s a n ext d skip b readable, writesReg_setReg_advance s d _ skip⟩

section
variable {op : Byte} {n : Nat} {ext : Nat → Word} {value : (Nat → Byte) → Word}

theorem runsLoadAbs_of_loadAbs {mk : Reg → Imm → Instr} (joins : ∀ b, ext (le ((List.range n).map b)) = value b)
    (listed : ∀ reg immX, standardMnemonics[op.toNat]? = some (mk reg immX).mnemonic)
    (arm : ∀ reg immX s, exec (mk reg immX) s = loadAbs n ext reg immX s) : RunsLoadAbs mk op n value := by
  intro s reg immX b
  refine ⟨lookup_standard_of_listed (listed reg immX), fun readable => ?_⟩
  rw [arm, ← joins]
  exact load_writesReg readable ext reg _

theorem runsLoadInd_of_loadInd {mk : Reg → Reg → Imm → Instr} (joins : ∀ b, ext (le ((List.range n).map b)) = value b)
    (listed : ∀ r₁ r₂ immX, standardMnemonics[op.toNat]? = some (mk r₁ r₂ immX).mnemonic)
    (arm : ∀ r₁ r₂ immX s, exec (mk r₁ r₂ immX) s = loadInd n ext r₁ r₂ immX s) : RunsLoadInd mk op n value := by
  intro s r₁ r₂ immX b
  refine ⟨lookup_standard_of_listed (listed r₁ r₂ immX), fun readable => ?_⟩
  rw [arm, ← joins]
  exact load_writesReg readable ext r₂ _

end

/-- Settles O22: each arm is the absolute form with its width and extension, and the extension of the joined bytes is the library's. -/
theorem absoluteLoadResults : Obligations.AbsoluteLoadResults := by
  unfold Obligations.AbsoluteLoadResults
  exact ⟨runsLoadAbs_of_loadAbs (fun b => zext_le_bytes (le_bytes_one b)) (fun _ _ => rfl) (fun _ _ _ => rfl),
    runsLoadAbs_of_loadAbs (fun b => sext_le_bytes (le_bytes_one b)) (fun _ _ => rfl) (fun _ _ _ => rfl),
    runsLoadAbs_of_loadAbs (fun b => zext_le_bytes (le_bytes_two b)) (fun _ _ => rfl) (fun _ _ _ => rfl),
    runsLoadAbs_of_loadAbs (fun b => sext_le_bytes (le_bytes_two b)) (fun _ _ => rfl) (fun _ _ _ => rfl),
    runsLoadAbs_of_loadAbs zext_le_bytes_four (fun _ _ => rfl) (fun _ _ _ => rfl)⟩

/-- Settles O23: as the absolute loads, in the indirect form. -/
theorem indirectLoadResults : Obligations.IndirectLoadResults := by
  unfold Obligations.IndirectLoadResults
  exact ⟨runsLoadInd_of_loadInd (fun b => zext_le_bytes (le_bytes_one b)) (fun _ _ _ => rfl) (fun _ _ _ _ => rfl),
    runsLoadInd_of_loadInd (fun b => sext_le_bytes (le_bytes_one b)) (fun _ _ _ => rfl) (fun _ _ _ _ => rfl),
    runsLoadInd_of_loadInd (fun b => zext_le_bytes (le_bytes_two b)) (fun _ _ _ => rfl) (fun _ _ _ _ => rfl),
    runsLoadInd_of_loadInd (fun b => sext_le_bytes (le_bytes_two b)) (fun _ _ _ => rfl) (fun _ _ _ _ => rfl),
    runsLoadInd_of_loadInd zext_le_bytes_four (fun _ _ _ => rfl) (fun _ _ _ _ => rfl)⟩

/-! ### The stores (R377 to R388) -/

/-- A store in the table of R150 has its row's opcode, and where its bytes may all be written it completes, with the bytes of its value
as its whole effect. -/
theorem listedStore_runs {i : Instr} {op : Byte} {s : State} {a : Word} {n : Nat} {v : Word}
    (listed : standardMnemonics[op.toNat]? = some i.mnemonic) (access : storeAccess i s = some (a, n, v)) (width : n ≤ 4) :
    OpcodeMap.standard.lookup op = some i.mnemonic ∧
    (Writable s a n → ∃ t, exec i s = .next t ∧ StoresBytes s t a n v (s.pc + BitVec.ofNat 32 i.skip)) :=
  ⟨lookup_standard_of_listed listed, fun writable =>
    ⟨_, (exec_of_storeAccess access).trans (store_of_writable s a n v i.skip writable),
      storesBytes_setMem_advance s a n v i.skip (by omega)⟩⟩

/-- Settles O24: each store's access is at the absolute address, with the value of its register. -/
theorem absoluteStoreResults : Obligations.AbsoluteStoreResults := by
  unfold Obligations.AbsoluteStoreResults
  exact ⟨fun _ _ _ => listedStore_runs rfl rfl (by decide),
    fun _ _ _ => listedStore_runs rfl rfl (by decide),
    fun _ _ _ => listedStore_runs rfl rfl (by decide)⟩

/-- Settles O25: as the absolute stores, with the value of the second immediate. -/
theorem immediateStoreResults : Obligations.ImmediateStoreResults := by
  unfold Obligations.ImmediateStoreResults
  exact ⟨fun _ _ _ => listedStore_runs rfl rfl (by decide),
    fun _ _ _ => listedStore_runs rfl rfl (by decide),
    fun _ _ _ => listedStore_runs rfl rfl (by decide)⟩

/-- Settles O26: each store's access is at its register's address, with the value of the second immediate. -/
theorem indirectImmediateStoreResults : Obligations.IndirectImmediateStoreResults := by
  unfold Obligations.IndirectImmediateStoreResults
  exact ⟨fun _ _ _ _ => listedStore_runs rfl rfl (by decide),
    fun _ _ _ _ => listedStore_runs rfl rfl (by decide),
    fun _ _ _ _ => listedStore_runs rfl rfl (by decide)⟩

/-- Settles O27: each store's access is at the first register's address, with the value of the second register. -/
theorem indirectStoreResults : Obligations.IndirectStoreResults := by
  unfold Obligations.IndirectStoreResults
  exact ⟨fun _ _ _ _ => listedStore_runs rfl rfl (by decide),
    fun _ _ _ _ => listedStore_runs rfl rfl (by decide),
    fun _ _ _ _ => listedStore_runs rfl rfl (by decide)⟩

end Sys2Proof.Machine
end

section
/-! PROOFS. Every outcome is precise (O36); and what the core offers besides the step: reset (O42, O46), load (O48) and the return from a
host call (O47). The five forms of a step have four outcomes, told apart by the status and the fault record after it. -/

namespace Sys2Proof.Machine

/-! ### The outcomes of a step (spec/60_exceptions.md R439) -/

/-- An instruction that completes leaves the status, or is `trap` or `ecalli`, whose whole effect is then known. -/
theorem exec_next_status {i : Instr} {s t : State} (run : exec i s = .next t) :
    t.status = s.status ∨ t = s.withStatus .trapped ∨
      ∃ immX, i = .ecalli immX ∧
        t = { s with hostCall := immX.val, status := .host, pc := s.pc + BitVec.ofNat 32 (1 + immX.len) } := by
  have answer := execAnswer i s
  rw [run] at answer
  cases answer with
  | regs regs ir => exact .inl (advance_status ..)
  | trap => exact .inr (.inl rfl)
  | ecalli immX isEcalli =>
    subst isEcalli
    exact .inr (.inr ⟨immX, rfl, Host.Outcome.next.inj (run.symm.trans (exec_ecalli immX s))⟩)
  | store => exact .inl (advance_status ..)

/-- The four outcomes of a step, each with what it leaves unchanged. -/
inductive StepOutcome (s t : State) : Prop where
  /-- The core runs on. -/
  | running (status : t.status = .running) (noFault : t.fault = none)
  /-- A model fault undoes the step. -/
  | faulted (status : t.status = .running) (r : ModelFault) (eq : t = s.recordFault r)
  /-- Trapped or OutOfGas: nothing but the status, and the gas, may have changed. -/
  | ended (st : Status) (gas : Int) (notHost : st ≠ .host) (noFault : t.fault = none) (eq : t = { s with gas := gas, status := st })
  /-- Host: a completed `ecalli`. -/
  | host (op : Byte) (immX : Imm) (gas : Int) (decoded : fetchDecode s = .ok (op, .ecalli immX)) (noFault : t.fault = none)
      (eq : t = { s with gas := gas, hostCall := immX.val, status := .host, pc := s.pc + BitVec.ofNat 32 (1 + immX.len) })

theorem step_outcome {s t : State} (h : step s = .next t) : StepOutcome s t := by
  obtain ⟨running, noFault, form⟩ := step_next s t h
  cases form with
  | decodeError _ eq => subst eq; exact .ended .trapped s.gas nofun noFault rfl
  | decodeFault r _ eq => subst eq; exact .faulted running r rfl
  | outOfGas op i _ _ eq => subst eq; exact .ended .outOfGas _ nofun noFault rfl
  | ran op i decoded _ run =>
    have fault : t.fault = none := (exec_next_fault run).trans noFault
    obtain kept | rfl | ⟨immX, rfl, rfl⟩ := exec_next_status run
    · exact .running (kept.trans running) fault
    · exact .ended .trapped _ nofun fault rfl
    · exact .host op immX _ decoded fault rfl
  | execFault op i r _ _ _ eq => subst eq; exact .faulted running r rfl

/-- Settles O36: each part speaks of one of the four outcomes, and its condition excludes the others. -/
theorem everyOutcomeIsPrecise : Obligations.EveryOutcomeIsPrecise := by
  unfold Obligations.EveryOutcomeIsPrecise
  intro s t h
  cases step_outcome h with
  | running status noFault => simp [status, noFault]
  | faulted status r eq =>
    refine ⟨fun r' recorded => ?_, by simp [status], by simp [status]⟩
    subst eq
    cases recorded
    rfl
  | ended st gas notHost noFault eq =>
    refine ⟨by simp [noFault], fun _ => ?_, fun host => ?_⟩
    · subst eq
      exact ⟨fun _ => rfl, fun _ => rfl, rfl, rfl⟩
    · subst eq
      exact absurd host notHost
  | host op immX gas decoded noFault eq =>
    refine ⟨by simp [noFault], ?_⟩
    subst eq
    exact ⟨nofun, fun _ => ⟨op, immX, decoded, rfl, rfl, fun _ => rfl, fun _ => rfl⟩⟩

/-! ### Reset (spec/70_reset_and_hazards.md R471) -/

/-- Settles O46: each field of the state after reset is the one given; registers and bytes are read through their fields. -/
theorem resetBuildsTheInitialState : Obligations.ResetBuildsTheInitialState := by
  unfold Obligations.ResetBuildsTheInitialState
  rintro p init cfg h s rfl
  exact ⟨fun _ => rfl, rfl, rfl, fun _ => rfl, rfl, rfl, rfl, rfl⟩

/-- Settles O42: the memory lists nothing, an empty code is covered, and the gas is 100. -/
theorem invariantHoldsAtReset : Obligations.InvariantHoldsAtReset where
  memWf := wf_reset
  covered := rfl
  gasHalt _ negative := absurd negative (by decide)

/-! ### Load and resume (spec/60_exceptions.md R435, R445) -/

theorem covered_iff (p : Program) : p.covered = true ↔ p.code.length ≤ 8 * p.mask.length := decide_eq_true_iff

/-- Settles O48: the load tests `covered`. -/
theorem loadRejectsUncoveredCode : Obligations.LoadRejectsUncoveredCode := by
  unfold Obligations.LoadRejectsUncoveredCode
  intro code mask
  refine ⟨fun covers => ?_, fun short => ?_⟩
  · rw [loadProgram, if_pos ((covered_iff _).2 covers)]
  · rw [loadProgram, if_neg fun covered => short.not_ge ((covered_iff _).1 covered)]

/-- Settles O47: the two conditions are the sides of the test in `resume`. -/
theorem resumeReturnsFromHost : Obligations.ResumeReturnsFromHost := by
  unfold Obligations.ResumeReturnsFromHost
  intro s regs mem gas
  refine ⟨fun host noFault => ?_, fun other => ?_⟩
  · rw [State.resume, if_pos ⟨host, noFault⟩]
  · rw [State.resume, if_neg (not_and_or.2 other)]

end Sys2Proof.Machine
end

section
/-! PROOFS. The opcode byte acts through the map alone (O50, O51). An argument shape reads the code after the opcode byte and no part of
the map, so the decode keeps its answer; no instruction reads program or map, so every instruction, and with it the step, keeps its. -/

namespace Sys2Proof

/-! ### Another map and another opcode byte -/

/-- The configuration with another `OPCODE_MAP`. -/
def Config.withMap (cfg : Config) (map : OpcodeMap) : Config := { cfg with opcodeMap := map }

/-- The program with another code byte at pc. -/
def Program.withOpcode (p : Program) (pc : Nat) (op : Byte) : Program := { p with code := p.code.set pc op }

section OtherOpcode

variable (cfg : Config) (map : OpcodeMap) (p : Program) (pc : Nat) (op : Byte)

/-! ### Code reads -/

theorem codeByte_withOpcode {i : Nat} (after : pc < i) : codeByte (p.withOpcode pc op) i = codeByte p i := by
  rw [codeByte, Program.withOpcode, List.getElem?_set_ne after.ne, codeByte]

theorem codeImm_withOpcode {i : Nat} (after : pc < i) (n : Nat) : codeImm (p.withOpcode pc op) i n = codeImm p i n := by
  unfold codeImm codeBytes Program.withOpcode
  rw [List.length_set, List.drop_set_of_lt after]

theorem withOpcode_code_same (within : pc < p.code.length) : (p.withOpcode pc op).code[pc]? = some op :=
  List.getElem?_set_self within

/-! ### The maps of registers and lengths read no opcode -/

theorem regIdx_withMap (n : Nat) : regIdx (cfg.withMap map) n = regIdx cfg n := rfl
theorem lenIdx_withMap (n : Nat) : lenIdx (cfg.withMap map) n = lenIdx cfg n := rfl
theorem maskLen_withOpcode (i : Nat) : maskLen (cfg.withMap map) (p.withOpcode pc op) i = maskLen cfg p i := rfl
theorem secondLen_withOpcode (hdr lX : Nat) :
    secondLen (cfg.withMap map) (p.withOpcode pc op) pc hdr lX = secondLen cfg p pc hdr lX := rfl

/-! ### The argument shapes (spec/30_encoding.md R118 to R129) -/

theorem decodeRegPair_withOpcode :
    decodeRegPair (cfg.withMap map) (p.withOpcode pc op) pc = decodeRegPair cfg p pc := by
  simp only [decodeRegPair, codeByte_withOpcode p pc op (show pc < pc + 1 by omega), regIdx_withMap]

theorem decodeImmPair_withOpcode (hdr lX : Nat) :
    decodeImmPair (cfg.withMap map) (p.withOpcode pc op) pc hdr lX = decodeImmPair cfg p pc hdr lX := by
  simp only [decodeImmPair, codeImm_withOpcode p pc op (show pc < pc + 1 + hdr by omega),
    codeImm_withOpcode p pc op (show pc < pc + 1 + hdr + lX by omega), secondLen_withOpcode]

/-- A shape's rule reads only the code after the opcode byte, and of the configuration no map. -/
theorem decodeFormat_withOpcode (f : Format) :
    decodeFormat (cfg.withMap map) (p.withOpcode pc op) pc f = decodeFormat cfg p pc f := by
  have byte1 := codeByte_withOpcode p pc op (show pc < pc + 1 by omega)
  have byte2 := codeByte_withOpcode p pc op (show pc < pc + 2 by omega)
  have imm1 := codeImm_withOpcode p pc op (show pc < pc + 1 by omega)
  have imm2 := codeImm_withOpcode p pc op (show pc < pc + 2 by omega)
  cases f with
  | noArgs => rfl
  | oneImm | oneOffset => simp only [decodeFormat, decodeOneImm, imm1, maskLen_withOpcode]
  | twoImm => simp only [decodeFormat, decodeTwoImm, byte1, lenIdx_withMap, decodeImmPair_withOpcode]
  | oneReg1Imm => simp only [decodeFormat, decodeOneReg1Imm, byte1, imm2, regIdx_withMap, maskLen_withOpcode]
  | oneReg2Imm | oneReg1Imm1Offset =>
    simp only [decodeFormat, decodeOneReg2Imm, byte1, regIdx_withMap, lenIdx_withMap, decodeImmPair_withOpcode]
  | twoRegs => simp only [decodeFormat, decodeRegPair_withOpcode]
  | twoRegs1Imm | twoRegs1Offset =>
    simp only [decodeFormat, decodeTwoRegs1Imm, decodeRegPair_withOpcode, imm2, maskLen_withOpcode]
  | twoRegs2Imm =>
    simp only [decodeFormat, decodeTwoRegs2Imm, decodeRegPair_withOpcode, byte2, lenIdx_withMap, decodeImmPair_withOpcode]
  | threeRegs => simp only [decodeFormat, decodeThreeRegs, decodeRegPair_withOpcode, byte2, regIdx_withMap]

end OtherOpcode

/-- Two opcode bytes with one mnemonic, each in its own map, decode alike: at a marked index by the mnemonic's shape, and at an unmarked
one to the fault that names no byte. -/
theorem decode_withOpcode {cfg : Config} {map : OpcodeMap} {p : Program} {pc : Nat} {op op' : Byte} {m : Mnemonic}
    (byte : p.code[pc]? = some op) (entry : cfg.opcodeMap.lookup op = some m) (entry' : map.lookup op' = some m) :
    decode (cfg.withMap map) (p.withOpcode pc op') pc = decode cfg p pc := by
  obtain ⟨within, -⟩ := List.getElem?_eq_some_iff.1 byte
  have byte' := withOpcode_code_same p pc op' within
  obtain ⟨within', -⟩ := List.getElem?_eq_some_iff.1 byte'
  have sameMask : isInstruction (cfg.withMap map) (p.withOpcode pc op') pc = isInstruction cfg p pc := rfl
  cases start : isInstruction cfg p pc with
  | true => rw [decode_entry byte' (sameMask.trans start) entry', decode_entry byte start entry, decodeFormat_withOpcode]
  | false => rw [decode_unmarked within' (sameMask.trans start), decode_unmarked within start]

/-- Settles O50: the mnemonic's shape is all that the decode takes from the opcode byte. -/
theorem opcodeBytesActThroughTheMapAlone : Obligations.OpcodeBytesActThroughTheMapAlone := by
  unfold Obligations.OpcodeBytesActThroughTheMapAlone
  exact fun _ _ _ _ _ _ _ => decode_withOpcode

end Sys2Proof

namespace Sys2Proof.Machine

/-! ### No instruction reads the program or the map -/

/-- The state under another `OPCODE_MAP`, with another program. -/
def State.remap (map : OpcodeMap) (p : Program) (s : State) : State := { s with config := s.config.withMap map, program := p }

/-- The answer with its next state, if it has one, changed by f. -/
def mapNext (f : State → State) : Result → Result
  | .next t => .next (f t)
  | .fault why => .fault why
  | .refused why => .refused why

section Remap

variable (map : OpcodeMap) (p : Program) (s : State)

theorem remap_advance (skip : Nat) (ir : InstructionResult) :
    (s.remap map p).advance skip ir = (s.advance skip ir).remap map p := by
  cases ir <;> rfl

/-- A conditional register write: the conditional moves. -/
theorem remap_moveIf (c : Bool) (r : Reg) (x : Word) (skip : Nat) :
    (if c then (s.remap map p).setReg r x else s.remap map p).advance skip .seq =
      ((if c then s.setReg r x else s).advance skip .seq).remap map p := by
  cases c <;> rfl

/-- A register write with what a memory read answered: the loads. -/
theorem remap_load (a : Word) (n : Nat) (ext : Nat → Word) (r : Reg) (skip : Nat) :
    afterMem (memRead (s.remap map p) a n) (fun x => ((s.remap map p).setReg r (ext x)).advance skip .seq) =
      mapNext (.remap map p) (afterMem (memRead s a n) fun x => (s.setReg r (ext x)).advance skip .seq) := by
  have sameRead : memRead (s.remap map p) a n = memRead s a n := rfl
  rw [sameRead]
  cases memRead s a n <;> rfl

/-- A memory write: the stores. -/
theorem remap_store (a : Word) (n : Nat) (x : Word) (skip : Nat) :
    afterMem (memWrite (s.remap map p) a n x) (fun t => t.advance skip .seq) =
      mapNext (.remap map p) (afterMem (memWrite s a n x) fun t => t.advance skip .seq) := by
  have sameRights : (s.remap map p).accessOf = s.accessOf := rfl
  unfold memWrite
  rw [sameRights]
  split <;> rfl

/-- Every instruction answers the same under another map and program (spec/10_state.md R42, R47). -/
theorem exec_remap (i : Instr) : exec i (s.remap map p) = mapNext (.remap map p) (exec i s) := by
  cases i with
  | add | sub | mul | mulUpperSS | mulUpperUU | mulUpperSU | divU | divS | remU | remS
  | and | xor | or | shloL | shloR | sharR | setLtU | setLtS
  | addImm | mulImm | mulUpperSSImm | mulUpperUUImm | negAddImm | andImm | xorImm | orImm
  | shloLImm | shloRImm | sharRImm | shloLImmAlt | shloRImmAlt | sharRImmAlt
  | setLtUImm | setLtSImm | setGtUImm | setGtSImm | moveReg | loadImm | loadImmJump
  | jump | fallthrough | trap | ecalli | jumpInd | loadImmJumpInd | sbrk => rfl
  | branchEqImm | branchNeImm | branchLtUImm | branchLeUImm | branchGeUImm | branchGtUImm
  | branchLtSImm | branchLeSImm | branchGeSImm | branchGtSImm
  | branchEq | branchNe | branchLtU | branchLtS | branchGeU | branchGeS =>
    exact congrArg Host.Outcome.next (remap_advance map p s _ _)
  | cmovIz | cmovNz | cmovIzImm | cmovNzImm => exact congrArg Host.Outcome.next (remap_moveIf map p s _ _ _ _)
  | loadU8 | loadI8 | loadU16 | loadI16 | loadU32
  | loadIndU8 | loadIndI8 | loadIndU16 | loadIndI16 | loadIndU32 => exact remap_load map p s _ _ _ _ _
  | storeU8 | storeU16 | storeU32 | storeImmU8 | storeImmU16 | storeImmU32
  | storeImmIndU8 | storeImmIndU16 | storeImmIndU32
  | storeIndU8 | storeIndU16 | storeIndU32 => exact remap_store map p s _ _ _ _

end Remap

/-! ### Every step -/

/-- What O51 says of the two next states. -/
structure AgreeButMap (t t' : State) : Prop where
  regs : t'.regs = t.regs
  pc : t'.pc = t.pc
  gas : t'.gas = t.gas
  status : t'.status = t.status
  hostCall : t'.hostCall = t.hostCall
  mem : t'.mem = t.mem
  fault : t'.fault = none ↔ t.fault = none

theorem agreeButMap_remap (map : OpcodeMap) (p : Program) (t : State) : AgreeButMap t (t.remap map p) :=
  ⟨rfl, rfl, rfl, rfl, rfl, rfl, .rfl⟩

/-- The recorded reasons may differ: a refusal names its opcode byte. -/
theorem agreeButMap_recordFault (map : OpcodeMap) (p : Program) (s : State) (r r' : ModelFault) :
    AgreeButMap (s.recordFault r) ((s.remap map p).recordFault r') :=
  ⟨rfl, rfl, rfl, rfl, rfl, rfl, by simp⟩

/-- What raises a fault raises one under another opcode byte too. -/
theorem Raises.otherOpcode {op : Byte} {r : ModelFault} {answer : Result} (h : Raises op r answer) (op' : Byte)
    (f : State → State) : ∃ r', Raises op' r' (mapNext f answer) := by
  obtain rfl | ⟨rfl, -⟩ := h
  · exact ⟨r, .inl rfl⟩
  · exact ⟨.refused op', .inr ⟨rfl, rfl⟩⟩

/-- The charge is the same where the costs are. -/
theorem chargeGas_remap {s : State} {op op' : Byte} (cost : gasCostOf s.config op' = gasCostOf s.config op) (map : OpcodeMap)
    (p : Program) : chargeGas op' (s.remap map p) = (chargeGas op s).remap map p := by
  have sameCost : gasCostOf (s.remap map p).config op' = gasCostOf s.config op := cost
  rw [chargeGas, sameCost]
  rfl

section OtherStep

variable {s t : State} {op op' : Byte} {map : OpcodeMap} {m : Mnemonic} (byte : s.program.code[s.pc.toNat]? = some op)
  (entry : s.config.opcodeMap.lookup op = some m) (entry' : map.lookup op' = some m)

include byte entry entry'

/-- The decode phase answers the same instruction, with the other opcode byte. -/
theorem fetchDecode_remap :
    fetchDecode (s.remap map (s.program.withOpcode s.pc.toNat op')) = (fetchDecode s).bind fun d => .ok (op', d.2) := by
  have sameDecode := decode_withOpcode byte entry entry'
  obtain ⟨within, -⟩ := List.getElem?_eq_some_iff.1 byte
  have otherByte := (codeByte_ok _ _ _).2 (withOpcode_code_same s.program s.pc.toNat op' within)
  show (decode (s.config.withMap map) (s.program.withOpcode s.pc.toNat op') s.pc.toNat).bind (fun i =>
    (codeByte (s.program.withOpcode s.pc.toNat op') s.pc.toNat).bind fun b => .ok (b, i)) = _
  rw [fetchDecode, sameDecode, otherByte, (codeByte_ok _ _ _).2 byte]
  cases decode s.config s.program s.pc.toNat <;> rfl

/-- Each form of the first step gives the second one, phase by phase. -/
theorem step_remap (cost : gasCostOf s.config op' = gasCostOf s.config op) (h : step s = .next t) :
    ∃ t', step (s.remap map (s.program.withOpcode s.pc.toNat op')) = .next t' ∧ AgreeButMap t t' := by
  obtain ⟨running, noFault, form⟩ := step_next s t h
  have decoded' := fetchDecode_remap byte entry entry'
  generalize s.program.withOpcode s.pc.toNat op' = p at decoded' ⊢
  have opcode : ∀ {b i}, fetchDecode s = .ok (b, i) → b = op := fun decoded =>
    Option.some.inj (((fetchDecode_ok _ _ _).1 decoded).1.symm.trans byte)
  have charged := chargeGas_remap cost map p
  cases form with
  | decodeError decoded eq =>
    rw [decoded] at decoded'
    subst eq
    exact ⟨_, step_of_decodeError (s := s.remap map p) running noFault decoded', agreeButMap_remap map p _⟩
  | decodeFault r decoded eq =>
    rw [decoded] at decoded'
    subst eq
    exact ⟨_, step_of_decodeFault (s := s.remap map p) running noFault decoded', agreeButMap_remap map p _⟩
  | outOfGas b i decoded out eq =>
    obtain rfl := opcode decoded
    rw [decoded] at decoded'
    subst eq
    refine ⟨_, step_of_outOfGas (s := s.remap map p) running noFault decoded' (charged ▸ out), ?_⟩
    rw [charged]
    exact agreeButMap_remap map p _
  | ran b i decoded out run =>
    obtain rfl := opcode decoded
    rw [decoded] at decoded'
    refine ⟨t.remap map p, ?_, agreeButMap_remap map p t⟩
    rw [step_of_gasLeft (s := s.remap map p) running noFault decoded' (charged ▸ out), charged, exec_remap, run]
    rfl
  | execFault b i r decoded out raised eq =>
    obtain rfl := opcode decoded
    rw [decoded] at decoded'
    subst eq
    obtain ⟨r', raised'⟩ := raised.otherOpcode op' (.remap map p)
    rw [← exec_remap, ← charged] at raised'
    refine ⟨_, ?_, agreeButMap_recordFault map p s r r'⟩
    rw [step_of_gasLeft (s := s.remap map p) running noFault decoded' (charged ▸ out)]
    exact settle_of_raises _ _ _ _ raised'

end OtherStep

/-- Settles O51: a state has at most one next state, so the second step's is the one that `step_remap` gives. -/
theorem stepsActThroughTheMapAlone : Obligations.StepsActThroughTheMapAlone := by
  unfold Obligations.StepsActThroughTheMapAlone
  rintro s s' t t' op op' map m byte entry entry' cost rfl h h'
  obtain ⟨u, second, regs, pc, gas, status, hostCall, mem, fault⟩ := step_remap byte entry entry' cost h
  cases h'.symm.trans second
  exact ⟨regs, pc, gas, status, hostCall, mem, fault⟩

end Sys2Proof.Machine
end
